-- ==== Sys2Proof/Word.lean ====
section
/-! DEFINITION. The word types of the block: a register is 32 bits (spec/00_scope.md R7), a byte 8 bits (R8). -/

namespace Sys2Proof

/-- A register value, a system memory address as a register holds it, or a command word (R7, R63). -/
abbrev Word := BitVec 32

/-- A byte: an unsigned integer in 0..255 (R8). -/
abbrev Byte := BitVec 8

end Sys2Proof
end

