-- ==== Sys2Proof/Config.lean ====
section
/-! DEFINITION. What the spec leaves to the platform or the implementation (spec/00_scope.md R7) and the free values
(spec/93_implementation_defined.md, "any value"). -/

namespace Sys2Proof

/-- The byte at an address the spec gives no value: draw number, then address. It has no body, so nothing in Lean can
evaluate it (log 4). -/
opaque Config.freeByte : Nat → Nat → Byte

/-- A 32-bit register read the spec gives no value, by draw number (log 4). -/
opaque Config.freeWord : Nat → Word

/-- A range of byte addresses, `base` up to `base + size - 1`. -/
structure Region where
  base : Nat
  size : Nat
  deriving DecidableEq, Repr

/-- The OPEN parameters of spec/00_scope.md R7, as plain data that no step changes (log 2). -/
structure Params where
  /-- `REG_BASE` (spec/92_eei_decisions.md D2). -/
  regBase : Word
  /-- Whether the platform routes a memory access in the register window to the registers (spec/20_memory.md R61). -/
  regWindowRouted : Bool
  /-- `MAX_ROW_BYTES` (spec/92_eei_decisions.md D21). -/
  maxRowBytes : Nat
  /-- `mem_backed(a)`: the addresses some region holds (spec/92_eei_decisions.md D4). -/
  backed : List Region
  deriving DecidableEq, Repr

/-- The parameters `State.reset` names (DESIGN CHOICE, unsafe, log 2); no statement rests on them. -/
def Config.resetParams : Params where
  regBase := 0x40000000#32
  regWindowRouted := false
  maxRowBytes := 16384
  backed := [⟨0, 0x100000000⟩]

end Sys2Proof
end

