-- ==== Sys2Proof/Syntax.lean ====
section
/-! DEFINITION. The instruction set: the eight commands of spec/30_encoding.md R81 and the five filter types of R84,
one constructor per row of spec/opcode_table.json, and the two formats their codes have. -/

namespace Sys2Proof

/-- The block's "instruction set" (spec/00_scope.md R1). No instruction has an operand field: a command's operands are
registers (R82), a filter type's operands are the filtered byte and its reconstructed neighbours (R143). -/
inductive Instr where
  | nop
  | sig
  | chunk
  | walk
  | crc
  | unfilter
  | deinterlace
  | reconstruct
  | filterNone
  | filterSub
  | filterUp
  | filterAverage
  | filterPaeth
  deriving DecidableEq, Repr

/-- An encoded instruction, by format: `CMD32`, a 32-bit word written to CMD (R80), or `FILTER8`, the first byte of a
filtered scanline (R84). -/
inductive Code where
  | cmd32 (w : Word)
  | filter8 (b : Byte)
  deriving DecidableEq, Repr

end Sys2Proof
end

