-- ==== Sys2Proof/Decode.lean ====
section
/-! DEFINITION. The decoder of the two formats, total and rejecting by name, and after it the encoder
(spec/30_encoding.md R80, R81, R83, R84). -/

namespace Sys2Proof

/-- What a code stands for: an instruction, or an illegal code by the name of its format (R83, R84). -/
inductive Decoded where
  | instr (i : Instr)
  /-- Bits 31:4 are not all zero or OP is in 0x8 .. 0xF (R83). -/
  | illegalCommand (w : Word)
  /-- The filter-type byte is in 0x05 .. 0xFF (R84). -/
  | illegalFilter (b : Byte)
  deriving DecidableEq, Repr

/-- Field OP, bits 3:0 of a command word (R80). -/
def opField (w : Word) : BitVec 4 := w.extractLsb' 0 4

/-- Field MBZ, bits 31:4 of a command word (R80). -/
def mbzField (w : Word) : BitVec 28 := w.extractLsb' 4 28

/-- R81, R83: "A word selects a command exactly when bits 31:4 are 0 and OP has one of these values". -/
def decodeCommand (w : Word) : Decoded :=
  if mbzField w = 0#28 then
    match (opField w).toNat with
    | 0 => .instr .nop
    | 1 => .instr .sig
    | 2 => .instr .chunk
    | 3 => .instr .walk
    | 4 => .instr .crc
    | 5 => .instr .unfilter
    | 6 => .instr .deinterlace
    | 7 => .instr .reconstruct
    | _ => .illegalCommand w
  else .illegalCommand w

/-- R84: the full byte is matched. -/
def decodeFilter (b : Byte) : Decoded :=
  match b.toNat with
  | 0 => .instr .filterNone
  | 1 => .instr .filterSub
  | 2 => .instr .filterUp
  | 3 => .instr .filterAverage
  | 4 => .instr .filterPaeth
  | _ => .illegalFilter b

/-- The decoder: the format is known from where the code is read (CMD, or the first byte of a scanline), never from its
bits (R89). -/
def decode (c : Code) : Decoded :=
  match c with
  | .cmd32 w => decodeCommand w
  | .filter8 b => decodeFilter b

/-- The encoder, from the tables of R81 and R84. -/
def encode (i : Instr) : Code :=
  match i with
  | .nop => .cmd32 0x00000000#32
  | .sig => .cmd32 0x00000001#32
  | .chunk => .cmd32 0x00000002#32
  | .walk => .cmd32 0x00000003#32
  | .crc => .cmd32 0x00000004#32
  | .unfilter => .cmd32 0x00000005#32
  | .deinterlace => .cmd32 0x00000006#32
  | .reconstruct => .cmd32 0x00000007#32
  | .filterNone => .filter8 0x00#8
  | .filterSub => .filter8 0x01#8
  | .filterUp => .filter8 0x02#8
  | .filterAverage => .filter8 0x03#8
  | .filterPaeth => .filter8 0x04#8

/-- The code that `nbits` bits of the opcode table's numbering stand for: a row of 8 bits is a FILTER8 byte, a row of 32
bits a CMD32 word. A command word reaches the block as one 32-bit register write, so no byte order enters (R63). -/
def tableCode (nbits w : Nat) : Code :=
  if nbits ≤ 8 then .filter8 (BitVec.ofNat 8 w) else .cmd32 (BitVec.ofNat 32 w)

/-- The instruction the decoder reads from a table row's bits; none where it refuses. -/
def decodeTableWord (nbits w : Nat) : Option Instr :=
  match decode (tableCode nbits w) with
  | .instr i => some i
  | .illegalCommand _ => none
  | .illegalFilter _ => none

end Sys2Proof
end

