-- ==== Sys2Proof/Machine/State.lean ====
section
/-! DEFINITION. The state of the block and its surroundings as plain data (spec/10_state.md), the reasons a step can stop,
and the state after reset (spec/70_reset_and_hazards.md R230). -/

namespace Sys2Proof.Machine

open Sys2Proof

/-- The result codes of spec/30_encoding.md R90. A code 0x0C .. 0xFF is never produced, so it has no constructor. -/
inductive ResultCode where
  | ok
  | invalidFormat
  | bufferOverflow
  | truncatedStream
  | outOfBounds
  | crcMismatch
  | ihdrNotFirst
  | unsupportedFilter
  | configError
  | inputShort
  | outputShort
  | illegalCommand
  deriving DecidableEq, Repr

/-- What `raise CODE(i0, i1, i2)` carries (spec/00_scope.md R9, spec/60_exceptions.md R203). -/
structure Error where
  code : ResultCode
  info0 : Word
  info1 : Word
  info2 : Word
  deriving DecidableEq, Repr

/-- The faults the spec names. -/
inductive Fault where
  /-- `reg_access_fault(offset, width)` (spec/20_memory.md R62): raised by a host register access that is not 32 bits wide
  or not at a multiple of 4. It is handed to the host in `State.response` and the machine goes on with no register
  changed, as the spec says; no step ends in it. Safe (log 7). -/
  | regAccessFault (offset : Nat) (width : Nat)
  deriving DecidableEq, Repr

/-- Why a step has no next state. -/
inductive Refusal where
  /-- Raised by `exec` for an instruction with no meaning yet. Safe. No arm raises it. -/
  | notModelled (mnemonic : String)
  /-- Raised by a command that reads or writes an address that is not `mem_backed` (spec/20_memory.md R69: "A model refuses
  such a command"), and by a host access to one, on which the spec is silent (DESIGN CHOICE, log 22). Safe. -/
  | unbackedAddress (addr : Nat)
  /-- Raised by a command that reads or writes a byte the platform answers with an error (R69, spec/93_implementation_defined.md
  U4; log 23), and by a host access to one, on which the spec is silent (DESIGN CHOICE, log 22). Safe. -/
  | accessError (addr : Nat)
  /-- Raised by a command whose byte access the platform routes to the register window (spec/20_memory.md R61: "has no
  defined outcome"). Safe. -/
  | registerWindow (addr : Nat)
  /-- Raised by a host memory access to the SRC range (writes) or the DST range (reads, writes) while BUSY = 1
  (spec/70_reset_and_hazards.md R240: "A model refuses a host memory step into these ranges"). Safe. -/
  | hostHazard (addr : Nat)
  /-- Raised by a filter type when no reconstruction command is in its row loop: the spec gives the filter-type byte no
  effect anywhere else (spec/30_encoding.md R84). No step reaches it from a state that meets the invariant. Safe (log 17). -/
  | noScanline
  deriving DecidableEq, Repr

/-- Engine state (spec/10_state.md R48): `BUSY(w)` exactly when STATUS.BUSY = 1. -/
inductive Engine where
  | idle
  | busy (w : Word)
  deriving DecidableEq, Repr

/-- The registers of the map of spec/10_state.md R22, by name. -/
inductive Reg where
  | id | ctrl | cmd | status
  | srcAddr | srcLen | dstAddr | dstLen | cursor
  | imgWidth | imgHeight | imgFmt | bpp | rowBytes
  | chkLen | chkType | chkFlags | chkDataOff | chkCrcRx | chkCrcCalc | chkCount
  | errInfo0 | errInfo1 | errInfo2 | outLen
  deriving DecidableEq, Repr

/-- How much of a command one engine turn runs (log 5): all of it (spec/20_memory.md R73), or for UNFILTER and RECONSTRUCT
the checks first and then one scanline a turn. -/
inductive Grain where
  | command
  | scanline
  deriving DecidableEq, Repr

/-- What happens to the block from outside, and whose turn it is (log 1). A register offset is below 0x80 (R22). -/
inductive Event where
  /-- The host reads a register: offset in the window, width in bits (R62). -/
  | regRead (offset : BitVec 7) (width : Nat)
  | regWrite (offset : BitVec 7) (width : Nat) (value : Word)
  /-- The host reads a byte of system memory. -/
  | memRead (addr : Word)
  /-- The host writes a byte of system memory, complete at once. -/
  | memWrite (addr : Word) (value : Byte)
  /-- The host writes a byte into its write buffer: not yet visible to the engine (R242). -/
  | memPost (addr : Word) (value : Byte)
  /-- The oldest posted write completes. -/
  | drain
  /-- From now on the platform answers an access to a byte of these regions, and of no other, with an error (R69). -/
  | memErrors (rs : List Region)
  /-- The engine takes a turn. -/
  | engine (g : Grain)
  /-- `rst` is asserted (R230). -/
  | assertReset
  /-- `rst` is released. -/
  | releaseReset
  deriving DecidableEq, Repr

/-- What the host's last access was answered. -/
inductive Response where
  | nothing
  | done
  | word (v : Word)
  | byte (b : Byte)
  | busError (f : Fault)
  deriving DecidableEq, Repr

/-- One entry of `images()` (spec/41_scanline_filter.md R154): `pass` is none for a baseline image (pass_id 0xFFFFFFFF). -/
structure Image where
  pass : Option Nat
  width : Nat
  height : Nat
  deriving DecidableEq, Repr

/-- The counters of a reconstruction loop (spec/10_state.md R50): the images still to do, the row `j` in the first of them,
the offsets `in` and `out`, and how the command ends: `need_out`, and whether rows are scattered (R174). -/
structure Scan where
  images : List Image
  row : Nat
  inOff : Nat
  outOff : Nat
  needOut : Nat
  scatter : Bool
  deriving DecidableEq, Repr

/-- The engine's hidden state (R49, R50): never readable, none of it survives a command. -/
structure Scratch where
  crcAcc : Word
  pos : Nat
  prior : List Byte
  cur : List Byte
  scan : Option Scan
  deriving DecidableEq, Repr

/-- Hidden state between commands: unspecified and never observable (R49, R50); DESIGN CHOICE (log 6). -/
def Scratch.empty : Scratch := ⟨0#32, 0, [], [], none⟩

/-- System memory: (address, byte) pairs in the canonical form of `Memory.wf`. -/
abbrev Memory := List Host.Cell

/-- The whole machine: the registers of spec/10_state.md R22, the engine, system memory, the host's side of it. -/
structure State where
  -- registers (R22 to R43)
  ctrl : Word
  cmd : Word
  done : Bool
  rejected : Bool
  code : ResultCode
  srcAddr : Word
  srcLen : Word
  dstAddr : Word
  dstLen : Word
  cursor : Word
  imgWidth : Word
  imgHeight : Word
  imgFmt : Word
  chkLen : Word
  chkType : Word
  chkFlags : Word
  chkDataOff : Word
  chkCrcRx : Word
  chkCrcCalc : Word
  chkCount : Word
  errInfo0 : Word
  errInfo1 : Word
  errInfo2 : Word
  outLen : Word
  -- engine (R48 to R50)
  engine : Engine
  scratch : Scratch
  -- system memory and the host's posted writes, oldest first (R60, R242)
  mem : Memory
  hostBuf : List Host.Cell
  -- where the platform answers an access with an error (R69, log 23)
  memErrors : List Region
  -- inputs and the answer to the host
  rst : Bool
  inputs : List Event
  response : Response
  -- parameters and the counter of free values
  params : Params
  draws : Nat
  deriving DecidableEq, Repr

/-- Right after reset (spec/70_reset_and_hazards.md R230): registers as the table there, engine IDLE, memory with nothing
listed. The fields the spec gives no value are named in log 1 to log 7, log 10 and log 23. -/
def State.reset : State where
  ctrl := 0x00000005#32
  cmd := 0#32
  done := false
  rejected := false
  code := .ok
  srcAddr := 0#32
  srcLen := 0#32
  dstAddr := 0#32
  dstLen := 0#32
  cursor := 0#32
  imgWidth := 0#32
  imgHeight := 0#32
  imgFmt := 0#32
  chkLen := 0#32
  chkType := 0#32
  chkFlags := 0#32
  chkDataOff := 0#32
  chkCrcRx := 0#32
  chkCrcCalc := 0#32
  chkCount := 0#32
  errInfo0 := 0#32
  errInfo1 := 0#32
  errInfo2 := 0#32
  outLen := 0#32
  engine := .idle
  scratch := Scratch.empty
  mem := []
  hostBuf := []
  memErrors := []
  rst := false
  inputs := []
  response := .nothing
  params := Config.resetParams
  draws := 0

end Sys2Proof.Machine
end

