-- ==== Sys2Proof/Machine/Ops.lean ====
section
/-! DEFINITION. The shared operations: system memory, which addresses the engine may reach, how a piece of a command's
pseudocode ends (`Run`), command acceptance, completion with and without an error, and the draw of unspecified bytes. -/

namespace Sys2Proof.Machine

open Sys2Proof

/-! ### System memory (spec/20_memory.md R60) -/

/-- What an address nothing has written reads as: 0x00 (DESIGN CHOICE, unsafe, log 3). -/
def Memory.unlisted : Byte := 0#8

/-- One byte of memory. -/
def Memory.read (m : Memory) (a : Nat) : Byte :=
  match m with
  | [] => Memory.unlisted
  | (c, v) :: rest => if a = c then v else Memory.read rest a

/-- Store one byte, keeping the canonical form of `Memory.wf`. -/
def Memory.write (m : Memory) (a : Nat) (b : Byte) : Memory :=
  match m with
  | [] => if b = Memory.unlisted then [] else [(a, b)]
  | (c, v) :: rest =>
    if a < c then (if b = Memory.unlisted then (c, v) :: rest else (a, b) :: (c, v) :: rest)
    else if a = c then (if b = Memory.unlisted then rest else (a, b) :: rest)
    else (c, v) :: Memory.write rest a b

/-- Store a list of cells in order. -/
def Memory.writeAll (m : Memory) (cells : List Host.Cell) : Memory :=
  match cells with
  | [] => m
  | (a, b) :: rest => Memory.writeAll (Memory.write m a b) rest

/-- Addresses strictly rising from `lo` and below 2^32, no cell equal to what an unlisted address reads as. -/
def Memory.wfFrom (lo : Nat) (m : Memory) : Bool :=
  match m with
  | [] => true
  | (a, b) :: rest =>
    decide (lo ≤ a) && decide (a < 0x100000000) && decide (b ≠ Memory.unlisted) && Memory.wfFrom (a + 1) rest

/-- The canonical form of memory. -/
def Memory.wf (m : Memory) : Bool := Memory.wfFrom 0 m

/-! ### Which addresses an access may reach -/

/-- `a` lies in the register window `REG_BASE .. REG_BASE+0x7F` (R61). -/
def inRegWindow (p : Params) (a : Nat) : Bool :=
  decide (p.regBase.toNat ≤ a) && decide (a < p.regBase.toNat + 0x80)

/-- Some region of the list holds address `a`. -/
def inRegions (rs : List Region) (a : Nat) : Bool :=
  rs.any fun r => decide (r.base ≤ a) && decide (a < r.base + r.size)

/-- `mem_backed(a)` (spec/00_scope.md R7). -/
def memBacked (p : Params) (a : Nat) : Bool := inRegions p.backed a

/-- Why there is no memory byte at address `a`, if there is none: the platform routes it to the registers (R61,
spec/93_implementation_defined.md U16), or it is not backed (R69). -/
def absent (p : Params) (a : Nat) : Option Refusal :=
  if p.regWindowRouted && inRegWindow p a then some (.registerWindow a)
  else if decide (a < 0x100000000) && memBacked p a then none
  else some (.unbackedAddress a)

/-- There is a memory byte at address `a`. -/
def State.present (s : State) (a : Nat) : Bool := (absent s.params a).isNone

/-- Why an access to address `a` has no specified outcome, if it has none: no memory byte is there, or the platform answers
the access with an error, `errors` being the regions where it does (R69, spec/93_implementation_defined.md U4; log 23). -/
def blocked (p : Params) (errors : List Region) (a : Nat) : Option Refusal :=
  match absent p a with
  | some r => some r
  | none => if inRegions errors a then some (.accessError a) else none

/-- The first of `n` addresses from `a` on whose access has no specified outcome. -/
def firstBlocked (p : Params) (errors : List Region) (a : Nat) (n : Nat) : Option Refusal :=
  match n with
  | 0 => none
  | k + 1 =>
    match blocked p errors a with
    | some r => some r
    | none => firstBlocked p errors (a + 1) k

/-- An address a program may use: one access to it has a specified outcome. -/
def State.reachable (s : State) (a : Nat) : Bool := (blocked s.params s.memErrors a).isNone

/-! ### The engine's reads -/

/-- A host write to `a` is posted and not yet visible (spec/70_reset_and_hazards.md R242). -/
def State.posted (s : State) (a : Nat) : Bool := s.hostBuf.any fun c => decide (c.1 = a)

/-- The byte the engine reads at `a`: memory (R67), or any value while a host write to it is posted (R242: "a model then
gives each SRC byte not yet visible any value", log 10). -/
def State.engineByte (s : State) (a : Nat) : Byte :=
  if s.posted a then Config.freeByte s.draws a else Memory.read s.mem a

/-- `MemRead(a, n)` (spec/00_scope.md R9), lowest address first. -/
def State.engineBytes (s : State) (a n : Nat) : List Byte :=
  (List.range n).map fun i => s.engineByte (a + i)

/-! ### How a piece of pseudocode ends -/

/-- A piece of a command's pseudocode goes on, ends in `raise` (with the register writes before it standing, R203), or has
no meaning (R69). -/
inductive Run where
  | ok (s : State)
  | raised (e : Error) (s : State)
  | refused (r : Refusal)

/-- Sequence two pieces: "no later step of that command runs" after a `raise` (R9). -/
def Run.andThen (r : Run) (k : State → Run) : Run :=
  match r with
  | .ok s => k s
  | .raised e s => .raised e s
  | .refused f => .refused f

/-- `MemRead` with the refusal of R69, handing the bytes on. -/
def memRead (s : State) (a n : Nat) (k : List Byte → Run) : Run :=
  match firstBlocked s.params s.memErrors a n with
  | some r => .refused r
  | none => k (s.engineBytes a n)

/-- `MemWrite`: store cells in order, refusing at the first address that cannot be reached (R69). Host writes still posted
to stored bytes give way when the command completes (`State.completeOutput`, R72). -/
def storeCells (cells : List Host.Cell) (s : State) : Run :=
  match cells with
  | [] => .ok s
  | (a, b) :: rest =>
    match blocked s.params s.memErrors a with
    | some r => .refused r
    | none => storeCells rest { s with mem := Memory.write s.mem a b }

/-- The cells of a byte string stored from address `a` on (spec/20_memory.md R65). -/
def cellsAt (a : Nat) (bs : List Byte) : List Host.Cell :=
  match bs with
  | [] => []
  | b :: rest => (a, b) :: cellsAt (a + 1) rest

/-! ### The command life cycle (spec/60_exceptions.md) -/

/-- R200: acceptance of the word `w`. The free values of this command get a draw number of their own. -/
def State.accept (s : State) (w : Word) : State :=
  { s with
    cmd := w, done := false, code := .ok
    errInfo0 := 0#32, errInfo1 := 0#32, errInfo2 := 0#32, outLen := 0#32
    engine := .busy w, scratch := Scratch.empty, draws := s.draws + 1 }

/-- R202: `complete()`. The hidden state is discarded (R50). -/
def State.complete (s : State) : State :=
  { s with code := .ok, engine := .idle, done := true, scratch := Scratch.empty }

/-- The posted host writes to addresses outside the `n` bytes from `base` on. -/
def postedOutside (base n : Nat) (buf : List Host.Cell) : List Host.Cell :=
  buf.filter fun c => decide (¬ (base ≤ c.1 ∧ c.1 < base + n))

/-- R203: `raise CODE(i0, i1, i2)`, the block's taking of an exception. -/
def State.raise (s : State) (e : Error) : State :=
  { s with
    errInfo0 := e.info0, errInfo1 := e.info1, errInfo2 := e.info2
    code := e.code, engine := .idle, done := true, scratch := Scratch.empty }

/-- R212, spec/10_state.md R26: the host's acknowledgement, a write of `v` to STATUS. It affects only the two W1C bits. -/
def State.ack (s : State) (v : Word) : State :=
  { s with done := s.done && !v.getLsbD 1, rejected := s.rejected && !v.getLsbD 3 }

/-- How a command's pseudocode becomes a step: R202, R203, or the refusal of R69. -/
def Run.finish (r : Run) : Host.Outcome State Fault Refusal :=
  match r with
  | .ok s => .next s.complete
  | .raised e s => .next (s.raise e)
  | .refused f => .refused f

/-- R201: an illegal word "ends the command at once with `raise ILLEGAL_COMMAND(w, 0, 0)`". -/
def State.illegalWord (s : State) (w : Word) : State := s.raise ⟨.illegalCommand, w, 0#32, 0#32⟩

/-! ### Unspecified bytes -/

/-- The addresses of the DST range that hold a memory byte (spec/00_scope.md glossary, R60). -/
def State.dstAddrs (s : State) : List Nat :=
  ((List.range s.dstLen.toNat).map fun i => s.dstAddr.toNat + i).filter s.present

/-- Every byte of the DST range becomes any value (spec/60_exceptions.md R207, spec/70_reset_and_hazards.md R231; log 8,
log 9), to the host too: a host write still posted there gives way (DEDUCED, log 24). -/
def State.drawDst (s : State) : State :=
  { s with
    mem := Memory.writeAll s.mem (s.dstAddrs.map fun a => (a, Config.freeByte (s.draws + 1) a))
    hostBuf := postedOutside s.dstAddr.toNat s.dstLen.toNat s.hostBuf
    draws := s.draws + 1 }

/-! ### Reset (spec/70_reset_and_hazards.md) -/

/-- R230, R232: every register takes its reset value and the engine is IDLE; system memory is not touched. -/
def State.resetRegisters (s : State) : State :=
  { State.reset with
    mem := s.mem, hostBuf := s.hostBuf, memErrors := s.memErrors, rst := s.rst, inputs := s.inputs, response := s.response
    params := s.params, draws := s.draws }

/-- `rst` is asserted. R231: a command in progress is abandoned and every byte of the DST range is unspecified. -/
def State.assertReset (s : State) : State :=
  match s.engine with
  | .idle => { s.resetRegisters with rst := true }
  | .busy _ => { s.drawDst.resetRegisters with rst := true }

/-- `rst` is released: the registers keep their reset values. -/
def State.releaseReset (s : State) : State := { s with rst := false }

end Sys2Proof.Machine
end

