-- ==== Sys2Proof/Machine/Operands.lean ====
section
/-! DEFINITION. The operand forms: big-endian fields (spec/20_memory.md R66), the IMG_FMT fields (spec/10_state.md R31), pixel
size and row length (spec/41_scanline_filter.md R140, R141), the Adam7 geometry (spec/42_adam7_layout.md R170 to R174),
segmentation (R154), the configuration and length checks (R145, R155) and the SRC range check (spec/40_chunk_crc.md R104). -/

namespace Sys2Proof.Machine

open Sys2Proof

/-! ### Numbers and stream fields (spec/00_scope.md R9) -/

/-- `be32`: the value of a byte string, first byte most significant. -/
def beNat (bs : List Byte) : Nat := bs.foldl (fun n b => n * 256 + b.toNat) 0

/-- `be32(s)` of a 4-byte string as a register value (R66, R41). -/
def be32 (bs : List Byte) : Word := BitVec.ofNat 32 (beNat bs)

/-- `sat32(v)` (R9). -/
def sat32 (v : Nat) : Word := BitVec.ofNat 32 (min v 0xFFFFFFFF)

/-- A register value that a rule keeps below 2^32. -/
def word (v : Nat) : Word := BitVec.ofNat 32 v

/-- `ceil(a / b)` for `b > 0` (R8). -/
def ceilDiv (a b : Nat) : Nat := (a + b - 1) / b

/-! ### IMG_FMT (spec/10_state.md R31) -/

def bitDepth (fmt : Word) : Nat := (fmt.extractLsb' 0 8).toNat
def colorType (fmt : Word) : Nat := (fmt.extractLsb' 8 8).toNat
def interlace (fmt : Word) : Nat := (fmt.extractLsb' 16 8).toNat

/-- `fmt(d, c, i)` (spec/30_encoding.md R93). -/
def imgFmtOf (d c i : Nat) : Word := word (d + c * 256 + i * 65536)

/-- `ct in {0,2,3,4,6}` (R145 check 1). -/
def colorTypeLegal (ct : Nat) : Bool := ct == 0 || ct == 2 || ct == 3 || ct == 4 || ct == 6

/-- `d in {1,2,4,8,16}` (R145 check 2). -/
def bitDepthLegal (d : Nat) : Bool := d == 1 || d == 2 || d == 4 || d == 8 || d == 16

/-- `channels(ct)` (R140, spec/90_conflicts.md C1: 4 for colour type 6); 0 where the table has no entry, which no rule
reads. -/
def channels (ct : Nat) : Nat :=
  match ct with
  | 0 => 1
  | 2 => 3
  | 3 => 1
  | 4 => 2
  | 6 => 4
  | _ => 0

/-- Bytes per pixel (R140). -/
def bppOf (fmt : Word) : Nat := channels (colorType fmt) * ceilDiv (bitDepth fmt) 8

/-- `row_bytes(w)` (R141). -/
def rowBytes (fmt : Word) (w : Nat) : Nat := ceilDiv (w * channels (colorType fmt) * bitDepth fmt) 8

/-- BPP as the register reads (spec/10_state.md R32). -/
def bppRead (fmt : Word) : Word :=
  if colorTypeLegal (colorType fmt) && bitDepthLegal (bitDepth fmt) then word (bppOf fmt) else 0#32

/-- ROW_BYTES as the register reads (spec/10_state.md R33). -/
def rowBytesRead (fmt width : Word) : Word :=
  if bppRead fmt = 0#32 then 0#32 else sat32 (rowBytes fmt width.toNat)

/-! ### Adam7 (spec/42_adam7_layout.md) -/

/-- One row of the pass table: `(start_x, start_y, step_x, step_y)`. -/
structure PassRow where
  startX : Nat
  startY : Nat
  stepX : Nat
  stepY : Nat
  deriving DecidableEq, Repr

/-- The pass table (R170); passes are numbered 0 to 6. -/
def passRow (p : Nat) : PassRow :=
  match p with
  | 0 => ⟨0, 0, 8, 8⟩
  | 1 => ⟨4, 0, 8, 8⟩
  | 2 => ⟨0, 4, 4, 8⟩
  | 3 => ⟨2, 0, 4, 4⟩
  | 4 => ⟨0, 2, 2, 4⟩
  | 5 => ⟨1, 0, 2, 2⟩
  | _ => ⟨0, 1, 1, 2⟩

/-- `count(n, s, d)` (R171). -/
def passCount (n s d : Nat) : Nat := if n ≤ s then 0 else ceilDiv (n - s) d

def passWidth (w p : Nat) : Nat := passCount w (passRow p).startX (passRow p).stepX
def passHeight (h p : Nat) : Nat := passCount h (passRow p).startY (passRow p).stepY

/-- `images()` for a width, a height and an interlace method (R154): the baseline image, or the non-empty passes in order
(R172, R173). -/
def imagesOf (il w h : Nat) : List Image :=
  if il = 0 then [⟨none, w, h⟩]
  else ((List.range 7).map fun p => Image.mk (some p) (passWidth w p) (passHeight h p)).filter
    fun g => decide (0 < g.width) && decide (0 < g.height)

/-- `images()` of the current registers. -/
def State.images (s : State) : List Image :=
  imagesOf (interlace s.imgFmt) s.imgWidth.toNat s.imgHeight.toNat

/-- `pass_id` (R144): the pass number, or 0xFFFFFFFF for a baseline image. -/
def Image.passId (g : Image) : Word :=
  match g.pass with
  | none => 0xFFFFFFFF#32
  | some p => word p

/-- `need_in` (R154). -/
def State.needIn (s : State) : Nat :=
  (s.images.map fun g => g.height * (1 + rowBytes s.imgFmt g.width)).sum

/-- `need_unf` (R154). -/
def State.needUnf (s : State) : Nat :=
  (s.images.map fun g => g.height * rowBytes s.imgFmt g.width).sum

/-- `W * H * bpp` (R181). -/
def State.gridBytes (s : State) : Nat := s.imgWidth.toNat * s.imgHeight.toNat * bppOf s.imgFmt

/-- `need_out` of each reconstruction command (R160, R181, R185). -/
def State.needOut (s : State) (i : Instr) : Nat :=
  if i = .deinterlace ∨ (i = .reconstruct ∧ interlace s.imgFmt ≠ 0) then s.gridBytes else s.needUnf

/-- The offset in the grid of byte `k` of pixel `i` of row `j` of pass `p` (R174). -/
def gridOffset (w bpp p j i : Nat) : Nat :=
  (((passRow p).startY + j * (passRow p).stepY) * w + (passRow p).startX + i * (passRow p).stepX) * bpp

/-- The cells `scatter(p, j, row)` writes (R174), `base` being DST_ADDR. -/
def scatterCells (base w bpp p j : Nat) (row : List Byte) : List Host.Cell :=
  (List.range (passWidth w p)).flatMap fun i =>
    cellsAt (base + gridOffset w bpp p j i) ((row.drop (i * bpp)).take bpp)

/-! ### Checks made before anything is read or written -/

/-- `x[SRC_ADDR] + x[SRC_LEN] <= 2^32` (spec/40_chunk_crc.md R104). -/
def State.srcRangeOk (s : State) : Bool := decide (s.srcAddr.toNat + s.srcLen.toNat ≤ 0x100000000)

def State.dstRangeOk (s : State) : Bool := decide (s.dstAddr.toNat + s.dstLen.toNat ≤ 0x100000000)

/-- The SRC and DST ranges have a byte in common (R145 check 10). -/
def State.rangesOverlap (s : State) : Bool :=
  decide (0 < s.srcLen.toNat) && decide (0 < s.dstLen.toNat) &&
    decide (s.srcAddr.toNat < s.dstAddr.toNat + s.dstLen.toNat) &&
    decide (s.dstAddr.toNat < s.srcAddr.toNat + s.srcLen.toNat)

/-- `config_check(cmd)` (R145): the number of the first check that fails. -/
def State.configCheck (s : State) (i : Instr) : Option Nat :=
  let ct := colorType s.imgFmt
  let d := bitDepth s.imgFmt
  let il := interlace s.imgFmt
  if !colorTypeLegal ct then some 1
  else if !bitDepthLegal d then some 2
  else if d < 8 ∧ 1 < channels ct then some 3
  else if il ≠ 0 ∧ il ≠ 1 then some 4
  else if s.imgWidth = 0#32 ∨ s.imgHeight = 0#32 then some 5
  else if (i = .unfilter ∨ i = .reconstruct) ∧ s.params.maxRowBytes < rowBytes s.imgFmt s.imgWidth.toNat then some 6
  else if (i = .deinterlace ∨ (i = .reconstruct ∧ il = 1)) ∧ d < 8 then some 7
  else if i = .deinterlace ∧ il ≠ 1 then some 8
  else if !s.srcRangeOk || !s.dstRangeOk then some 9
  else if s.rangesOverlap then some 10
  else none

/-- CONFIG_ERROR with a check number (R145, R104). -/
def configError (n : Nat) : Error := ⟨.configError, word n, 0#32, 0#32⟩

/-- The bytes the command needs of the SRC range (R155, R181). -/
def State.needSrc (s : State) (i : Instr) : Nat := if i = .deinterlace then s.needUnf else s.needIn

/-- `config_check` and the length checks of R155 and R181, in order. -/
def State.checkReconstruction (s : State) (i : Instr) : Option Error :=
  match s.configCheck i with
  | some n => some (configError n)
  | none =>
    if s.srcLen.toNat < s.needSrc i then some ⟨.inputShort, sat32 (s.needSrc i), s.srcLen, 0#32⟩
    else if s.dstLen.toNat < s.needOut i then some ⟨.outputShort, sat32 (s.needOut i), s.dstLen, 0#32⟩
    else none

/-- `src_range_check()` (R104). -/
def srcRangeCheck (s : State) : Run := if s.srcRangeOk then .ok s else .raised (configError 9) s

end Sys2Proof.Machine
end

