-- ==== Sys2Proof/Machine/Flags.lean ====
section
/-! DEFINITION. The flag computations: STATUS and its bits (spec/10_state.md R26), CTRL's fields (R24), the chunk case-bit
flags (R36, spec/40_chunk_crc.md R103) and the interrupt output (spec/60_exceptions.md R210). -/

namespace Sys2Proof.Machine

open Sys2Proof

/-- The code's number (spec/30_encoding.md R90). -/
def ResultCode.byte (c : ResultCode) : Byte :=
  match c with
  | .ok => 0x00#8
  | .invalidFormat => 0x01#8
  | .bufferOverflow => 0x02#8
  | .truncatedStream => 0x03#8
  | .outOfBounds => 0x04#8
  | .crcMismatch => 0x05#8
  | .ihdrNotFirst => 0x06#8
  | .unsupportedFilter => 0x07#8
  | .configError => 0x08#8
  | .inputShort => 0x09#8
  | .outputShort => 0x0A#8
  | .illegalCommand => 0x0B#8

/-- STATUS.BUSY (R26, R48). -/
def State.isBusy (s : State) : Bool :=
  match s.engine with
  | .idle => false
  | .busy _ => true

/-- STATUS.ERROR: "equals 1 exactly when CODE is not 0". -/
def State.isError (s : State) : Bool := decide (s.code.byte ≠ 0#8)

def bit (b : Bool) : Nat := if b then 1 else 0

/-- STATUS as a word: CODE in bits 15:8, REJECTED 3, ERROR 2, DONE 1, BUSY 0, the others 0 (R26). -/
def State.statusWord (s : State) : Word :=
  word (s.code.byte.toNat * 256 + bit s.rejected * 8 + bit s.isError * 4 + bit s.done * 2 + bit s.isBusy)

/-- CTRL.CRC_CHECK_EN, bit 0 (R24). -/
def State.crcCheckEn (s : State) : Bool := s.ctrl.getLsbD 0

/-- CTRL.IRQ_EN, bit 1. -/
def State.irqEn (s : State) : Bool := s.ctrl.getLsbD 1

/-- CTRL.IHDR_FIRST_EN, bit 2. -/
def State.ihdrFirstEn (s : State) : Bool := s.ctrl.getLsbD 2

/-- CTRL's writable bits 2:0; bits 31:3 "reads 0; writes ignored" (R24). -/
def ctrlMask : Word := 0x00000007#32

/-- IMG_FMT's writable bits 23:0 (R31). -/
def imgFmtMask : Word := 0x00FFFFFF#32

/-- The `irq` output, a level (R210). -/
def State.irq (s : State) : Bool := s.irqEn && s.done

/-- `flags(t)` (R103): the raw bit 5 of each tag byte. -/
def tagFlags (t : List Byte) : Word :=
  word (bit ((t.getD 0 0#8).getLsbD 5) + 2 * bit ((t.getD 1 0#8).getLsbD 5) +
    4 * bit ((t.getD 2 0#8).getLsbD 5) + 8 * bit ((t.getD 3 0#8).getLsbD 5))

/-- `ascii(b)` (R102). -/
def ascii (b : Byte) : Bool := decide (b.toNat < 0x80)

end Sys2Proof.Machine
end

