-- ==== Sys2Proof/Machine/Filter.lean ====
section
/-! DEFINITION. The scanline filter reconstructor (spec/41_scanline_filter.md): the predictors, one scanline, the row loop
the reconstruction commands share, the five filter types as the engine's per-scanline instructions, and UNFILTER. -/

namespace Sys2Proof.Machine

open Sys2Proof

/-! ### Predictors (R146 to R151), on exact integers (R142, spec/90_conflicts.md C3) -/

/-- A predictor of the left, up and upper-left neighbours `a`, `b`, `c` (R143). -/
abbrev Predictor := Nat → Nat → Nat → Nat

/-- R146: nothing is added. -/
def predNone : Predictor := fun _ _ _ => 0

/-- R147: the left neighbour. -/
def predSub : Predictor := fun a _ _ => a

/-- R148: the up neighbour. -/
def predUp : Predictor := fun _ b _ => b

/-- R149: `(a + b) div 2`, the sum not reduced before the halving. -/
def predAverage : Predictor := fun a b _ => (a + b) / 2

/-- R150: ties resolve toward `a`, then `b`. -/
def paeth : Predictor := fun a b c =>
  let p : Int := (a : Int) + (b : Int) - (c : Int)
  let pa := (p - (a : Int)).natAbs
  let pb := (p - (b : Int)).natAbs
  let pc := (p - (c : Int)).natAbs
  if pa ≤ pb ∧ pa ≤ pc then a else if pb ≤ pc then b else c

/-! ### One scanline (R143, R152) -/

/-- The byte `bpp` back from index `x`, 0 if there is none (R143). -/
def back (bs : List Byte) (bpp x : Nat) : Byte := if bpp ≤ x then bs.getD (x - bpp) 0#8 else 0#8

/-- R142: `(raw + pred) mod 256`. -/
def addPred (raw : Byte) (p : Nat) : Byte := BitVec.ofNat 8 (raw.toNat + p)

/-- The byte at index `x = cur.length` of a scanline, `cur` being the bytes already reconstructed (R143, R152). -/
def reconByte (pred : Predictor) (bpp : Nat) (prior cur : List Byte) (raw : Byte) : Byte :=
  let x := cur.length
  addPred raw (pred (back cur bpp x).toNat (prior.getD x 0#8).toNat (back prior bpp x).toNat)

/-- `unfilter_row` for a legal filter type (R152): the bytes `CUR[0 .. rb-1]`, in increasing `x`. -/
def reconRow (pred : Predictor) (bpp : Nat) (prior : List Byte) (cur raw : List Byte) : List Byte :=
  match raw with
  | [] => cur
  | r :: rest => reconRow pred bpp prior (cur ++ [reconByte pred bpp prior cur r]) rest

/-! ### The row loop of the reconstruction commands (R160, R181, R185) -/

/-- `PRIOR[0 .. rb-1] <- 0` (R153). -/
def zeroRow (n : Nat) : List Byte := List.replicate n 0#8

/-- PRIOR at the start of the image that comes next, if one does (R153). -/
def freshPrior (fmt : Word) (images : List Image) : List Byte :=
  match images with
  | [] => []
  | g :: _ => zeroRow (rowBytes fmt g.width)

/-- The loop counters at the first row of the first image. -/
def Scan.start (images : List Image) (needOut : Nat) (scatter : Bool) : Scan :=
  ⟨images, 0, 0, 0, needOut, scatter⟩

/-- The counters after a row that took `used` input bytes and gave `rb` bytes. -/
def Scan.next (sc : Scan) (used rb : Nat) : Scan :=
  match sc.images with
  | [] => sc
  | g :: rest =>
    if sc.row + 1 < g.height then
      { sc with row := sc.row + 1, inOff := sc.inOff + used, outOff := sc.outOff + rb }
    else { sc with images := rest, row := 0, inOff := sc.inOff + used, outOff := sc.outOff + rb }

/-- How many rows are left. -/
def Scan.rowsLeft (sc : Scan) : Nat := (sc.images.map fun g => g.height).sum - sc.row

/-- The engine holds loop counters `sc`. -/
def State.withScan (s : State) (sc : Scan) : State := { s with scratch := { s.scratch with scan := some sc } }

/-- After a row: CUR holds its bytes and the counters move on; PRIOR becomes the reconstructed row, or zeros at the start
of the next image or pass (R153). -/
def State.endRow (s : State) (sc : Scan) (used : Nat) (row : List Byte) : State :=
  let sc' := sc.next used row.length
  let prior := if sc'.row = 0 then freshPrior s.imgFmt sc'.images else row
  { s with scratch := { s.scratch with cur := row, prior := prior, scan := some sc' } }

/-- Where a row's bytes go: one after another (R160), or scattered (R174). -/
def rowCells (s : State) (sc : Scan) (g : Image) (row : List Byte) : List Host.Cell :=
  match sc.scatter, g.pass with
  | true, some p => scatterCells s.dstAddr.toNat s.imgWidth.toNat (bppOf s.imgFmt) p sc.row row
  | true, none => cellsAt (s.dstAddr.toNat + sc.outOff) row
  | false, _ => cellsAt (s.dstAddr.toNat + sc.outOff) row

/-- Write a row to the DST range and move on. -/
def putRow (s : State) (sc : Scan) (g : Image) (used : Nat) (row : List Byte) : Run :=
  (storeCells (rowCells s sc g row) s).andThen fun s' => .ok (s'.endRow sc used row)

/-- One iteration of the row loop with predictor `pred`, the filter-type byte standing at offset `in`: the raw bytes behind
it are read, reconstructed, written and carried forward. -/
def filterRow (pred : Predictor) (s : State) : Run :=
  match s.scratch.scan with
  | none => .refused .noScanline
  | some sc =>
    match sc.images with
    | [] => .refused .noScanline
    | g :: _ =>
      let rb := rowBytes s.imgFmt g.width
      memRead s (s.srcAddr.toNat + sc.inOff + 1) rb fun raw =>
        putRow s sc g (1 + rb) (reconRow pred (bppOf s.imgFmt) s.scratch.prior [] raw)

/-- R144: `raise UNSUPPORTED_FILTER(ft, j, pass_id)`. Every DST byte is then unspecified (spec/60_exceptions.md R207). -/
def unsupportedFilter (s : State) (sc : Scan) (g : Image) (ft : Byte) : Run :=
  .raised ⟨.unsupportedFilter, ft.setWidth 32, word sc.row, g.passId⟩ s.drawDst

/-- What the filter-type byte of the next scanline says (R144). -/
inductive RowHead where
  | filter (i : Instr)
  | stop (r : Run)

/-- Fetch and decode the filter-type byte of the next scanline. An illegal byte ends the command after the row's raw
bytes have been read (R160: they are read before `unfilter_row`). -/
def rowHead (s : State) : RowHead :=
  match s.scratch.scan with
  | none => .stop (.refused .noScanline)
  | some sc =>
    match sc.images with
    | [] => .stop (.refused .noScanline)
    | g :: _ =>
      let at0 := s.srcAddr.toNat + sc.inOff
      match firstBlocked s.params s.memErrors at0 1 with
      | some r => .stop (.refused r)
      | none =>
        match decodeFilter (s.engineByte at0) with
        | .instr i => .filter i
        | .illegalCommand _ => .stop (.refused .noScanline)
        | .illegalFilter ft =>
          .stop (memRead s (at0 + 1) (rowBytes s.imgFmt g.width) fun _ => unsupportedFilter s sc g ft)

/-- One scanline by filter type. -/
def filterNoneRow (s : State) : Run := filterRow predNone s
def filterSubRow (s : State) : Run := filterRow predSub s
def filterUpRow (s : State) : Run := filterRow predUp s
def filterAverageRow (s : State) : Run := filterRow predAverage s
def filterPaethRow (s : State) : Run := filterRow paeth s

/-- R144: dispatch on the filter type. A command word is no filter type and never comes from a filter-type byte. -/
def rowOf (i : Instr) (s : State) : Run :=
  match i with
  | .filterNone => filterNoneRow s
  | .filterSub => filterSubRow s
  | .filterUp => filterUpRow s
  | .filterAverage => filterAverageRow s
  | .filterPaeth => filterPaethRow s
  | .nop | .sig | .chunk | .walk | .crc | .unfilter | .deinterlace | .reconstruct => .refused .noScanline

/-- One iteration of the row loop. -/
def rowStep (s : State) : Run :=
  match rowHead s with
  | .filter i => rowOf i s
  | .stop r => r

/-- `n` iterations of the row loop. -/
def runRows (n : Nat) (s : State) : Run :=
  match n with
  | 0 => .ok s
  | k + 1 => (rowStep s).andThen fun s' => runRows k s'

/-- The number of rows left to do in `s`. -/
def State.rowsLeft (s : State) : Nat :=
  match s.scratch.scan with
  | none => 0
  | some sc => sc.rowsLeft

/-- The end of a reconstruction command that has written `n` bytes of output: `x[OUT_LEN] <- n`, `complete()`. Every write of
the command is then visible to every host read and to every later command (spec/20_memory.md R72,
spec/70_reset_and_hazards.md R243), so a host write still posted to an output byte has given way to it (DEDUCED, log 24). -/
def State.completeOutput (s : State) (n : Nat) : State :=
  ({ s with outLen := word n, hostBuf := postedOutside s.dstAddr.toNat n s.hostBuf } : State).complete

/-- After a row: with no image left the command ends, `x[OUT_LEN] <- need_out` then `complete()` (R160, R185), its output
visible to the host (R72). -/
def closeRows (s : State) : State :=
  match s.scratch.scan with
  | none => s
  | some sc =>
    match sc.images with
    | [] => s.completeOutput sc.needOut
    | _ :: _ => s

/-- How a part of the row loop becomes a step. -/
def Run.close (r : Run) : Host.Outcome State Fault Refusal :=
  match r with
  | .ok s => .next (closeRows s)
  | .raised e s => .next (s.raise e)
  | .refused f => .refused f

/-- The checks of a reconstruction command (R145, R155) and the entry into its row loop. -/
def startRows (i : Instr) (scatter : Bool) (s : State) : Run :=
  match s.checkReconstruction i with
  | some e => .raised e s
  | none =>
    .ok { s with scratch :=
      { s.scratch with prior := freshPrior s.imgFmt s.images, scan := some (Scan.start s.images (s.needOut i) scatter) } }

/-! ### The filter types as instructions: the next scanline of the command in progress -/

/-- R146. -/
def execFilterNone (s : State) : Host.Outcome State Fault Refusal := (filterNoneRow s).close

/-- R147. -/
def execFilterSub (s : State) : Host.Outcome State Fault Refusal := (filterSubRow s).close

/-- R148. -/
def execFilterUp (s : State) : Host.Outcome State Fault Refusal := (filterUpRow s).close

/-- R149. -/
def execFilterAverage (s : State) : Host.Outcome State Fault Refusal := (filterAverageRow s).close

/-- R151. -/
def execFilterPaeth (s : State) : Host.Outcome State Fault Refusal := (filterPaethRow s).close

/-! ### UNFILTER -/

/-- The checks of UNFILTER and the entry into its row loop. -/
def startUnfilter (s : State) : Run := startRows .unfilter false s

/-- R160, the whole command in one step (spec/20_memory.md R73). -/
def execUnfilter (s : State) : Host.Outcome State Fault Refusal :=
  ((startUnfilter s).andThen fun s1 => runRows s1.rowsLeft s1).close

end Sys2Proof.Machine
end

