-- ==== Sys2Proof/Machine/Adam7.lean ====
section
/-! DEFINITION. The Adam7 de-shuffler (spec/42_adam7_layout.md): DEINTERLACE and RECONSTRUCT. -/

namespace Sys2Proof.Machine

open Sys2Proof

/-! ### DEINTERLACE (R181) -/

/-- One iteration of DEINTERLACE's loop: a row of a pass image is read, with no filter-type byte, and scattered. It uses
no line buffer (R181). -/
def copyRow (s : State) : Run :=
  match s.scratch.scan with
  | none => .refused .noScanline
  | some sc =>
    match sc.images with
    | [] => .refused .noScanline
    | g :: _ =>
      let rb := g.width * bppOf s.imgFmt
      memRead s (s.srcAddr.toNat + sc.inOff) rb fun row =>
        (storeCells (rowCells s sc g row) s).andThen fun s' => .ok (s'.withScan (sc.next rb rb))

/-- `n` iterations. -/
def copyRows (n : Nat) (s : State) : Run :=
  match n with
  | 0 => .ok s
  | k + 1 => (copyRow s).andThen fun s' => copyRows k s'

/-- The checks of DEINTERLACE and the entry into its loop. -/
def startDeinterlace (s : State) : Run :=
  match s.checkReconstruction .deinterlace with
  | some e => .raised e s
  | none => .ok (s.withScan (Scan.start s.images (s.needOut .deinterlace) true))

/-- R181. -/
def execDeinterlace (s : State) : Host.Outcome State Fault Refusal :=
  ((startDeinterlace s).andThen fun s1 => copyRows s1.rowsLeft s1).close

/-! ### RECONSTRUCT (R185) -/

/-- The checks of RECONSTRUCT and the entry into its row loop; rows are scattered when INTERLACE = 1. -/
def startReconstruct (s : State) : Run := startRows .reconstruct (decide (interlace s.imgFmt ≠ 0)) s

/-- R185, the whole command in one step (spec/20_memory.md R73). -/
def execReconstruct (s : State) : Host.Outcome State Fault Refusal :=
  ((startReconstruct s).andThen fun s1 => runRows s1.rowsLeft s1).close

end Sys2Proof.Machine
end

