-- ==== Sys2Proof/Machine/Chunk.lean ====
section
/-! DEFINITION. The chunk CRC validator (spec/40_chunk_crc.md): the CRC-32 kernel, the cursor reads of spec/00_scope.md R10,
the signature and chunk steps, and the commands SIG, CHUNK, WALK and CRC. -/

namespace Sys2Proof.Machine

open Sys2Proof

/-! ### CRC-32 (R100) -/

/-- The reflected polynomial. -/
def crcPoly : Word := 0xEDB88320#32

/-- One of the eight shifts of a byte. -/
def crcShift (c : Word) : Word := if c.getLsbD 0 then (c >>> 1) ^^^ crcPoly else c >>> 1

/-- `n` shifts. -/
def crcShifts (n : Nat) (c : Word) : Word :=
  match n with
  | 0 => c
  | k + 1 => crcShifts k (crcShift c)

/-- The accumulator after one more byte. -/
def crcByte (c : Word) (b : Byte) : Word := crcShifts 8 (c ^^^ b.setWidth 32)

/-- The accumulator after a byte string. -/
def crcBytes (c : Word) (bs : List Byte) : Word := bs.foldl crcByte c

/-- Initial value and final XOR. -/
def crcOnes : Word := 0xFFFFFFFF#32

/-- `crc32(s)` (R100). -/
def crc32 (bs : List Byte) : Word := crcBytes crcOnes bs ^^^ crcOnes

/-! ### The local cursor (spec/00_scope.md R10) -/

/-- `remaining(cur) = max(0, x[SRC_LEN] - cur)`. -/
def State.remaining (s : State) : Nat := s.srcLen.toNat - s.scratch.pos

/-- `cur <- n`. -/
def State.withPos (s : State) (n : Nat) : State := { s with scratch := { s.scratch with pos := n } }

/-- The CRC accumulator holds `c` (spec/10_state.md R50). -/
def State.withCrcAcc (s : State) (c : Word) : State := { s with scratch := { s.scratch with crcAcc := c } }

/-- `Read(n)`. -/
def readSrc (n : Nat) (s : State) (k : List Byte → State → Run) : Run :=
  if s.remaining < n then .raised ⟨.outOfBounds, word n, word s.remaining, word s.scratch.pos⟩ s
  else memRead s (s.srcAddr.toNat + s.scratch.pos) n fun bs => k bs (s.withPos (s.scratch.pos + n))

/-! ### Signature step (R105) -/

/-- `SIG_BYTES` (spec/30_encoding.md R86). -/
def sigBytes : List Byte := [0x89#8, 0x50#8, 0x4E#8, 0x47#8, 0x0D#8, 0x0A#8, 0x1A#8, 0x0A#8]

/-- The index, from `i` on, of the first byte of `bs` that differs from its fellow in `want`. -/
def firstDiff (i : Nat) (bs want : List Byte) : Option Nat :=
  match bs, want with
  | b :: bs', w :: ws' => if b = w then firstDiff (i + 1) bs' ws' else some i
  | _, _ => none

/-- `x[CURSOR] <- cur`. -/
def State.withCursor (s : State) : State := { s with cursor := word s.scratch.pos }

/-- The comparison: "first mismatching byte is reported". -/
def sigCheck (start : Nat) (bs : List Byte) (s : State) : Run :=
  match firstDiff 0 bs sigBytes with
  | some i => .raised ⟨.invalidFormat, word 1, word i, word start⟩ s
  | none => .ok s.withCursor

/-- `sig_step()`. -/
def sigStep (s : State) : Run := readSrc 8 s fun bs s' => sigCheck s.scratch.pos bs s'

/-! ### Chunk step (R106) -/

/-- The index, from `i` on, of the first byte that is not ASCII (R102). -/
def firstNonAscii (i : Nat) (bs : List Byte) : Option Nat :=
  match bs with
  | [] => none
  | b :: rest => if ascii b then firstNonAscii (i + 1) rest else some i

/-- The register writes of a chunk step that reaches its CRC comparison (R106, spec/10_state.md R34 to R40): `start` is the
chunk's offset, `len` its length field, `t` its tag, `rx` its CRC field; the computed CRC is the accumulator's final value. -/
def State.recordChunk (s : State) (start len : Nat) (t : List Byte) (rx : Word) : State :=
  { s with
    chkLen := word len, chkType := be32 t, chkFlags := tagFlags t, chkDataOff := word (start + 8)
    chkCrcRx := rx, chkCrcCalc := s.scratch.crcAcc ^^^ crcOnes
    chkCount := s.chkCount + 1#32, cursor := word s.scratch.pos }

/-- The last line of `chunk_step()`: the comparison (R112). -/
def compareCrc (start : Nat) (s : State) : Run :=
  if s.crcCheckEn ∧ s.chkCrcRx ≠ s.chkCrcCalc then
    .raised ⟨.crcMismatch, s.chkCrcRx, s.chkCrcCalc, word start⟩ s
  else .ok s

/-- Step 4 of `chunk_step()`: the data, the CRC field, the computed CRC over tag and data (R101), the comparison. -/
def chunkBody (start len : Nat) (t : List Byte) (s : State) : Run :=
  readSrc len s fun data s1 =>
    readSrc 4 s1 fun crcField s2 =>
      compareCrc start
        ((s2.withCrcAcc (crcBytes crcOnes (t ++ data))).recordChunk start len t (be32 crcField))

/-- Steps 2 and 3: the tag checks and the length bound (R107: `L = avail` already overflows). -/
def chunkTag (start : Nat) (lenField : List Byte) (t : List Byte) (s : State) : Run :=
  match firstNonAscii 0 t with
  | some i => .raised ⟨.invalidFormat, word 2, word i, word start⟩ s
  | none =>
    if beNat lenField < s.remaining then chunkBody start (beNat lenField) t s
    else .raised ⟨.bufferOverflow, be32 lenField, word s.remaining, word start⟩ s

/-- `chunk_step()` from the local cursor. The tag it returns is CHK_TYPE of the state it ends in. -/
def chunkStep (s : State) : Run :=
  if s.remaining = 0 then .raised ⟨.truncatedStream, 0#32, 0#32, word s.scratch.pos⟩ s
  else
    readSrc 4 s fun lenField s1 =>
      readSrc 4 s1 fun t s2 => chunkTag s.scratch.pos lenField t s2

/-! ### The walk (R120) -/

/-- "IHDR" and "IEND" as packed tags (spec/10_state.md R41). -/
def tagIHDR : Word := 0x49484452#32
def tagIEND : Word := 0x49454E44#32

/-- The loop of WALK. `fuel` bounds the chunk steps; `walkFuel` is never used up (R121, log 18). -/
def walkLoop (fuel : Nat) (first : Bool) (s : State) : Run :=
  match fuel with
  | 0 => .raised ⟨.truncatedStream, 0#32, 0#32, word s.scratch.pos⟩ s
  | k + 1 =>
    (chunkStep s).andThen fun s' =>
      if first ∧ s'.ihdrFirstEn ∧ s'.chkType ≠ tagIHDR then
        .raised ⟨.ihdrNotFirst, s'.chkType, 0#32, s'.chkDataOff - 8#32⟩ s'
      else if s'.chkType = tagIEND then .ok s'
      else walkLoop k false s'

/-- The bound of R121 on the chunk steps left: every one that returns uses at least 12 bytes. -/
def State.walkFuel (s : State) : Nat := s.remaining / 12 + 1

/-- `cur <- x[CURSOR]`. -/
def State.fromCursor (s : State) : State := s.withPos s.cursor.toNat

/-! ### The commands -/

/-- R110. -/
def execSig (s : State) : Host.Outcome State Fault Refusal :=
  ((srcRangeCheck s).andThen fun s1 => sigStep s1.fromCursor).finish

/-- R111. -/
def execChunk (s : State) : Host.Outcome State Fault Refusal :=
  ((srcRangeCheck s).andThen fun s1 => chunkStep s1.fromCursor).finish

/-- R120. CHK_COUNT is set to 0 when the walk starts (spec/10_state.md R40). -/
def execWalk (s : State) : Host.Outcome State Fault Refusal :=
  ((srcRangeCheck s).andThen fun s1 =>
    (sigStep ({ s1 with chkCount := 0#32 } : State).fromCursor).andThen fun s2 =>
      walkLoop s2.walkFuel true s2).finish

/-- R130. -/
def execCrc (s : State) : Host.Outcome State Fault Refusal :=
  ((srcRangeCheck s).andThen fun s1 =>
    memRead s1 s1.srcAddr.toNat s1.srcLen.toNat fun bs =>
      let s2 := s1.withCrcAcc (crcBytes crcOnes bs)
      .ok { s2 with chkCrcCalc := s2.scratch.crcAcc ^^^ crcOnes }).finish

end Sys2Proof.Machine
end

