-- ==== Sys2Proof/Machine/Control.lean ====
section
/-! DEFINITION. NOP (spec/42_adam7_layout.md R190). -/

namespace Sys2Proof.Machine

open Sys2Proof

/-- R190: `complete()`. -/
def execNop (s : State) : Host.Outcome State Fault Refusal := (Run.ok s).finish

end Sys2Proof.Machine
end

