-- ==== Sys2Proof/Machine/Dispatch.lean ====
section
/-! DEFINITION. One arm per instruction of spec/opcode_table.json. -/

namespace Sys2Proof.Machine

open Sys2Proof

def exec (i : Instr) (s : State) : Host.Outcome State Fault Refusal :=
  match i with
  | .nop => Sys2Proof.Machine.execNop s
  | .sig => Sys2Proof.Machine.execSig s
  | .chunk => Sys2Proof.Machine.execChunk s
  | .walk => Sys2Proof.Machine.execWalk s
  | .crc => Sys2Proof.Machine.execCrc s
  | .unfilter => Sys2Proof.Machine.execUnfilter s
  | .deinterlace => Sys2Proof.Machine.execDeinterlace s
  | .reconstruct => Sys2Proof.Machine.execReconstruct s
  | .filterNone => Sys2Proof.Machine.execFilterNone s
  | .filterSub => Sys2Proof.Machine.execFilterSub s
  | .filterUp => Sys2Proof.Machine.execFilterUp s
  | .filterAverage => Sys2Proof.Machine.execFilterAverage s
  | .filterPaeth => Sys2Proof.Machine.execFilterPaeth s

end Sys2Proof.Machine
end

