-- ==== Sys2Proof/Machine/Fetch.lean ====
section
/-! DEFINITION. What the engine's next turn runs: the accepted command word (spec/60_exceptions.md R201), or the filter-type
byte of the next scanline of the reconstruction command in progress (spec/41_scanline_filter.md R144). -/

namespace Sys2Proof.Machine

open Sys2Proof

/-- An instruction to execute, or the outcome of a turn that executes none. -/
inductive Fetched where
  | run (i : Instr)
  | settled (o : Host.Outcome State Fault Refusal)

/-- At scanline grain a command with a row loop enters it and leaves the rows to later turns (log 5). -/
def entersRows (g : Grain) (i : Instr) : Bool :=
  match g with
  | .command => false
  | .scanline => decide (i = .unfilter) || decide (i = .reconstruct)

/-- The entry of such a command into its row loop. -/
def enterRows (i : Instr) (s : State) : Run := if i = .reconstruct then startReconstruct s else startUnfilter s

/-- The turn of a busy engine between commands' rows: decode the accepted word `w`. -/
def fetchCommand (g : Grain) (w : Word) (s : State) : Fetched :=
  match decodeCommand w with
  | .instr i => if entersRows g i then .settled (enterRows i s).close else .run i
  | .illegalCommand v => .settled (.next (s.illegalWord v))
  | .illegalFilter _ => .settled (.next (s.illegalWord w))

/-- The turn of a busy engine in a row loop: decode the next scanline's filter-type byte. -/
def fetchFilter (s : State) : Fetched :=
  match rowHead s with
  | .filter i => .run i
  | .stop r => .settled r.close

/-- The engine's next turn. An idle engine does nothing (spec/60_exceptions.md R218). -/
def fetch (g : Grain) (s : State) : Fetched :=
  match s.engine with
  | .idle => .settled (.next s)
  | .busy w =>
    match s.scratch.scan with
    | none => fetchCommand g w s
    | some _ => fetchFilter s

/-! ### The instruction the host places to be run next (log 13) -/

/-- The smallest UNFILTER there is, a 1x1 grey image of depth 8 with SRC = 0, 1 and DST = 2, its filter-type byte being `b`:
accepted, its checks passed, its one scanline next. -/
def oneScanline (b : Byte) (s : State) : State :=
  let s1 : State :=
    { s with
      srcAddr := 0#32, srcLen := 2#32, dstAddr := 2#32, dstLen := 1#32
      imgWidth := 1#32, imgHeight := 1#32, imgFmt := imgFmtOf 8 0 0
      mem := Memory.write s.mem 0 b
      hostBuf := s.hostBuf.filter fun c => decide (c.1 ≠ 0) }
  match startUnfilter (s1.accept 0x00000005#32) with
  | .ok s2 => s2
  | .raised _ s2 => s2
  | .refused _ => s1

/-- The filter-type byte of the next scanline becomes `b`. -/
def State.placeFilterByte (s : State) (b : Byte) : State :=
  match s.engine, s.scratch.scan with
  | .busy _, some sc =>
    let a := s.srcAddr.toNat + sc.inOff
    { s with mem := Memory.write s.mem a b, hostBuf := s.hostBuf.filter fun c => decide (c.1 ≠ a) }
  | _, _ => oneScanline b s

/-- A code stands where the engine's next turn fetches it. -/
def State.placeCode (s : State) (c : Code) : State :=
  match c with
  | .cmd32 w => s.accept w
  | .filter8 b => s.placeFilterByte b

end Sys2Proof.Machine
end

