-- ==== Sys2Proof/Machine/HostPort.lean ====
section
/-! DEFINITION. The host's side: the register port (spec/10_state.md R22 to R47, spec/20_memory.md R62), the host's memory
accesses and write buffer (spec/70_reset_and_hazards.md R240, R242), reset, and the host program syntax
(spec/30_encoding.md R92, R93). -/

namespace Sys2Proof.Machine

open Sys2Proof

/-! ### The register map (R22) -/

/-- Offset of each register. -/
def Reg.offset (r : Reg) : Nat :=
  match r with
  | .id => 0x00
  | .ctrl => 0x04
  | .cmd => 0x08
  | .status => 0x0C
  | .srcAddr => 0x10
  | .srcLen => 0x14
  | .dstAddr => 0x18
  | .dstLen => 0x1C
  | .cursor => 0x20
  | .imgWidth => 0x24
  | .imgHeight => 0x28
  | .imgFmt => 0x2C
  | .bpp => 0x30
  | .rowBytes => 0x34
  | .chkLen => 0x40
  | .chkType => 0x44
  | .chkFlags => 0x48
  | .chkDataOff => 0x4C
  | .chkCrcRx => 0x50
  | .chkCrcCalc => 0x54
  | .chkCount => 0x58
  | .errInfo0 => 0x60
  | .errInfo1 => 0x64
  | .errInfo2 => 0x68
  | .outLen => 0x70

/-- Every register. -/
def allRegs : List Reg :=
  [.id, .ctrl, .cmd, .status, .srcAddr, .srcLen, .dstAddr, .dstLen, .cursor, .imgWidth, .imgHeight, .imgFmt, .bpp,
   .rowBytes, .chkLen, .chkType, .chkFlags, .chkDataOff, .chkCrcRx, .chkCrcCalc, .chkCount, .errInfo0, .errInfo1,
   .errInfo2, .outLen]

/-- The register at an offset, if the offset is mapped. -/
def regAt (offset : Nat) : Option Reg := allRegs.find? fun r => decide (r.offset = offset)

/-- The value a register holds (R23 to R43). -/
def State.readReg (s : State) (r : Reg) : Word :=
  match r with
  | .id => 0x504E4701#32
  | .ctrl => s.ctrl
  | .cmd => s.cmd
  | .status => s.statusWord
  | .srcAddr => s.srcAddr
  | .srcLen => s.srcLen
  | .dstAddr => s.dstAddr
  | .dstLen => s.dstLen
  | .cursor => s.cursor
  | .imgWidth => s.imgWidth
  | .imgHeight => s.imgHeight
  | .imgFmt => s.imgFmt
  | .bpp => bppRead s.imgFmt
  | .rowBytes => rowBytesRead s.imgFmt s.imgWidth
  | .chkLen => s.chkLen
  | .chkType => s.chkType
  | .chkFlags => s.chkFlags
  | .chkDataOff => s.chkDataOff
  | .chkCrcRx => s.chkCrcRx
  | .chkCrcCalc => s.chkCrcCalc
  | .chkCount => s.chkCount
  | .errInfo0 => s.errInfo0
  | .errInfo1 => s.errInfo1
  | .errInfo2 => s.errInfo2
  | .outLen => s.outLen

/-- R47: while BUSY = 1 a read of one of these "return[s] unspecified values". -/
def Reg.openWhileBusy (r : Reg) : Bool :=
  match r with
  | .cursor | .chkLen | .chkType | .chkFlags | .chkDataOff | .chkCrcRx | .chkCrcCalc | .chkCount
  | .errInfo0 | .errInfo1 | .errInfo2 | .outLen => true
  | .id | .ctrl | .cmd | .status | .srcAddr | .srcLen | .dstAddr | .dstLen | .imgWidth | .imgHeight | .imgFmt
  | .bpp | .rowBytes => false

/-- R46: a write to one of these is refused while BUSY = 1. -/
def Reg.refusedWhileBusy (r : Reg) : Bool :=
  match r with
  | .ctrl | .cmd | .srcAddr | .srcLen | .dstAddr | .dstLen | .cursor | .imgWidth | .imgHeight | .imgFmt => true
  | .id | .status | .bpp | .rowBytes | .chkLen | .chkType | .chkFlags | .chkDataOff | .chkCrcRx | .chkCrcCalc
  | .chkCount | .errInfo0 | .errInfo1 | .errInfo2 | .outLen => false

/-! ### Register accesses -/

def State.respond (s : State) (r : Response) : State := { s with response := r }

/-- An access answered by a value the spec does not give (R47, spec/93_implementation_defined.md U6, U9). -/
def State.respondFree (s : State) : State :=
  { s with response := .word (Config.freeWord s.draws), draws := s.draws + 1 }

/-- R62: only 32-bit accesses at multiples of 4 are admitted. -/
def accessAdmitted (offset : BitVec 7) (width : Nat) : Bool := decide (width = 32) && decide (offset.toNat % 4 = 0)

/-- R62: a bus error to the host; no register changes. -/
def State.regAccessFault (s : State) (offset : BitVec 7) (width : Nat) : State :=
  s.respond (.busError (.regAccessFault offset.toNat width))

/-- A register read (R44: an unmapped offset reads 0; R47; R230 while `rst` is asserted). -/
def State.regRead (s : State) (offset : BitVec 7) (width : Nat) : State :=
  if !accessAdmitted offset width then s.regAccessFault offset width
  else if s.rst then s.respondFree
  else
    match regAt offset.toNat with
    | none => s.respond (.word 0#32)
    | some r => if s.isBusy && r.openWhileBusy then s.respondFree else s.respond (.word (s.readReg r))

/-- A write of `v` to register `r` that is not refused: each writable bit takes the written value (R24 to R31); STATUS by
its W1C bits (R26); CMD accepts a command (R25, R200); a read-only register ignores it (R45). -/
def State.writeReg (s : State) (r : Reg) (v : Word) : State :=
  match r with
  | .ctrl => { s with ctrl := v &&& ctrlMask }
  | .cmd => s.accept v
  | .status => s.ack v
  | .srcAddr => { s with srcAddr := v }
  | .srcLen => { s with srcLen := v }
  | .dstAddr => { s with dstAddr := v }
  | .dstLen => { s with dstLen := v }
  | .cursor => { s with cursor := v }
  | .imgWidth => { s with imgWidth := v }
  | .imgHeight => { s with imgHeight := v }
  | .imgFmt => { s with imgFmt := v &&& imgFmtMask }
  | .id | .bpp | .rowBytes | .chkLen | .chkType | .chkFlags | .chkDataOff | .chkCrcRx | .chkCrcCalc | .chkCount
  | .errInfo0 | .errInfo1 | .errInfo2 | .outLen => s

/-- A register write (R44, R46; R230: no effect while `rst` is asserted). -/
def State.regWrite (s : State) (offset : BitVec 7) (width : Nat) (v : Word) : State :=
  if !accessAdmitted offset width then s.regAccessFault offset width
  else if s.rst then s.respond .done
  else
    match regAt offset.toNat with
    | none => s.respond .done
    | some r =>
      if s.isBusy && r.refusedWhileBusy then ({ s with rejected := true } : State).respond .done
      else (s.writeReg r v).respond .done

/-! ### The host's memory accesses -/

/-- `a` lies in the range of `len` bytes from `base` on. -/
def inRange (base len : Word) (a : Nat) : Bool :=
  decide (base.toNat ≤ a) && decide (a < base.toNat + len.toNat)

/-- R240: what a host may not touch while BUSY = 1: the DST range at all, the SRC range by a write. -/
def State.hostMayNot (s : State) (writes : Bool) (a : Nat) : Bool :=
  s.isBusy && (inRange s.dstAddr s.dstLen a || (writes && inRange s.srcAddr s.srcLen a))

/-- A host access to byte address `a`: refused in a hazard (R240). Where nothing backs the byte, or the platform answers the
access with an error, it is refused too: R69 speaks of a command's accesses only and the spec is silent on the host's own, so
that refusal is the model's choice (DESIGN CHOICE, safe, log 22). Where the platform routes the address to the register
window it is a register access one byte wide, so a bus error (R61, R62; log 11). -/
def hostAccess (s : State) (writes : Bool) (a : Nat) (k : State) : Host.Outcome State Fault Refusal :=
  match blocked s.params s.memErrors a with
  | some (.registerWindow _) => .next (s.respond (.busError (.regAccessFault (a - s.params.regBase.toNat) 8)))
  | some r => .refused r
  | none => if s.hostMayNot writes a then .refused (.hostHazard a) else .next k

/-- The byte a host reads: its own newest posted write to the address (DESIGN CHOICE, log 10), or memory. A command's output
is what it reads after completion, for posted writes have given way to it (R72, `State.completeOutput`). -/
def State.hostByte (s : State) (a : Nat) : Byte :=
  match s.hostBuf.reverse.find? fun c => decide (c.1 = a) with
  | some c => c.2
  | none => Memory.read s.mem a

/-- The posted writes to other addresses than `a`. -/
def State.withoutPosted (s : State) (a : Nat) : List Host.Cell := s.hostBuf.filter fun c => decide (c.1 ≠ a)

/-- A host write that completes at once supersedes older posted writes to the address (log 10). -/
def State.memWritten (s : State) (a : Nat) (b : Byte) : State :=
  { s with mem := Memory.write s.mem a b, hostBuf := s.withoutPosted a, response := .done }

/-- The oldest posted write completes; the hazard of R240 holds for it as for any host write. -/
def drainOne (s : State) : Host.Outcome State Fault Refusal :=
  match s.hostBuf with
  | [] => .next (s.respond .done)
  | (a, b) :: rest =>
    hostAccess s true a { s with mem := Memory.write s.mem a b, hostBuf := rest, response := .done }

/-- Deliver an event of the host, of the platform or of `rst`; an engine turn is not one and changes nothing here. -/
def deliver (e : Event) (s : State) : Host.Outcome State Fault Refusal :=
  match e with
  | .regRead offset width => .next (s.regRead offset width)
  | .regWrite offset width v => .next (s.regWrite offset width v)
  | .memRead a => hostAccess s false a.toNat (s.respond (.byte (s.hostByte a.toNat)))
  | .memWrite a b => hostAccess s true a.toNat (s.memWritten a.toNat b)
  | .memPost a b => hostAccess s true a.toNat { s with hostBuf := s.hostBuf ++ [(a.toNat, b)], response := .done }
  | .drain => drainOne s
  | .memErrors rs => .next { s with memErrors := rs }
  | .assertReset => .next s.assertReset
  | .releaseReset => .next s.releaseReset
  | .engine _ => .next s

/-! ### Host programs (spec/30_encoding.md R92, R93) -/

/-- `wr NAME, v`. -/
def hostWr (r : Reg) (v : Word) : List Event := [.regWrite (BitVec.ofNat 7 r.offset) 32 v]

/-- `rd NAME`. -/
def hostRd (r : Reg) : List Event := [.regRead (BitVec.ofNat 7 r.offset) 32]

/-- `mem A: b0 b1 ...`. -/
def hostMem (a : Nat) (bs : List Byte) : List Event := (cellsAt a bs).map fun c => .memWrite (word c.1) c.2

/-- `wait`, once the engine has had its turn: the poll that ends the loop. -/
def hostWait : List Event := [.engine .command] ++ hostRd .status

/-- `run MNEMONIC` of the command word `w`. -/
def hostRun (w : Word) : List Event := hostWr .cmd w ++ hostWait

/-- `ack`. -/
def hostAck : List Event := hostWr .status 0x0000000A#32

end Sys2Proof.Machine
end

