-- ==== Sys2Proof/Machine/Step.lean ====
section
/-! DEFINITION. One step of the machine: the next event of `inputs`, or the engine's turn when none is listed. -/

namespace Sys2Proof.Machine

open Sys2Proof

/-- One engine turn: fetch what it runs and run it. -/
def engineTurn (g : Grain) (s : State) : Host.Outcome State Fault Refusal :=
  match fetch g s with
  | .run i => exec i s
  | .settled o => o

/-- One step (log 1, log 12). -/
def step (s : State) : Host.Outcome State Fault Refusal :=
  match s.inputs with
  | [] => engineTurn .command s
  | .engine g :: rest => engineTurn g { s with inputs := rest }
  | e :: rest => deliver e { s with inputs := rest }

/-- `s` with the instruction of a table row's bits where the very next step fetches it: `rst` released, the code placed
(`State.placeCode`), and the engine's turn next (log 13). -/
def State.withFetchWord (s : State) (nbits w : Nat) : State :=
  let s1 := ({ s with rst := false } : State).placeCode (tableCode nbits w)
  { s1 with inputs := .engine .command :: s1.inputs }

end Sys2Proof.Machine
end

