-- ==== Sys2Proof/WellFormed.lean ====
section
/-! DEFINITION. The checks on terms the spec constrains. An instruction has no operand field, so every `Instr` is
well formed; the parameters of spec/00_scope.md R7 are not free of conditions. -/

namespace Sys2Proof

/-- No constructor of `Instr` carries a field that could be out of range (spec/30_encoding.md R80: "no immediate and no
register-number field"). -/
def Instr.wf (i : Instr) : Bool :=
  match i with
  | .nop | .sig | .chunk | .walk | .crc | .unfilter | .deinterlace | .reconstruct
  | .filterNone | .filterSub | .filterUp | .filterAverage | .filterPaeth => true

/-- `ADDR_W` is 32: a backed region lies in the address space 0 .. 2^32-1 (spec/20_memory.md R60). -/
def Region.wf (r : Region) : Bool := decide (r.base + r.size ≤ 0x100000000)

/-- `MAX_ROW_BYTES` is an "integer >= 1" (R7); the 0x80-byte register window lies on the host's bus at a word-aligned
base, since its registers are at 4-byte-aligned offsets (spec/10_state.md R22; DEDUCED, log 2). -/
def Params.wf (p : Params) : Bool :=
  decide (1 ≤ p.maxRowBytes) && p.backed.all Region.wf && decide (p.regBase.toNat % 4 = 0) &&
    decide (p.regBase.toNat + 0x80 ≤ 0x100000000)

end Sys2Proof
end

