-- ==== Sys2Proof/Safety.lean ====
section
/-! DEFINITION. What counts as a safe run, in the terms the statements use: the machine's invariant, the line-buffer bound,
when a command can reach its bytes, what an instruction leaves alone, and the reference readings of the spec that results
are compared with (rows of an image, scattered pixels, an encoded chunk stream). -/

namespace Sys2Proof.Machine

open Sys2Proof

/-! ### The invariant -/

/-- What every step keeps. Each clause is a sentence of the spec or the model's own representation rule. -/
structure BlockInv (s : State) : Prop where
  /-- Memory is in its canonical form. -/
  memWf : Memory.wf s.mem = true
  /-- A posted write is to an address of the space (spec/20_memory.md R60). -/
  postedWf : ∀ c ∈ s.hostBuf, c.1 < 0x100000000
  /-- CTRL bits 31:3 read 0 (spec/10_state.md R24). -/
  ctrlReserved : s.ctrl.toNat < 8
  /-- IMG_FMT bits 31:24 read 0 (R31). -/
  fmtReserved : s.imgFmt.toNat < 0x1000000
  /-- CHK_FLAGS bits 31:4 are 0 (R36). -/
  flagsReserved : s.chkFlags.toNat < 16
  /-- While `rst` is asserted every register holds its reset value and the engine is IDLE (spec/70_reset_and_hazards.md
  R230). -/
  resetHeld : s.rst = true → s = { s.resetRegisters with rst := true }
  /-- No hidden state survives a command (R50). -/
  idleScratch : s.engine = .idle → s.scratch = Scratch.empty
  /-- From acceptance to completion DONE and CODE are 0 (spec/60_exceptions.md R200). -/
  busyStatus : s.engine ≠ .idle → s.done = false ∧ s.code = .ok ∧ s.outLen = 0#32
  /-- With CODE = 0 the error information is 0 (R42, R200). -/
  okNoInfo : s.code = .ok → s.errInfo0 = 0#32 ∧ s.errInfo1 = 0#32 ∧ s.errInfo2 = 0#32
  /-- After an error OUT_LEN is 0 (R43). -/
  errorNoOutput : s.code ≠ .ok → s.outLen = 0#32

/-- The rows of the command in progress fit the line buffers, of `MAX_ROW_BYTES` bytes each (spec/10_state.md R49). -/
structure LineBuffersFit (s : State) : Prop where
  prior : s.scratch.prior.length ≤ s.params.maxRowBytes
  cur : s.scratch.cur.length ≤ s.params.maxRowBytes
  images : ∀ sc, s.scratch.scan = some sc → ∀ g ∈ sc.images, rowBytes s.imgFmt g.width ≤ s.params.maxRowBytes

/-! ### Reaching bytes -/

/-- Every one of `n` addresses from `a` on can be accessed: memory backs it and no access is answered with an error
(spec/20_memory.md R69). -/
abbrev Reachable (s : State) (a n : Nat) : Prop := ∀ i, i < n → s.reachable (a + i) = true

/-- `a` is outside the DST range (spec/00_scope.md glossary). -/
abbrev OutsideDst (s : State) (a : Nat) : Prop := ¬ (s.dstAddr.toNat ≤ a ∧ a < s.dstAddr.toNat + s.dstLen.toNat)

/-- `a` is outside the first `n` bytes of the DST range (spec/20_memory.md R68). -/
abbrev OutsideOutput (s : State) (n a : Nat) : Prop := ¬ (s.dstAddr.toNat ≤ a ∧ a < s.dstAddr.toNat + n)

/-! ### Frames -/

/-- The registers no command writes, with the platform's side of the machine. The host's posted writes are not among them:
they give way to a command's output (spec/20_memory.md R72). -/
structure KeepsOperands (s t : State) : Prop where
  ctrl : t.ctrl = s.ctrl
  cmd : t.cmd = s.cmd
  rejected : t.rejected = s.rejected
  srcAddr : t.srcAddr = s.srcAddr
  srcLen : t.srcLen = s.srcLen
  dstAddr : t.dstAddr = s.dstAddr
  dstLen : t.dstLen = s.dstLen
  imgWidth : t.imgWidth = s.imgWidth
  imgHeight : t.imgHeight = s.imgHeight
  imgFmt : t.imgFmt = s.imgFmt
  rst : t.rst = s.rst
  inputs : t.inputs = s.inputs
  response : t.response = s.response
  params : t.params = s.params
  memErrors : t.memErrors = s.memErrors

/-- The host writes posted in `s` are still posted in `t`, but for those to the first `n` bytes of the DST range. -/
abbrev PostedOutsideOutput (s : State) (n : Nat) (t : State) : Prop :=
  t.hostBuf = s.hostBuf.filter fun c => decide (OutsideOutput s n c.1)

/-- CURSOR and the chunk result registers (spec/10_state.md R29, R34 to R40). -/
structure KeepsChunkRegs (s t : State) : Prop where
  cursor : t.cursor = s.cursor
  chkLen : t.chkLen = s.chkLen
  chkType : t.chkType = s.chkType
  chkFlags : t.chkFlags = s.chkFlags
  chkDataOff : t.chkDataOff = s.chkDataOff
  chkCrcRx : t.chkCrcRx = s.chkCrcRx
  chkCrcCalc : t.chkCrcCalc = s.chkCrcCalc
  chkCount : t.chkCount = s.chkCount

/-- ERR_INFO0..2 (R42). -/
structure KeepsErrInfo (s t : State) : Prop where
  errInfo0 : t.errInfo0 = s.errInfo0
  errInfo1 : t.errInfo1 = s.errInfo1
  errInfo2 : t.errInfo2 = s.errInfo2

/-- The command has completed without error (spec/60_exceptions.md R202). -/
structure CompletedOk (t : State) : Prop where
  idle : t.engine = .idle
  done : t.done = true
  code : t.code = .ok
  scratch : t.scratch = Scratch.empty

/-! ### Reference readings -/

/-- The instruction and predictor of each filter type (spec/41_scanline_filter.md R152 `pred`). -/
def filterTable : List (Instr × Predictor) :=
  [(.filterNone, fun _ _ _ => 0), (.filterSub, fun a _ _ => a), (.filterUp, fun _ b _ => b),
   (.filterAverage, fun a b _ => (a + b) / 2), (.filterPaeth, paeth)]

/-- The predictor of a filter-type byte (R152); bytes above 4 have none and are never asked for. -/
def predictorOf (ft : Byte) : Predictor :=
  match ft.toNat with
  | 0 => predNone
  | 1 => predSub
  | 2 => predUp
  | 3 => predAverage
  | _ => paeth

/-- The `h` reconstructed rows of one image or pass, `rb` bytes each, from its filtered stream and the row above (R152,
R153). -/
def imageRows (bpp rb : Nat) (h : Nat) (prior : List Byte) (stream : List Byte) : List Byte :=
  match h with
  | 0 => []
  | k + 1 =>
    let row := reconRow (predictorOf (stream.getD 0 0#8)) bpp prior [] ((stream.drop 1).take rb)
    row ++ imageRows bpp rb k row (stream.drop (1 + rb))

/-- The reconstructed rows of all images or passes, in order (R154, R160). -/
def streamRows (fmt : Word) (images : List Image) (stream : List Byte) : List Byte :=
  match images with
  | [] => []
  | g :: rest =>
    let rb := rowBytes fmt g.width
    imageRows (bppOf fmt) rb g.height (zeroRow rb) stream ++
      streamRows fmt rest (stream.drop (g.height * (1 + rb)))

/-- The filter-type bytes of `h` rows of `rb` bytes each. -/
def imageFilterBytes (rb : Nat) (h : Nat) (stream : List Byte) : List Byte :=
  match h with
  | 0 => []
  | k + 1 => stream.getD 0 0#8 :: imageFilterBytes rb k (stream.drop (1 + rb))

/-- The filter-type bytes of a filtered stream (R85, R154). -/
def streamFilterBytes (fmt : Word) (images : List Image) (stream : List Byte) : List Byte :=
  match images with
  | [] => []
  | g :: rest =>
    let rb := rowBytes fmt g.width
    imageFilterBytes rb g.height stream ++ streamFilterBytes fmt rest (stream.drop (g.height * (1 + rb)))

/-- Where pass `p` begins in the concatenated pass images (spec/42_adam7_layout.md R181 input layout). -/
def passOffset (w h bpp p : Nat) : Nat :=
  ((List.range p).map fun q => passWidth w q * passHeight h q * bpp).sum

/-- The grid of `t` holds the pixels of the concatenated pass images `pix` where R174 puts them. -/
def ScatteredFrom (s t : State) (pix : List Byte) : Prop :=
  let w := s.imgWidth.toNat
  let h := s.imgHeight.toNat
  let bpp := bppOf s.imgFmt
  ∀ p j i k, p < 7 → j < passHeight h p → i < passWidth w p → k < bpp →
    Memory.read t.mem (s.dstAddr.toNat + gridOffset w bpp p j i + k) =
      pix.getD (passOffset w h bpp p + (j * passWidth w p + i) * bpp + k) 0#8

/-- Every byte the command reads or writes can be accessed. -/
abbrev ReachesAll (s : State) (i : Instr) : Prop :=
  Reachable s s.srcAddr.toNat (s.needSrc i) ∧ Reachable s s.dstAddr.toNat (s.needOut i)

/-- The filtered stream's filter-type bytes are all legal (R144). -/
abbrev FiltersLegal (s : State) : Prop :=
  ∀ b ∈ streamFilterBytes s.imgFmt s.images (s.engineBytes s.srcAddr.toNat s.needIn), b.toNat < 5

/-- The 4 bytes of a big-endian field (spec/20_memory.md R66). -/
def beBytes (v : Nat) : List Byte :=
  [BitVec.ofNat 8 (v / 0x1000000), BitVec.ofNat 8 (v / 0x10000), BitVec.ofNat 8 (v / 0x100), BitVec.ofNat 8 v]

/-- A chunk of a stream: its tag, its data and the value of its CRC field (spec/30_encoding.md R87). -/
structure ChunkText where
  tag : List Byte
  data : List Byte
  crc : Word
  deriving DecidableEq, Repr

/-- The chunk as bytes (R87). -/
def ChunkText.bytes (c : ChunkText) : List Byte :=
  beBytes c.data.length ++ c.tag ++ c.data ++ beBytes c.crc.toNat

/-- A tag of 4 ASCII bytes (R88), a length the field can hold. -/
def ChunkText.ok (c : ChunkText) : Bool :=
  decide (c.tag.length = 4) && c.tag.all ascii && decide (c.data.length < 0x100000000)

/-- The chunk passes the CRC comparison of a command run with CTRL = `ctrl`: the field holds the CRC its tag and data have
(spec/40_chunk_crc.md R101), or CRC_CHECK_EN = 0 (R112). -/
abbrev ChunkText.passesCrc (c : ChunkText) (ctrl : Word) : Prop :=
  ctrl.getLsbD 0 = true → c.crc = crc32 (c.tag ++ c.data)

/-- `n` engine turns, stopping at the first that gives no next state. -/
def engineTurns (g : Grain) (n : Nat) (s : State) : Host.Outcome State Fault Refusal :=
  match n with
  | 0 => .next s
  | k + 1 =>
    match engineTurn g s with
    | .next t => engineTurns g k t
    | .fault f => .fault f
    | .refused r => .refused r

end Sys2Proof.Machine
end

