-- ==== Sys2Proof/Certificates/Slice0/Obligations.lean ====
section
/-! DEFINITION. The statements about the block, for the provers, and the readings of the spec they compare results with.
Where a next state is written out, its fields `scratch`, `response`, `draws` and `inputs` are the model's representation
(log 1, log 4, log 6, log 7), for which no rule is cited. -/

open Sys2Proof Sys2Proof.Machine

/-! ### Readings of the spec -/

/-- The state `complete()` leaves (spec/60_exceptions.md R202). -/
def Sys2Proof.Machine.endsOk (s : State) : State :=
  { s with code := .ok, engine := .idle, done := true, scratch := Scratch.empty }

/-- The state `raise CODE(i0, i1, i2)` leaves (spec/60_exceptions.md R203). -/
def Sys2Proof.Machine.endsWith (s : State) (code : ResultCode) (i0 i1 i2 : Word) : State :=
  { s with errInfo0 := i0, errInfo1 := i1, errInfo2 := i2, code := code, engine := .idle, done := true,
           scratch := Scratch.empty }

/-- Check `n` of `config_check(cmd)` fails (spec/41_scanline_filter.md R145), each check read alone. -/
def Sys2Proof.Machine.configFails (s : State) (i : Instr) (n : Nat) : Bool :=
  match n with
  | 1 => !([0, 2, 3, 4, 6].contains (colorType s.imgFmt))
  | 2 => !([1, 2, 4, 8, 16].contains (bitDepth s.imgFmt))
  | 3 => decide (bitDepth s.imgFmt < 8) && [2, 4, 6].contains (colorType s.imgFmt)
  | 4 => !([0, 1].contains (interlace s.imgFmt))
  | 5 => decide (s.imgWidth.toNat = 0) || decide (s.imgHeight.toNat = 0)
  | 6 => (decide (i = .unfilter) || decide (i = .reconstruct)) &&
      decide (s.params.maxRowBytes < rowBytes s.imgFmt s.imgWidth.toNat)
  | 7 => (decide (i = .deinterlace) || (decide (i = .reconstruct) && decide (interlace s.imgFmt = 1))) &&
      decide (bitDepth s.imgFmt < 8)
  | 8 => decide (i = .deinterlace) && decide (interlace s.imgFmt ≠ 1)
  | 9 => decide (0x100000000 < s.srcAddr.toNat + s.srcLen.toNat) ||
      decide (0x100000000 < s.dstAddr.toNat + s.dstLen.toNat)
  | 10 => decide (0 < s.srcLen.toNat) && decide (0 < s.dstLen.toNat) &&
      decide (s.srcAddr.toNat < s.dstAddr.toNat + s.dstLen.toNat) &&
      decide (s.dstAddr.toNat < s.srcAddr.toNat + s.srcLen.toNat)
  | _ => false

/-- Every check of R145 and the length checks of R155 and R181 pass. -/
abbrev Sys2Proof.Machine.ChecksPass (s : State) (i : Instr) : Prop :=
  (∀ n, n < 11 → configFails s i n = false) ∧ s.needSrc i ≤ s.srcLen.toNat ∧ s.needOut i ≤ s.dstLen.toNat

/-- The value each mapped offset reads as while no command runs (spec/10_state.md R22 to R43). -/
def Sys2Proof.Machine.regValues (s : State) : List (Nat × Word) :=
  [(0x00, 0x504E4701#32), (0x04, s.ctrl), (0x08, s.cmd), (0x0C, s.statusWord), (0x10, s.srcAddr), (0x14, s.srcLen),
   (0x18, s.dstAddr), (0x1C, s.dstLen), (0x20, s.cursor), (0x24, s.imgWidth), (0x28, s.imgHeight), (0x2C, s.imgFmt),
   (0x30, bppRead s.imgFmt), (0x34, rowBytesRead s.imgFmt s.imgWidth), (0x40, s.chkLen), (0x44, s.chkType),
   (0x48, s.chkFlags), (0x4C, s.chkDataOff), (0x50, s.chkCrcRx), (0x54, s.chkCrcCalc), (0x58, s.chkCount),
   (0x60, s.errInfo0), (0x64, s.errInfo1), (0x68, s.errInfo2), (0x70, s.outLen)]

/-- The unmapped offsets of the window (R44). -/
def Sys2Proof.Machine.unmappedOffsets : List Nat := [0x38, 0x3C, 0x5C, 0x6C, 0x74, 0x78, 0x7C]

/-- The encoder's side of a filter type: each byte less its predictor (spec/95_test_vectors.md S-6). -/
def Sys2Proof.Machine.filterEncode (pred : Predictor) (bpp : Nat) (prior row : List Byte) : List Byte :=
  (List.range row.length).map fun x =>
    row.getD x 0#8 - BitVec.ofNat 8 (pred (back row bpp x).toNat (prior.getD x 0#8).toNat (back prior bpp x).toNat)

/-- The header a chunk step records (spec/40_chunk_crc.md R106), the chunk starting at CURSOR. -/
def Sys2Proof.Machine.recorded (s : State) (tag data : List Byte) (rx : Word) : State :=
  { s with
    chkLen := word data.length, chkType := be32 tag, chkFlags := tagFlags tag, chkDataOff := s.cursor + 8#32
    chkCrcRx := rx, chkCrcCalc := crc32 (tag ++ data), chkCount := s.chkCount + 1#32
    cursor := s.cursor + word (12 + data.length) }

/-- The machine's pass table, pass 0 first, each row `(start_x, start_y, step_x, step_y)` (spec/42_adam7_layout.md R170). -/
def Sys2Proof.Machine.passTable : List PassRow := [0, 1, 2, 3, 4, 5, 6].map passRow

/-! ### Encodings -/

/-- Tier 1, a sanity statement: the words of spec/30_encoding.md R81 and the bytes of R84, written out. -/
def Obligations.TableWordsDecode : Prop :=
  decodeTableWord 32 0x00000000 = some .nop ∧ decodeTableWord 32 0x00000003 = some .walk ∧
  decodeTableWord 32 0x00000007 = some .reconstruct ∧ decodeTableWord 8 0x00 = some .filterNone ∧
  decodeTableWord 8 0x04 = some .filterPaeth ∧ decodeTableWord 32 0x00000008 = none ∧
  decodeTableWord 32 0x00000015 = none ∧ decodeTableWord 8 0x05 = none

/-- Decoding an encoded instruction gives it back, and every code that decodes to an instruction is its encoding (R81,
R84: the full word and the full byte are matched). -/
def Obligations.EveryCodeHasOneMeaning : Prop :=
  (∀ i : Instr, i.wf = true → decode (encode i) = .instr i) ∧ ∀ c i, decode c = .instr i → c = encode i

/-- R81, R83, R84: which codes select an instruction, and the name every other code is rejected by. -/
def Obligations.IllegalCodesAreExact : Prop :=
  (∀ w : Word, (∃ i, decodeCommand w = .instr i) ↔ w.toNat / 16 = 0 ∧ w.toNat % 16 < 8) ∧
  (∀ w : Word, (w.toNat / 16 ≠ 0 ∨ 8 ≤ w.toNat % 16) → decodeCommand w = .illegalCommand w) ∧
  (∀ b : Byte, (∃ i, decodeFilter b = .instr i) ↔ b.toNat ≤ 4) ∧
  ∀ b : Byte, 5 ≤ b.toNat → decodeFilter b = .illegalFilter b

/-! ### A step -/

/-- R201: the engine's turn decodes the accepted word; a legal word runs its instruction, an illegal one ends at once with
ILLEGAL_COMMAND. The turn may be the default of an empty event list or a listed event (the model's schedule, log 1). -/
def Obligations.EngineTurnRunsAcceptedWord : Prop :=
  ∀ (s : State) (w : Word) (rest : List Event), s.engine = .busy w → s.scratch.scan = none →
    (s.inputs = [] → ∀ i, decodeCommand w = .instr i → step s = exec i s) ∧
    (s.inputs = [] → decodeCommand w = .illegalCommand w →
      step s = .next (endsWith s .illegalCommand w 0#32 0#32)) ∧
    (s.inputs = .engine .command :: rest → ∀ i, decodeCommand w = .instr i →
      step s = exec i { s with inputs := rest }) ∧
    (s.inputs = .engine .command :: rest → decodeCommand w = .illegalCommand w →
      step s = .next (endsWith { s with inputs := rest } .illegalCommand w 0#32 0#32))

/-- R144: in the row loop of a command, the engine's turn runs the filter type that the next scanline's first byte
decodes to. -/
def Obligations.EngineTurnRunsFilterByte : Prop :=
  ∀ (s : State) (w : Word) (sc : Scan) (g : Image) (more : List Image) (i : Instr) (rest : List Event),
    s.engine = .busy w → s.scratch.scan = some sc → sc.images = g :: more →
    s.reachable (s.srcAddr.toNat + sc.inOff) = true →
    decodeFilter (s.engineByte (s.srcAddr.toNat + sc.inOff)) = .instr i →
    (s.inputs = [] → step s = exec i s) ∧
    (s.inputs = .engine .scanline :: rest → step s = exec i { s with inputs := rest })

/-- R73 at the model's finer grain (log 5): entering the row loop and then running one scanline a turn ends where the
whole command in one step ends. -/
def Obligations.ScanlineGrainRefinesCommand : Prop :=
  ∀ (s : State) (w : Word) (i : Instr), (i = .unfilter ∨ i = .reconstruct) → decodeCommand w = .instr i →
    s.engine = .busy w → s.scratch = Scratch.empty →
    ∃ s1, engineTurn .scanline s = .next s1 ∧ engineTurns .scanline s1.rowsLeft s1 = exec i s

/-- R246: where every address is backed and no access is answered with an error, the engine's turn ends every accepted word,
legal or not. That an empty event list is the engine's turn is the model's choice (log 12). States inside a row loop are left
to `ScanlineGrainRefinesCommand`, `FilterRunsOneRow` and `FilterEndsTheCommand`. -/
def Obligations.EveryCommandCompletes : Prop :=
  ∀ (s : State) (w : Word), s.engine = .busy w → s.scratch = Scratch.empty → s.inputs = [] →
    (∀ a, a < 0x100000000 → s.reachable a = true) →
    ∃ t, step s = .next t ∧ t.engine = .idle ∧ t.done = true

/-- No step ends in a fault: that `reg_access_fault` is put in the answer to the host, and the machine goes on, is the model's
choice (DESIGN CHOICE, log 7). -/
def Obligations.NoStepFaults : Prop := ∀ s f, step s ≠ .fault f

/-- The invariant at reset. -/
def Obligations.InvariantAtReset : Prop := BlockInv State.reset

/-- Every step keeps the invariant, from every state that meets it. -/
def Obligations.StepKeepsInvariant : Prop := ∀ s t, BlockInv s → step s = .next t → BlockInv t

/-- R49: the line buffers have `MAX_ROW_BYTES` bytes, and no step needs more, from every state that meets the invariant. -/
def Obligations.RowsFitLineBuffers : Prop :=
  ∀ s t, BlockInv s → LineBuffersFit s → step s = .next t → LineBuffersFit t

/-- Memories in canonical form with the same reads are the same memory. -/
def Obligations.CanonicalMemoryIsItsReads : Prop :=
  ∀ m m' : Memory, Memory.wf m = true → Memory.wf m' = true → (∀ a, Memory.read m a = Memory.read m' a) → m = m'

/-! ### The register port -/

/-- R200: acceptance, and its refusal while BUSY = 1. What the engine's hidden state and the model's draw counter become
is left open. -/
def Obligations.CommandWriteAccepts : Prop :=
  ∀ (s : State) (w : Word) (rest : List Event), s.rst = false → s.inputs = .regWrite 0x08#7 32 w :: rest →
    (s.engine = .idle → ∃ t, step s = .next t ∧ t.irq = false ∧
      t = { s with
        inputs := rest, response := .done, cmd := w, done := false, code := .ok
        errInfo0 := 0#32, errInfo1 := 0#32, errInfo2 := 0#32, outLen := 0#32
        engine := .busy w, scratch := t.scratch, draws := t.draws }) ∧
    (s.engine ≠ .idle → step s = .next { s with inputs := rest, response := .done, rejected := true })

/-- R46: a refused write changes nothing but STATUS.REJECTED. -/
def Obligations.BusyWritesAreRefused : Prop :=
  ∀ (s : State) (off : BitVec 7) (v : Word) (rest : List Event), s.rst = false → s.engine ≠ .idle →
    off ∈ [0x04#7, 0x08#7, 0x10#7, 0x14#7, 0x18#7, 0x1C#7, 0x20#7, 0x24#7, 0x28#7, 0x2C#7] →
    s.inputs = .regWrite off 32 v :: rest →
    step s = .next { s with inputs := rest, response := .done, rejected := true }

/-- R45, with the unmapped offsets of R44: a write to a read-only register or an unmapped offset is ignored, busy or not. -/
def Obligations.ReadOnlyWritesAreIgnored : Prop :=
  ∀ (s : State) (off : BitVec 7) (v : Word) (rest : List Event), s.rst = false →
    off.toNat ∈ [0x00, 0x30, 0x34, 0x40, 0x44, 0x48, 0x4C, 0x50, 0x54, 0x58, 0x60, 0x64, 0x68, 0x70] ++ unmappedOffsets →
    s.inputs = .regWrite off 32 v :: rest →
    step s = .next { s with inputs := rest, response := .done }

/-- R26: a write to STATUS clears DONE and REJECTED where it writes 1 to them, busy or not, and does nothing else. -/
def Obligations.StatusWriteClearsOnlyItsBits : Prop :=
  ∀ (s : State) (v : Word) (rest : List Event), s.rst = false → s.inputs = .regWrite 0x0C#7 32 v :: rest →
    step s = .next { s with
      inputs := rest, response := .done
      done := if v.getLsbD 1 then false else s.done
      rejected := if v.getLsbD 3 then false else s.rejected }

/-- R24, R27 to R31: a write to a read-write register while BUSY = 0; the reserved bits of CTRL and IMG_FMT stay 0. -/
def Obligations.IdleWritesTakeTheValue : Prop :=
  ∀ (s : State) (v : Word) (rest : List Event), s.rst = false → s.engine = .idle →
    (s.inputs = .regWrite 0x04#7 32 v :: rest →
      step s = .next { s with inputs := rest, response := .done, ctrl := word (v.toNat % 8) }) ∧
    (s.inputs = .regWrite 0x10#7 32 v :: rest →
      step s = .next { s with inputs := rest, response := .done, srcAddr := v }) ∧
    (s.inputs = .regWrite 0x14#7 32 v :: rest →
      step s = .next { s with inputs := rest, response := .done, srcLen := v }) ∧
    (s.inputs = .regWrite 0x18#7 32 v :: rest →
      step s = .next { s with inputs := rest, response := .done, dstAddr := v }) ∧
    (s.inputs = .regWrite 0x1C#7 32 v :: rest →
      step s = .next { s with inputs := rest, response := .done, dstLen := v }) ∧
    (s.inputs = .regWrite 0x20#7 32 v :: rest →
      step s = .next { s with inputs := rest, response := .done, cursor := v }) ∧
    (s.inputs = .regWrite 0x24#7 32 v :: rest →
      step s = .next { s with inputs := rest, response := .done, imgWidth := v }) ∧
    (s.inputs = .regWrite 0x28#7 32 v :: rest →
      step s = .next { s with inputs := rest, response := .done, imgHeight := v }) ∧
    (s.inputs = .regWrite 0x2C#7 32 v :: rest →
      step s = .next { s with inputs := rest, response := .done, imgFmt := word (v.toNat % 0x1000000) })

/-- R22, R44: what each offset reads as while no command runs; a read changes nothing. -/
def Obligations.IdleReadsReturnRegisters : Prop :=
  ∀ (s : State) (off : BitVec 7) (rest : List Event), s.rst = false → s.engine = .idle →
    s.inputs = .regRead off 32 :: rest →
    (∀ v, (off.toNat, v) ∈ regValues s → step s = .next { s with inputs := rest, response := .word v }) ∧
    (off.toNat ∈ unmappedOffsets → step s = .next { s with inputs := rest, response := .word 0#32 })

/-- R47: while BUSY = 1 some registers read as they are, the others as free draws. The drawn value is
`Config.freeWord`, of which nothing is known. -/
def Obligations.BusyReads : Prop :=
  ∀ (s : State) (off : BitVec 7) (rest : List Event), s.rst = false → s.engine ≠ .idle →
    s.inputs = .regRead off 32 :: rest →
    (∀ v, off.toNat ∈ [0x00, 0x04, 0x08, 0x0C, 0x10, 0x14, 0x18, 0x1C, 0x24, 0x28, 0x2C, 0x30, 0x34] →
      (off.toNat, v) ∈ regValues s → step s = .next { s with inputs := rest, response := .word v }) ∧
    (off.toNat ∈ [0x20, 0x40, 0x44, 0x48, 0x4C, 0x50, 0x54, 0x58, 0x60, 0x64, 0x68, 0x70] →
      step s = .next { s with
        inputs := rest, response := .word (Config.freeWord s.draws), draws := s.draws + 1 })

/-- R62: an access of another width or at an unaligned offset changes no register and returns a bus error. The bus error's
place in `response` is log 7's choice, and that it is returned also while `rst` is asserted is log 16's reading. -/
def Obligations.BadAccessIsABusError : Prop :=
  ∀ (s : State) (off : BitVec 7) (width : Nat) (v : Word) (rest : List Event), (width ≠ 32 ∨ off.toNat % 4 ≠ 0) →
    (s.inputs = .regRead off width :: rest ∨ s.inputs = .regWrite off width v :: rest) →
    step s = .next { s with inputs := rest, response := .busError (.regAccessFault off.toNat width) }

/-- R26, R90: the bits of STATUS, and the value of each result code. -/
def Obligations.StatusBits : Prop :=
  ∀ s : State,
    s.statusWord.getLsbD 0 = s.isBusy ∧ s.statusWord.getLsbD 1 = s.done ∧
    s.statusWord.getLsbD 2 = decide (s.code ≠ .ok) ∧ s.statusWord.getLsbD 3 = s.rejected ∧
    s.statusWord.extractLsb' 4 4 = 0#4 ∧ s.statusWord.extractLsb' 16 16 = 0#16 ∧ (s.isBusy = true ↔ s.engine ≠ .idle) ∧
    ∀ code value, (code, value) ∈
      [(ResultCode.ok, 0x00#8), (ResultCode.invalidFormat, 0x01#8), (ResultCode.bufferOverflow, 0x02#8),
       (ResultCode.truncatedStream, 0x03#8), (ResultCode.outOfBounds, 0x04#8), (ResultCode.crcMismatch, 0x05#8),
       (ResultCode.ihdrNotFirst, 0x06#8), (ResultCode.unsupportedFilter, 0x07#8), (ResultCode.configError, 0x08#8),
       (ResultCode.inputShort, 0x09#8), (ResultCode.outputShort, 0x0A#8), (ResultCode.illegalCommand, 0x0B#8)] →
      s.code = code → s.statusWord.extractLsb' 8 8 = value

/-- R32, R33, R140, R141: BPP and ROW_BYTES, with the corrected channel count of colour type 6. -/
def Obligations.DerivedRegisters : Prop :=
  (∀ ct ch d il, (ct, ch) ∈ [(0, 1), (2, 3), (3, 1), (4, 2), (6, 4)] → d ∈ [1, 2, 4, 8, 16] → il < 256 → ∀ w : Word,
    bppRead (imgFmtOf d ct il) = word (ch * ((d + 7) / 8)) ∧
    rowBytesRead (imgFmtOf d ct il) w = word (min ((w.toNat * ch * d + 7) / 8) 0xFFFFFFFF)) ∧
  (∀ fmt w : Word, (colorType fmt ∉ [0, 2, 3, 4, 6] ∨ bitDepth fmt ∉ [1, 2, 4, 8, 16]) →
    bppRead fmt = 0#32 ∧ rowBytesRead fmt w = 0#32) ∧
  (∀ (fmt : Word) (ct ch w : Nat), (ct, ch) ∈ [(0, 1), (2, 3), (3, 1), (4, 2), (6, 4)] → colorType fmt = ct →
    rowBytes fmt w = (w * ch * bitDepth fmt + 7) / 8 ∧ bppOf fmt = ch * ((bitDepth fmt + 7) / 8)) ∧
  ∀ (fmt : Word) (w : Nat), (bitDepth fmt = 8 ∨ bitDepth fmt = 16) → rowBytes fmt w = w * bppOf fmt

/-- R210: `irq` is the level of CTRL.IRQ_EN and STATUS.DONE; it follows IRQ_EN when a command completes, whatever its
result, or when CTRL is written, and falls when the host clears DONE or starts a command. -/
def Obligations.InterruptFollowsCompletion : Prop :=
  (∀ s : State, s.irq = (s.ctrl.getLsbD 1 && s.done)) ∧
  (∀ s t i, i ∈ [Instr.nop, .sig, .chunk, .walk, .crc, .unfilter, .deinterlace, .reconstruct] → exec i s = .next t →
    t.irq = s.ctrl.getLsbD 1 ∧ t.engine = .idle) ∧
  (∀ (s : State) (v : Word) (rest : List Event), s.rst = false → v.getLsbD 1 = true →
    s.inputs = .regWrite 0x0C#7 32 v :: rest → ∃ t, step s = .next t ∧ t.irq = false) ∧
  ∀ (s : State) (v : Word) (rest : List Event), s.rst = false → s.engine = .idle →
    (s.inputs = .regWrite 0x04#7 32 v :: rest → ∃ t, step s = .next t ∧ t.irq = (v.getLsbD 1 && s.done)) ∧
    (s.inputs = .regWrite 0x08#7 32 v :: rest → ∃ t, step s = .next t ∧ t.irq = false)

/-! ### The host's memory accesses -/

/-- From R240: while BUSY = 1 the host may not write the SRC range nor touch the DST range; reads of SRC bytes are answered.
That a posted write is refused when it is posted is the model's reading (log 21), and that the host reads its own posted byte
is the model's choice (log 10). -/
def Obligations.HostHazardsAreRefused : Prop :=
  ∀ (s : State) (a : Word) (b : Byte) (rest : List Event), s.engine ≠ .idle → s.reachable a.toNat = true →
    ((inRange s.srcAddr s.srcLen a.toNat = true ∨ inRange s.dstAddr s.dstLen a.toNat = true) →
      (s.inputs = .memWrite a b :: rest ∨ s.inputs = .memPost a b :: rest) →
      step s = .refused (.hostHazard a.toNat)) ∧
    (inRange s.dstAddr s.dstLen a.toNat = true → s.inputs = .memRead a :: rest →
      step s = .refused (.hostHazard a.toNat)) ∧
    (inRange s.dstAddr s.dstLen a.toNat = false → s.inputs = .memRead a :: rest →
      step s = .next { s with inputs := rest, response := .byte (s.hostByte a.toNat) })

/-- From R71 and R242: a completed host write is what host and engine read, at that address and no other; while one is posted
the engine's byte is free. That a completed write supersedes older posted ones, that the host alone reads its posted byte, and
that a drain completes it, are the model's choice of a write buffer (DESIGN CHOICE, log 10). -/
def Obligations.HostWritesBecomeVisible : Prop :=
  ∀ (s : State) (a : Word) (b : Byte) (rest : List Event), s.engine = .idle → Memory.wf s.mem = true →
    s.reachable a.toNat = true →
    (s.inputs = .memWrite a b :: rest → ∃ t, step s = .next t ∧ t.engineByte a.toNat = b ∧ t.hostByte a.toNat = b ∧
      ∀ x, x ≠ a.toNat → Memory.read t.mem x = Memory.read s.mem x ∧ t.hostByte x = s.hostByte x) ∧
    (s.hostBuf = [] → s.inputs = .memPost a b :: .drain :: rest → ∃ t u, step s = .next t ∧ step t = .next u ∧
      t.mem = s.mem ∧ t.engineByte a.toNat = Config.freeByte t.draws a.toNat ∧ t.hostByte a.toNat = b ∧
      u.engineByte a.toNat = b ∧ u.hostBuf = [])

/-! ### Reset -/

/-- R230, R232: asserting `rst` gives every register its reset value, whatever the state; memory is untouched while no
command runs; register accesses then have no effect and reads are free; releasing `rst` changes nothing else (that the
values hold until then is the invariant's `resetHeld`). -/
def Obligations.ResetGivesResetValues : Prop :=
  (∀ (s : State) (rest : List Event), s.inputs = .assertReset :: rest → ∃ t, step s = .next t ∧
    t.rst = true ∧ t.engine = .idle ∧ t.irq = false ∧ (s.engine = .idle → t.mem = s.mem ∧ t.hostBuf = s.hostBuf) ∧
    ∀ off v, (off, v) ∈ regValues t →
      v = if off = 0x00 then 0x504E4701#32 else if off = 0x04 then 0x00000005#32 else 0#32) ∧
  ∀ (s : State) (off : BitVec 7) (v : Word) (rest : List Event), s.rst = true → off.toNat % 4 = 0 →
    (s.inputs = .regWrite off 32 v :: rest → step s = .next { s with inputs := rest, response := .done }) ∧
    (s.inputs = .regRead off 32 :: rest →
      step s = .next { s with inputs := rest, response := .word (Config.freeWord s.draws), draws := s.draws + 1 }) ∧
    (s.inputs = .releaseReset :: rest → step s = .next { s with inputs := rest, rst := false })

/-- R231: a command abandoned by `rst` reports nothing; memory outside the DST range is unchanged and every byte of the
DST range that is a memory byte is free. That the DST range is drawn for every command, also one that writes
nothing, is the model's reading (log 9), and that a host write posted there gives way is log 24's. -/
def Obligations.ResetAbandonsTheCommand : Prop :=
  ∀ (s : State) (rest : List Event), s.engine ≠ .idle → Memory.wf s.mem = true →
    s.inputs = .assertReset :: rest → ∃ t, step s = .next t ∧
      t.engine = .idle ∧ t.done = false ∧ t.code = .ok ∧ t.scratch = Scratch.empty ∧
      (∀ a, OutsideDst s a → Memory.read t.mem a = Memory.read s.mem a) ∧
      (∀ a, ¬ OutsideDst s a → s.present a = true →
        Memory.read t.mem a = Config.freeByte (s.draws + 1) a ∧ t.hostByte a = Config.freeByte (s.draws + 1) a) ∧
      PostedOutsideOutput s s.dstLen.toNat t

/-! ### The chunk CRC validator -/

/-- R190: NOP. -/
def Obligations.NopCompletes : Prop :=
  decodeCommand 0x00000000#32 = .instr .nop ∧
  ∀ s : State, exec .nop s = .next (endsOk s) ∧ (endsOk s).irq = s.ctrl.getLsbD 1 ∧
    (s.rejected = false → (endsOk s).statusWord = 0x00000002#32)

/-- R104: the four chunk-validator commands check the SRC range before they read any byte, make no other configuration
check, and do not read IMG_* or DST_*. -/
def Obligations.SourceRangeIsChecked : Prop :=
  ∀ s i, i ∈ [Instr.sig, .chunk, .walk, .crc] →
    (0x100000000 < s.srcAddr.toNat + s.srcLen.toNat → exec i s = .next (endsWith s .configError 9#32 0#32 0#32)) ∧
    (s.srcAddr.toNat + s.srcLen.toNat ≤ 0x100000000 → ∀ t, exec i s = .next t → t.code ≠ .configError) ∧
    ∀ (t : State) (width height fmt dstAddr dstLen : Word), exec i s = .next t →
      exec i { s with imgWidth := width, imgHeight := height, imgFmt := fmt, dstAddr := dstAddr, dstLen := dstLen } =
        .next { t with imgWidth := width, imgHeight := height, imgFmt := fmt, dstAddr := dstAddr, dstLen := dstLen }

/-- R110: SIG. -/
def Obligations.SigOutcome : Prop :=
  decodeCommand 0x00000001#32 = .instr .sig ∧
  ∀ s : State,
    (0x100000000 < s.srcAddr.toNat + s.srcLen.toNat → exec .sig s = .next (endsWith s .configError 9#32 0#32 0#32)) ∧
    (s.srcAddr.toNat + s.srcLen.toNat ≤ 0x100000000 → s.srcLen.toNat - s.cursor.toNat < 8 →
      exec .sig s = .next (endsWith s .outOfBounds 8#32 (word (s.srcLen.toNat - s.cursor.toNat)) s.cursor)) ∧
    (s.srcAddr.toNat + s.srcLen.toNat ≤ 0x100000000 → 8 ≤ s.srcLen.toNat - s.cursor.toNat →
      Reachable s (s.srcAddr.toNat + s.cursor.toNat) 8 →
      (s.engineBytes (s.srcAddr.toNat + s.cursor.toNat) 8 =
          [0x89#8, 0x50#8, 0x4E#8, 0x47#8, 0x0D#8, 0x0A#8, 0x1A#8, 0x0A#8] →
        exec .sig s = .next (endsOk { s with cursor := s.cursor + 8#32 })) ∧
      ∀ i, i < 8 →
        s.engineByte (s.srcAddr.toNat + s.cursor.toNat + i) ≠
          [0x89#8, 0x50#8, 0x4E#8, 0x47#8, 0x0D#8, 0x0A#8, 0x1A#8, 0x0A#8].getD i 0#8 →
        (∀ j, j < i → s.engineByte (s.srcAddr.toNat + s.cursor.toNat + j) =
          [0x89#8, 0x50#8, 0x4E#8, 0x47#8, 0x0D#8, 0x0A#8, 0x1A#8, 0x0A#8].getD j 0#8) →
        exec .sig s = .next (endsWith s .invalidFormat 1#32 (word i) s.cursor))

/-- R106, R111, R112: CHUNK over a whole chunk records it; a CRC that differs ends with CRC_MISMATCH exactly when
CTRL.CRC_CHECK_EN = 1. -/
def Obligations.ChunkRecordsAndCompares : Prop :=
  ∀ (s : State) (lenField tag data crcField : List Byte),
    lenField.length = 4 → tag.length = 4 → crcField.length = 4 → beNat lenField = data.length → tag.all ascii = true →
    s.srcAddr.toNat + s.srcLen.toNat ≤ 0x100000000 → s.cursor.toNat + 12 + data.length ≤ s.srcLen.toNat →
    Reachable s (s.srcAddr.toNat + s.cursor.toNat) (12 + data.length) →
    s.engineBytes (s.srcAddr.toNat + s.cursor.toNat) (12 + data.length) = lenField ++ tag ++ data ++ crcField →
    ((s.ctrl.getLsbD 0 = false ∨ be32 crcField = crc32 (tag ++ data)) →
      exec .chunk s = .next (endsOk (recorded s tag data (be32 crcField)))) ∧
    (s.ctrl.getLsbD 0 = true → be32 crcField ≠ crc32 (tag ++ data) →
      exec .chunk s = .next (endsWith (recorded s tag data (be32 crcField)) .crcMismatch
        (be32 crcField) (crc32 (tag ++ data)) s.cursor))

/-- R107: `L >= avail` is BUFFER_OVERFLOW with (requested, available). -/
def Obligations.ChunkLengthBound : Prop :=
  ∀ s : State, s.srcAddr.toNat + s.srcLen.toNat ≤ 0x100000000 → s.cursor.toNat + 8 ≤ s.srcLen.toNat →
    Reachable s (s.srcAddr.toNat + s.cursor.toNat) 8 →
    (s.engineBytes (s.srcAddr.toNat + s.cursor.toNat + 4) 4).all ascii = true →
    s.srcLen.toNat - s.cursor.toNat - 8 ≤ beNat (s.engineBytes (s.srcAddr.toNat + s.cursor.toNat) 4) →
    exec .chunk s = .next (endsWith s .bufferOverflow
      (word (beNat (s.engineBytes (s.srcAddr.toNat + s.cursor.toNat) 4)))
      (word (s.srcLen.toNat - s.cursor.toNat - 8)) s.cursor)

/-- R108: the shortfalls (a) at a chunk boundary, (b) in the length or the type, (c) in the CRC field. -/
def Obligations.ChunkShortfalls : Prop :=
  ∀ s : State, s.srcAddr.toNat + s.srcLen.toNat ≤ 0x100000000 →
    (s.srcLen.toNat ≤ s.cursor.toNat → exec .chunk s = .next (endsWith s .truncatedStream 0#32 0#32 s.cursor)) ∧
    (s.cursor.toNat < s.srcLen.toNat → s.srcLen.toNat < s.cursor.toNat + 4 →
      exec .chunk s = .next (endsWith s .outOfBounds 4#32 (word (s.srcLen.toNat - s.cursor.toNat)) s.cursor)) ∧
    (s.cursor.toNat + 4 ≤ s.srcLen.toNat → s.srcLen.toNat < s.cursor.toNat + 8 →
      Reachable s (s.srcAddr.toNat + s.cursor.toNat) 4 →
      exec .chunk s = .next (endsWith s .outOfBounds 4#32 (word (s.srcLen.toNat - s.cursor.toNat - 4))
        (s.cursor + 4#32))) ∧
    ∀ len, len = beNat (s.engineBytes (s.srcAddr.toNat + s.cursor.toNat) 4) →
      s.cursor.toNat + 8 + len < s.srcLen.toNat → s.srcLen.toNat < s.cursor.toNat + 8 + len + 4 →
      Reachable s (s.srcAddr.toNat + s.cursor.toNat) (8 + len) →
      (s.engineBytes (s.srcAddr.toNat + s.cursor.toNat + 4) 4).all ascii = true →
      exec .chunk s = .next (endsWith s .outOfBounds 4#32 (word (s.srcLen.toNat - s.cursor.toNat - 8 - len))
        (word (s.cursor.toNat + 8 + len)))

/-- R102, R106: the first tag byte that is not below 0x80 is reported. -/
def Obligations.ChunkTagMustBeAscii : Prop :=
  ∀ (s : State) (i : Nat), s.srcAddr.toNat + s.srcLen.toNat ≤ 0x100000000 →
    s.cursor.toNat + 8 ≤ s.srcLen.toNat → Reachable s (s.srcAddr.toNat + s.cursor.toNat) 8 → i < 4 →
    0x80 ≤ (s.engineByte (s.srcAddr.toNat + s.cursor.toNat + 4 + i)).toNat →
    (∀ j, j < i → (s.engineByte (s.srcAddr.toNat + s.cursor.toNat + 4 + j)).toNat < 0x80) →
    exec .chunk s = .next (endsWith s .invalidFormat 2#32 (word i) s.cursor)

/-- R36, R41, R103: tag packing and the chunk's flag bits. -/
def Obligations.TagPackingAndFlags : Prop :=
  ∀ a b c d : Byte,
    be32 [a, b, c, d] = a ++ b ++ c ++ d ∧ (tagFlags [a, b, c, d]).getLsbD 0 = a.getLsbD 5 ∧
    (tagFlags [a, b, c, d]).getLsbD 1 = b.getLsbD 5 ∧ (tagFlags [a, b, c, d]).getLsbD 2 = c.getLsbD 5 ∧
    (tagFlags [a, b, c, d]).getLsbD 3 = d.getLsbD 5 ∧ (tagFlags [a, b, c, d]).extractLsb' 4 28 = 0#28

/-- R120: WALK over a signature and any chunks, of which the first is IHDR (or IHDR_FIRST_EN = 0) and only the last is IEND,
ends OK past the last of them. Each chunk has the CRC of its tag and data, or CRC_CHECK_EN = 0 and any CRC field. -/
def Obligations.WalkAcceptsEncodedStream : Prop :=
  ∀ (s : State) (chunks : List ChunkText) (last : ChunkText) (stream : List Byte),
    (∀ c ∈ chunks, c.ok = true ∧ c.passesCrc s.ctrl ∧ be32 c.tag ≠ 0x49454E44#32) →
    last.ok = true → last.passesCrc s.ctrl → be32 last.tag = 0x49454E44#32 →
    (s.ctrl.getLsbD 2 = true → ∃ c, (chunks ++ [last]).head? = some c ∧ be32 c.tag = 0x49484452#32) →
    stream = [0x89#8, 0x50#8, 0x4E#8, 0x47#8, 0x0D#8, 0x0A#8, 0x1A#8, 0x0A#8] ++
      (chunks ++ [last]).flatMap ChunkText.bytes →
    s.srcAddr.toNat + s.srcLen.toNat ≤ 0x100000000 → s.cursor.toNat + stream.length ≤ s.srcLen.toNat →
    Reachable s (s.srcAddr.toNat + s.cursor.toNat) stream.length →
    s.engineBytes (s.srcAddr.toNat + s.cursor.toNat) stream.length = stream →
    exec .walk s = .next (endsOk { s with
      chkLen := word last.data.length, chkType := 0x49454E44#32, chkFlags := tagFlags last.tag
      chkDataOff := word (s.cursor.toNat + stream.length - 4 - last.data.length)
      chkCrcRx := last.crc, chkCrcCalc := crc32 (last.tag ++ last.data)
      chkCount := word (chunks.length + 1), cursor := word (s.cursor.toNat + stream.length) })

/-- R120, R206: how a walk fails. A signature that is short or differs ends it as it ends SIG, with CHK_COUNT = 0. After a
signature and any good chunks that are not IEND (the first of them IHDR, or IHDR_FIRST_EN = 0), all recorded, the error of the
next chunk step ends it: WALK then leaves the state CHUNK leaves from there, so CRC_MISMATCH, TRUNCATED_STREAM,
BUFFER_OVERFLOW, OUT_OF_BOUNDS or INVALID_FORMAT exactly as CHUNK. A good first chunk that is not IHDR, with
IHDR_FIRST_EN = 1, ends it with IHDR_NOT_FIRST after that chunk is recorded. -/
def Obligations.WalkEndsAtTheFirstError : Prop :=
  (∀ s t : State, s.srcAddr.toNat + s.srcLen.toNat ≤ 0x100000000 → exec .sig s = .next t → t.code ≠ .ok →
    exec .walk s = .next { t with chkCount := 0#32 }) ∧
  (∀ (s t : State) (chunks : List ChunkText) (stream : List Byte),
    (∀ c ∈ chunks, c.ok = true ∧ c.passesCrc s.ctrl ∧ be32 c.tag ≠ 0x49454E44#32) →
    (s.ctrl.getLsbD 2 = true → ∀ c, chunks.head? = some c → be32 c.tag = 0x49484452#32) →
    stream = [0x89#8, 0x50#8, 0x4E#8, 0x47#8, 0x0D#8, 0x0A#8, 0x1A#8, 0x0A#8] ++ chunks.flatMap ChunkText.bytes →
    s.srcAddr.toNat + s.srcLen.toNat ≤ 0x100000000 → s.cursor.toNat + stream.length ≤ s.srcLen.toNat →
    Reachable s (s.srcAddr.toNat + s.cursor.toNat) stream.length →
    s.engineBytes (s.srcAddr.toNat + s.cursor.toNat) stream.length = stream →
    exec .chunk (chunks.foldl (fun u c => recorded u c.tag c.data c.crc)
      { s with chkCount := 0#32, cursor := s.cursor + 8#32 }) = .next t → t.code ≠ .ok →
    exec .walk s = .next t) ∧
  ∀ (s : State) (c : ChunkText), c.ok = true → c.passesCrc s.ctrl → be32 c.tag ≠ 0x49484452#32 →
    s.ctrl.getLsbD 2 = true →
    s.srcAddr.toNat + s.srcLen.toNat ≤ 0x100000000 → s.cursor.toNat + 20 + c.data.length ≤ s.srcLen.toNat →
    Reachable s (s.srcAddr.toNat + s.cursor.toNat) (20 + c.data.length) →
    s.engineBytes (s.srcAddr.toNat + s.cursor.toNat) (20 + c.data.length) =
      [0x89#8, 0x50#8, 0x4E#8, 0x47#8, 0x0D#8, 0x0A#8, 0x1A#8, 0x0A#8] ++ c.bytes →
    exec .walk s = .next (endsWith
      (recorded { s with chkCount := 0#32, cursor := s.cursor + 8#32 } c.tag c.data c.crc)
      .ihdrNotFirst (be32 c.tag) 0#32 (s.cursor + 8#32))

/-- R121: the bound on chunk steps is never used up: a walk with more steps allowed is the same walk. -/
def Obligations.WalkNeverRunsOut : Prop :=
  ∀ (s : State) (first : Bool) (k : Nat), walkLoop (s.walkFuel + k) first s = walkLoop s.walkFuel first s

/-- R130: CRC over the SRC range, which ignores CURSOR and CTRL; the empty range gives 0. By R69 it is refused at the first SRC
byte whose access the platform answers with an error (the field `memErrors` that says so is the model's, DESIGN CHOICE, log 23)
or that nothing backs. -/
def Obligations.CrcOutcome : Prop :=
  decodeCommand 0x00000004#32 = .instr .crc ∧
  ∀ s : State,
    (0x100000000 < s.srcAddr.toNat + s.srcLen.toNat → exec .crc s = .next (endsWith s .configError 9#32 0#32 0#32)) ∧
    (s.srcAddr.toNat + s.srcLen.toNat ≤ 0x100000000 → Reachable s s.srcAddr.toNat s.srcLen.toNat →
      exec .crc s = .next (endsOk { s with chkCrcCalc := crc32 (s.engineBytes s.srcAddr.toNat s.srcLen.toNat) })) ∧
    (s.srcAddr.toNat + s.srcLen.toNat ≤ 0x100000000 → s.srcLen = 0#32 →
      exec .crc s = .next (endsOk { s with chkCrcCalc := 0#32 })) ∧
    ∀ i, s.srcAddr.toNat + s.srcLen.toNat ≤ 0x100000000 → i < s.srcLen.toNat → Reachable s s.srcAddr.toNat i →
      (s.present (s.srcAddr.toNat + i) = true → inRegions s.memErrors (s.srcAddr.toNat + i) = true →
        exec .crc s = .refused (.accessError (s.srcAddr.toNat + i))) ∧
      (memBacked s.params (s.srcAddr.toNat + i) = false → inRegWindow s.params (s.srcAddr.toNat + i) = false →
        exec .crc s = .refused (.unbackedAddress (s.srcAddr.toNat + i)))

/-- Tier 1, a sanity statement: the check values of R100. -/
def Obligations.CrcCheckValues : Prop :=
  crc32 [] = 0x00000000#32 ∧ crc32 [0x49#8, 0x45#8, 0x4E#8, 0x44#8] = 0xAE426082#32 ∧
  crc32 [0x31#8, 0x32#8, 0x33#8, 0x34#8, 0x35#8, 0x36#8, 0x37#8, 0x38#8, 0x39#8] = 0xCBF43926#32

/-- From R100: strings of one length that differ in exactly one byte have different CRCs. -/
def Obligations.CrcSeesAnyChangedByte : Prop :=
  ∀ (before after : List Byte) (b b' : Byte), b ≠ b' → crc32 (before ++ b :: after) ≠ crc32 (before ++ b' :: after)

/-- R10, R21: no command moves CURSOR backwards, and after success it is at most SRC_LEN. -/
def Obligations.CursorOnlyMovesForward : Prop :=
  ∀ s t i, i ∈ [Instr.sig, .chunk, .walk] → exec i s = .next t →
    s.cursor.toNat ≤ t.cursor.toNat ∧ (t.code = .ok → t.cursor.toNat ≤ s.srcLen.toNat)

/-- R68, R82: what NOP and the chunk validator's commands leave alone, whatever their result. -/
def Obligations.ValidatorFrame : Prop :=
  ∀ s t i, i ∈ [Instr.nop, .sig, .chunk, .walk, .crc] → exec i s = .next t →
    KeepsOperands s t ∧ t.hostBuf = s.hostBuf ∧ (∀ a, Memory.read t.mem a = Memory.read s.mem a) ∧
    t.outLen = s.outLen ∧ t.draws = s.draws ∧ t.engine = .idle ∧ t.done = true ∧ (t.code = .ok → KeepsErrInfo s t) ∧
    (i = .nop → KeepsChunkRegs s t) ∧
    (i = .sig → KeepsChunkRegs s { t with cursor := s.cursor }) ∧
    (i = .crc → KeepsChunkRegs s { t with chkCrcCalc := s.chkCrcCalc })

/-! ### The scanline filter reconstructor -/

/-- R143, R152: every byte of a reconstructed row, from the row's own earlier bytes and the row above. -/
def Obligations.ReconstructedByteRule : Prop :=
  ∀ (i : Instr) (pred : Predictor) (bpp : Nat) (prior raw : List Byte), (i, pred) ∈ filterTable → 0 < bpp →
    (reconRow pred bpp prior [] raw).length = raw.length ∧
    ∀ x, x < raw.length →
      ((reconRow pred bpp prior [] raw).getD x 0#8).toNat =
        ((raw.getD x 0#8).toNat + pred (back (reconRow pred bpp prior [] raw) bpp x).toNat
          (prior.getD x 0#8).toNat (back prior bpp x).toNat) % 256

/-- R150: the predictor and its tie order; its result is one of its arguments and the nearest to `a + b - c`. -/
def Obligations.PaethTieOrder : Prop :=
  ∀ a b c : Nat,
    let p : Int := (a : Int) + b - c
    let pa := (p - a).natAbs
    let pb := (p - b).natAbs
    let pc := (p - c).natAbs
    (pa ≤ pb ∧ pa ≤ pc → paeth a b c = a) ∧ (¬ (pa ≤ pb ∧ pa ≤ pc) → pb ≤ pc → paeth a b c = b) ∧
    (¬ (pa ≤ pb ∧ pa ≤ pc) → ¬ pb ≤ pc → paeth a b c = c) ∧
    (paeth a b c = a ∨ paeth a b c = b ∨ paeth a b c = c) ∧
    (p - paeth a b c).natAbs ≤ pa ∧ (p - paeth a b c).natAbs ≤ pb ∧ (p - paeth a b c).natAbs ≤ pc

/-- R151 corner cases: under a zero row Paeth reconstructs as Sub; the first `bpp` bytes of any Paeth row reconstruct as
Up. -/
def Obligations.PaethAtTheEdges : Prop :=
  (∀ (bpp n : Nat) (raw : List Byte),
    reconRow paeth bpp (zeroRow n) [] raw = reconRow (fun a _ _ => a) bpp (zeroRow n) [] raw) ∧
  ∀ (bpp x : Nat) (prior raw : List Byte), x < bpp → x < raw.length →
    (reconRow paeth bpp prior [] raw).getD x 0#8 = (reconRow (fun _ b _ => b) bpp prior [] raw).getD x 0#8

/-- S-6 for rows of any length: encoding a row with any filter type and reconstructing it returns the row. -/
def Obligations.FilterRoundTrip : Prop :=
  ∀ (i : Instr) (pred : Predictor) (bpp : Nat) (prior row : List Byte), (i, pred) ∈ filterTable → 0 < bpp →
    reconRow pred bpp prior [] (filterEncode pred bpp prior row) = row

/-- R146 to R149, R151, R153: a filter type that is not on its command's last row. The row is reconstructed, written where
the command writes rows and carried forward, and the counters move on; every other byte of memory and every register
stays. The addresses stored to are `rowCells`'s. That `exec` of a filter type is one whole iteration of its command's row loop
is the model's reading (log 20). -/
def Obligations.FilterRunsOneRow : Prop :=
  ∀ (s : State) (i : Instr) (pred : Predictor) (sc : Scan) (g : Image) (more : List Image) (row : List Byte),
    (i, pred) ∈ filterTable → s.scratch.scan = some sc → sc.images = g :: more →
    (sc.row + 1 < g.height ∨ more ≠ []) →
    Reachable s (s.srcAddr.toNat + sc.inOff + 1) (rowBytes s.imgFmt g.width) →
    row = reconRow pred (bppOf s.imgFmt) s.scratch.prior []
      (s.engineBytes (s.srcAddr.toNat + sc.inOff + 1) (rowBytes s.imgFmt g.width)) →
    (∀ c ∈ rowCells s sc g row, s.reachable c.1 = true) →
    ∃ t, exec i s = .next t ∧
      t = { s with
        mem := Memory.writeAll s.mem (rowCells s sc g row)
        scratch := { s.scratch with
          cur := row
          prior := if sc.row + 1 < g.height then row else freshPrior s.imgFmt more
          scan := some { sc with
            images := if sc.row + 1 < g.height then g :: more else more
            row := if sc.row + 1 < g.height then sc.row + 1 else 0
            inOff := sc.inOff + (1 + rowBytes s.imgFmt g.width), outOff := sc.outOff + row.length } } } ∧
      ∀ a, (∀ c ∈ rowCells s sc g row, c.1 ≠ a) → Memory.read t.mem a = Memory.read s.mem a

/-- From R160, R185, R202: a filter type on its command's last row also ends the command, OUT_LEN and all. That the end of the
command belongs to the filter type's instruction is the model's reading (log 20); that host writes posted to output bytes give
way is read from R72 (log 24). -/
def Obligations.FilterEndsTheCommand : Prop :=
  ∀ (s : State) (i : Instr) (pred : Predictor) (sc : Scan) (g : Image) (row : List Byte),
    (i, pred) ∈ filterTable → s.scratch.scan = some sc → sc.images = [g] → g.height ≤ sc.row + 1 →
    Reachable s (s.srcAddr.toNat + sc.inOff + 1) (rowBytes s.imgFmt g.width) →
    row = reconRow pred (bppOf s.imgFmt) s.scratch.prior []
      (s.engineBytes (s.srcAddr.toNat + sc.inOff + 1) (rowBytes s.imgFmt g.width)) →
    (∀ c ∈ rowCells s sc g row, s.reachable c.1 = true) →
    ∃ t, exec i s = .next t ∧
      t = endsOk { s with
        mem := Memory.writeAll s.mem (rowCells s sc g row)
        outLen := word sc.needOut
        hostBuf := s.hostBuf.filter fun c => decide (OutsideOutput s sc.needOut c.1) } ∧
      (∀ a, (∀ c ∈ rowCells s sc g row, c.1 ≠ a) → Memory.read t.mem a = Memory.read s.mem a) ∧
      (Memory.wf s.mem = true → sc.scatter = false → ∀ x, x < row.length →
        Memory.read t.mem (s.dstAddr.toNat + sc.outOff + x) = row.getD x 0#8 ∧
        (sc.outOff + x < sc.needOut → t.hostByte (s.dstAddr.toNat + sc.outOff + x) = row.getD x 0#8))

/-- R144, R207: a filter-type byte above 4 ends the command with UNSUPPORTED_FILTER; every DST byte that is a memory byte
is then free (also those past the output, log 8), to the host too (log 24), and every other byte is as it was. -/
def Obligations.UnsupportedFilterByte : Prop :=
  ∀ (s : State) (w : Word) (sc : Scan) (g : Image) (more : List Image) (ft : Byte),
    s.engine = .busy w → s.inputs = [] → s.scratch.scan = some sc → sc.images = g :: more → Memory.wf s.mem = true →
    Reachable s (s.srcAddr.toNat + sc.inOff) (1 + rowBytes s.imgFmt g.width) →
    s.engineByte (s.srcAddr.toNat + sc.inOff) = ft → 5 ≤ ft.toNat →
    ∃ t, step s = .next t ∧ t.code = .unsupportedFilter ∧ t.done = true ∧ t.engine = .idle ∧
      t.errInfo0 = word ft.toNat ∧ t.errInfo1 = word sc.row ∧
      t.errInfo2 = (match g.pass with | none => 0xFFFFFFFF#32 | some p => word p) ∧
      t.outLen = s.outLen ∧ KeepsOperands s t ∧ KeepsChunkRegs s t ∧
      (∀ a, OutsideDst s a → Memory.read t.mem a = Memory.read s.mem a) ∧
      (∀ a, ¬ OutsideDst s a → s.present a = true →
        Memory.read t.mem a = Config.freeByte (s.draws + 1) a ∧ t.hostByte a = Config.freeByte (s.draws + 1) a) ∧
      PostedOutsideOutput s s.dstLen.toNat t

/-! ### The reconstruction commands -/

/-- R145: the first check that fails is reported, and nothing else happens. -/
def Obligations.ConfigChecksInOrder : Prop :=
  ∀ s i n, i ∈ [Instr.unfilter, .deinterlace, .reconstruct] → 1 ≤ n → n ≤ 10 → configFails s i n = true →
    (∀ m, m < n → configFails s i m = false) →
    exec i s = .next (endsWith s .configError (word n) 0#32 0#32)

/-- R154, R155, R181: what the commands need, written out for a baseline image and for the passes, and the length checks, in
order and before any memory access. -/
def Obligations.LengthChecks : Prop :=
  (∀ s : State, interlace s.imgFmt = 0 →
    s.needIn = s.imgHeight.toNat * (1 + rowBytes s.imgFmt s.imgWidth.toNat) ∧
    s.needUnf = s.imgHeight.toNat * rowBytes s.imgFmt s.imgWidth.toNat ∧
    s.images = [⟨none, s.imgWidth.toNat, s.imgHeight.toNat⟩] ∧ s.needOut .reconstruct = s.needUnf) ∧
  (∀ s : State, interlace s.imgFmt = 1 →
    s.needIn = ([0, 1, 2, 3, 4, 5, 6].map fun p =>
      if passWidth s.imgWidth.toNat p = 0 ∨ passHeight s.imgHeight.toNat p = 0 then 0
      else passHeight s.imgHeight.toNat p * (1 + rowBytes s.imgFmt (passWidth s.imgWidth.toNat p))).sum ∧
    s.needUnf = ([0, 1, 2, 3, 4, 5, 6].map fun p =>
      if passWidth s.imgWidth.toNat p = 0 ∨ passHeight s.imgHeight.toNat p = 0 then 0
      else passHeight s.imgHeight.toNat p * rowBytes s.imgFmt (passWidth s.imgWidth.toNat p)).sum ∧
    s.images = ([0, 1, 2, 3, 4, 5, 6].map fun p =>
      Image.mk (some p) (passWidth s.imgWidth.toNat p) (passHeight s.imgHeight.toNat p)).filter
        (fun g => decide (g.width ≠ 0) && decide (g.height ≠ 0)) ∧
    s.needOut .reconstruct = s.imgWidth.toNat * s.imgHeight.toNat * bppOf s.imgFmt) ∧
  (∀ s : State, s.needSrc .unfilter = s.needIn ∧ s.needSrc .reconstruct = s.needIn ∧ s.needSrc .deinterlace = s.needUnf ∧
    s.needOut .unfilter = s.needUnf ∧
    s.needOut .deinterlace = s.imgWidth.toNat * s.imgHeight.toNat * bppOf s.imgFmt) ∧
  ∀ s i, i ∈ [Instr.unfilter, .deinterlace, .reconstruct] → (∀ n, n < 11 → configFails s i n = false) →
    (s.srcLen.toNat < s.needSrc i →
      exec i s = .next (endsWith s .inputShort (word (min (s.needSrc i) 0xFFFFFFFF)) s.srcLen 0#32)) ∧
    (s.needSrc i ≤ s.srcLen.toNat → s.dstLen.toNat < s.needOut i →
      exec i s = .next (endsWith s .outputShort (word (min (s.needOut i) 0xFFFFFFFF)) s.dstLen 0#32))

/-- R160: UNFILTER completes and writes the reconstructed rows of every image or pass, one after another; for a baseline
image that is H rows of `row_bytes(W)` bytes (`LengthChecks` writes the passes' lengths out). By R72 and R243 the host and
every later command read what it wrote, whatever was posted before (log 24). -/
def Obligations.UnfilterWritesRows : Prop :=
  ∀ s : State, Memory.wf s.mem = true → ChecksPass s .unfilter → ReachesAll s .unfilter → FiltersLegal s →
    ∃ t, exec .unfilter s = .next t ∧ CompletedOk t ∧ t.outLen = word s.needUnf ∧
      (interlace s.imgFmt = 0 → s.images = [⟨none, s.imgWidth.toNat, s.imgHeight.toNat⟩] ∧
        t.outLen = word (s.imgHeight.toNat * rowBytes s.imgFmt s.imgWidth.toNat)) ∧
      (∀ k, k < s.needUnf → Memory.read t.mem (s.dstAddr.toNat + k) =
        (streamRows s.imgFmt s.images (s.engineBytes s.srcAddr.toNat s.needIn)).getD k 0#8) ∧
      (∀ a, OutsideOutput s s.needUnf a → Memory.read t.mem a = Memory.read s.mem a) ∧
      (∀ k, k < s.needUnf → t.hostByte (s.dstAddr.toNat + k) = Memory.read t.mem (s.dstAddr.toNat + k) ∧
        t.engineByte (s.dstAddr.toNat + k) = Memory.read t.mem (s.dstAddr.toNat + k)) ∧ PostedOutsideOutput s s.needUnf t ∧
      KeepsOperands s t ∧ KeepsChunkRegs s t ∧ KeepsErrInfo s t

/-- R174, R181: DEINTERLACE completes and puts every pixel of the concatenated pass images in its place of the grid. By R72 and
R243 the host and every later command read what it wrote, whatever was posted before (log 24). -/
def Obligations.DeinterlacePlacesPixels : Prop :=
  ∀ s : State, Memory.wf s.mem = true → ChecksPass s .deinterlace → ReachesAll s .deinterlace →
    ∃ t, exec .deinterlace s = .next t ∧ CompletedOk t ∧ t.outLen = word s.gridBytes ∧
      ScatteredFrom s t (s.engineBytes s.srcAddr.toNat s.needUnf) ∧
      (∀ a, OutsideOutput s s.gridBytes a → Memory.read t.mem a = Memory.read s.mem a) ∧
      (∀ k, k < s.gridBytes → t.hostByte (s.dstAddr.toNat + k) = Memory.read t.mem (s.dstAddr.toNat + k) ∧
        t.engineByte (s.dstAddr.toNat + k) = Memory.read t.mem (s.dstAddr.toNat + k)) ∧ PostedOutsideOutput s s.gridBytes t ∧
      KeepsOperands s t ∧ KeepsChunkRegs s t ∧ KeepsErrInfo s t

/-- R185: RECONSTRUCT completes; baseline rows are written one after another, interlaced rows are scattered. By R72 and R243
the host and every later command read what it wrote, whatever was posted before (log 24). -/
def Obligations.ReconstructWritesGrid : Prop :=
  ∀ s : State, Memory.wf s.mem = true → ChecksPass s .reconstruct → ReachesAll s .reconstruct → FiltersLegal s →
    ∃ t, exec .reconstruct s = .next t ∧ CompletedOk t ∧ t.outLen = word (s.needOut .reconstruct) ∧
      (interlace s.imgFmt = 0 → ∀ k, k < s.needUnf → Memory.read t.mem (s.dstAddr.toNat + k) =
        (streamRows s.imgFmt s.images (s.engineBytes s.srcAddr.toNat s.needIn)).getD k 0#8) ∧
      (interlace s.imgFmt = 1 →
        ScatteredFrom s t (streamRows s.imgFmt s.images (s.engineBytes s.srcAddr.toNat s.needIn))) ∧
      (∀ a, OutsideOutput s (s.needOut .reconstruct) a → Memory.read t.mem a = Memory.read s.mem a) ∧
      (∀ k, k < s.needOut .reconstruct → t.hostByte (s.dstAddr.toNat + k) = Memory.read t.mem (s.dstAddr.toNat + k) ∧
        t.engineByte (s.dstAddr.toNat + k) = Memory.read t.mem (s.dstAddr.toNat + k)) ∧ PostedOutsideOutput s (s.needOut .reconstruct) t ∧
      KeepsOperands s t ∧ KeepsChunkRegs s t ∧ KeepsErrInfo s t

/-- R185: "For INTERLACE = 0 this is UNFILTER exactly", errors and all. -/
def Obligations.BaselineReconstructIsUnfilter : Prop :=
  ∀ s : State, interlace s.imgFmt = 0 → exec .reconstruct s = exec .unfilter s

/-- R185: for INTERLACE = 1 the grid equals UNFILTER into a scratch range followed by DEINTERLACE from it. -/
def Obligations.ReconstructIsUnfilterThenDeinterlace : Prop :=
  ∀ (s t u v : State) (scratchAddr scratchLen : Word), Memory.wf s.mem = true → s.hostBuf = [] →
    interlace s.imgFmt = 1 → exec .reconstruct s = .next t → t.code = .ok →
    exec .unfilter { s with dstAddr := scratchAddr, dstLen := scratchLen } = .next u → u.code = .ok →
    exec .deinterlace { u with srcAddr := scratchAddr, srcLen := scratchLen, dstAddr := s.dstAddr, dstLen := s.dstLen }
      = .next v → v.code = .ok →
    ∀ k, k < s.gridBytes → Memory.read v.mem (s.dstAddr.toNat + k) = Memory.read t.mem (s.dstAddr.toNat + k)

/-- R68, R82, R207: what the reconstruction commands leave alone, whatever their result (posted host writes: log 24). -/
def Obligations.ReconstructionFrame : Prop :=
  ∀ s t i, i ∈ [Instr.unfilter, .deinterlace, .reconstruct] → exec i s = .next t →
    KeepsOperands s t ∧ KeepsChunkRegs s t ∧ t.engine = .idle ∧ t.done = true ∧
    (∀ a, OutsideDst s a → Memory.read t.mem a = Memory.read s.mem a) ∧
    (t.code = .ok → KeepsErrInfo s t ∧ PostedOutsideOutput s (s.needOut i) t ∧
      ∀ a, OutsideOutput s (s.needOut i) a → Memory.read t.mem a = Memory.read s.mem a) ∧
    (t.code ≠ .ok → t.outLen = s.outLen ∧ (t.code = .unsupportedFilter → PostedOutsideOutput s s.dstLen.toNat t) ∧
      (t.code ≠ .unsupportedFilter → t.mem = s.mem ∧ t.hostBuf = s.hostBuf))

/-! ### The Adam7 geometry -/

/-- R170, R171: the pass table, and that the closed form counts the grid columns and rows of a pass. -/
def Obligations.PassDimensionsCountThePoints : Prop :=
  passTable = [⟨0, 0, 8, 8⟩, ⟨4, 0, 8, 8⟩, ⟨0, 4, 4, 8⟩, ⟨2, 0, 4, 4⟩, ⟨0, 2, 2, 4⟩, ⟨1, 0, 2, 2⟩, ⟨0, 1, 1, 2⟩] ∧
  ∀ p, p < 7 → ∀ w h : Nat,
    passWidth w p = ((List.range w).filter fun x => x % (passRow p).stepX == (passRow p).startX).length ∧
    passHeight h p = ((List.range h).filter fun y => y % (passRow p).stepY == (passRow p).startY).length

/-- R170, R175: the pass table places every grid position as exactly one pixel of one pass, so the passes' pixels are W * H
in all. -/
def Obligations.PassesPartitionTheGrid : Prop :=
  passTable = [⟨0, 0, 8, 8⟩, ⟨4, 0, 8, 8⟩, ⟨0, 4, 4, 8⟩, ⟨2, 0, 4, 4⟩, ⟨0, 2, 2, 4⟩, ⟨1, 0, 2, 2⟩, ⟨0, 1, 1, 2⟩] ∧
  (∀ w h x y : Nat, x < w → y < h →
    ∃ p j i, (p < 7 ∧ j < passHeight h p ∧ i < passWidth w p ∧
        x = (passRow p).startX + i * (passRow p).stepX ∧ y = (passRow p).startY + j * (passRow p).stepY) ∧
      ∀ p' j' i', p' < 7 → j' < passHeight h p' → i' < passWidth w p' →
        x = (passRow p').startX + i' * (passRow p').stepX → y = (passRow p').startY + j' * (passRow p').stepY →
        p' = p ∧ j' = j ∧ i' = i) ∧
  ∀ w h : Nat, ((List.range 7).map fun p => passWidth w p * passHeight h p).sum = w * h
end

