-- ==== Sys2Proof/Laws/Memory.lean ====
section
/-! SUPPORT. Memory: a read after a write, and every operation keeps the canonical form. -/

namespace Sys2Proof.Machine

open Sys2Proof

@[simp] theorem Memory.read_nil (a : Nat) : Memory.read [] a = Memory.unlisted := rfl

theorem Memory.read_cons (c : Nat) (v : Byte) (m : Memory) (a : Nat) :
    Memory.read ((c, v) :: m) a = if a = c then v else Memory.read m a := rfl

/-- An address below everything listed reads as unlisted. -/
theorem Memory.read_of_lt {lo : Nat} {m : Memory} (h : Memory.wfFrom lo m = true) {a : Nat} (ha : a < lo) :
    Memory.read m a = Memory.unlisted := by
  induction m generalizing lo with
  | nil => rfl
  | cons c rest ih =>
    obtain ⟨x, v⟩ := c
    simp only [Memory.wfFrom, Bool.and_eq_true, decide_eq_true_eq] at h
    rw [Memory.read_cons, if_neg (by omega)]
    exact ih h.2 (by omega)

theorem Memory.wfFrom_mono {lo lo' : Nat} {m : Memory} (h : Memory.wfFrom lo m = true) (hl : lo' ≤ lo) :
    Memory.wfFrom lo' m = true := by
  cases m with
  | nil => rfl
  | cons c rest =>
    simp only [Memory.wfFrom, Bool.and_eq_true, decide_eq_true_eq] at h ⊢
    exact ⟨⟨⟨by omega, h.1.1.2⟩, h.1.2⟩, h.2⟩

/-- A write gives its byte at its address, when the address is not listed out of order. -/
theorem Memory.read_write_of_wfFrom {lo : Nat} {m : Memory} (h : Memory.wfFrom lo m = true) (a x : Nat) (b : Byte) :
    Memory.read (Memory.write m a b) x = if x = a then b else Memory.read m x := by
  induction m generalizing lo with
  | nil =>
    simp only [Memory.write]
    split
    · next hb => simp [hb]
    · simp [Memory.read_cons]
  | cons c rest ih =>
    obtain ⟨y, v⟩ := c
    simp only [Memory.wfFrom, Bool.and_eq_true, decide_eq_true_eq] at h
    simp only [Memory.write]
    by_cases h1 : a < y
    · rw [if_pos h1]
      split
      · next hb =>
        by_cases hx : x = a
        · subst hx
          rw [if_pos rfl, Memory.read_cons, if_neg (by omega), hb]
          exact Memory.read_of_lt h.2 (by omega)
        · rw [if_neg hx]
      · rw [Memory.read_cons]
    · rw [if_neg h1]
      by_cases h2 : a = y
      · subst h2
        rw [if_pos rfl]
        split
        · next hb =>
          by_cases hx : x = a
          · subst hx
            rw [if_pos rfl, hb]
            exact Memory.read_of_lt h.2 (by omega)
          · rw [if_neg hx, Memory.read_cons, if_neg hx]
        · rw [Memory.read_cons, Memory.read_cons]
          split <;> rfl
      · rw [if_neg h2, Memory.read_cons, Memory.read_cons, ih h.2]
        by_cases hx : x = y
        · rw [if_pos hx, if_neg (by omega), if_pos hx]
        · rw [if_neg hx, if_neg hx]

theorem Memory.write_wfFrom {lo : Nat} {m : Memory} (h : Memory.wfFrom lo m = true) {a : Nat} (hlo : lo ≤ a)
    (ha : a < 0x100000000) (b : Byte) : Memory.wfFrom lo (Memory.write m a b) = true := by
  induction m generalizing lo with
  | nil =>
    simp only [Memory.write]
    split
    · rfl
    · next hb => simp [Memory.wfFrom, hlo, ha, hb]
  | cons c rest ih =>
    obtain ⟨y, v⟩ := c
    have h' := h
    simp only [Memory.wfFrom, Bool.and_eq_true, decide_eq_true_eq] at h
    obtain ⟨⟨⟨h1, h2⟩, h3⟩, h4⟩ := h
    simp only [Memory.write]
    by_cases hy : a < y
    · rw [if_pos hy]
      split
      · exact h'
      · next hb =>
        simp only [Memory.wfFrom, Bool.and_eq_true, decide_eq_true_eq]
        exact ⟨⟨⟨hlo, ha⟩, hb⟩, ⟨⟨⟨by omega, h2⟩, h3⟩, h4⟩⟩
    · rw [if_neg hy]
      by_cases he : a = y
      · rw [if_pos he]
        split
        · exact Memory.wfFrom_mono h4 (by omega)
        · next hb =>
          simp only [Memory.wfFrom, Bool.and_eq_true, decide_eq_true_eq]
          exact ⟨⟨⟨hlo, ha⟩, hb⟩, by rw [he]; exact h4⟩
      · rw [if_neg he]
        simp only [Memory.wfFrom, Bool.and_eq_true, decide_eq_true_eq]
        exact ⟨⟨⟨h1, h2⟩, h3⟩, ih h4 (by omega)⟩

/-- Memory in its canonical form: a read after a write. -/
theorem Memory.read_write {m : Memory} (h : Memory.wf m = true) (a x : Nat) (b : Byte) :
    Memory.read (Memory.write m a b) x = if x = a then b else Memory.read m x :=
  Memory.read_write_of_wfFrom h a x b

/-- A write leaves every other address alone, whatever the memory. -/
theorem Memory.read_write_ne (m : Memory) {a x : Nat} (b : Byte) (hx : x ≠ a) :
    Memory.read (Memory.write m a b) x = Memory.read m x := by
  induction m with
  | nil =>
    simp only [Memory.write]
    split
    · rfl
    · rw [Memory.read_cons, if_neg hx]
  | cons c rest ih =>
    obtain ⟨y, v⟩ := c
    simp only [Memory.write]
    split
    · split
      · rfl
      · rw [Memory.read_cons, if_neg hx]
    · split
      · next he =>
        subst he
        split <;> simp [Memory.read_cons, hx]
      · rw [Memory.read_cons, Memory.read_cons, ih]

theorem Memory.write_wf {m : Memory} (h : Memory.wf m = true) {a : Nat} (ha : a < 0x100000000) (b : Byte) :
    Memory.wf (Memory.write m a b) = true :=
  Memory.write_wfFrom h (Nat.zero_le a) ha b

theorem Memory.writeAll_wf {cells : List Host.Cell} {m : Memory} (h : Memory.wf m = true)
    (hc : ∀ c ∈ cells, c.1 < 0x100000000) : Memory.wf (Memory.writeAll m cells) = true := by
  induction cells generalizing m with
  | nil => exact h
  | cons c rest ih =>
    obtain ⟨a, b⟩ := c
    have ha : a < 0x100000000 := hc (a, b) (List.mem_cons_self ..)
    exact ih (Memory.write_wf h ha b) fun d hd => hc d (List.mem_cons_of_mem _ hd)

/-- A list of writes leaves every address alone that it does not name. -/
theorem Memory.read_writeAll_of_not_mem {cells : List Host.Cell} {m : Memory} {x : Nat}
    (hx : ∀ c ∈ cells, c.1 ≠ x) : Memory.read (Memory.writeAll m cells) x = Memory.read m x := by
  induction cells generalizing m with
  | nil => rfl
  | cons c rest ih =>
    obtain ⟨a, b⟩ := c
    have ha : a ≠ x := hx (a, b) (List.mem_cons_self ..)
    simp only [Memory.writeAll]
    rw [ih fun d hd => hx d (List.mem_cons_of_mem _ hd), Memory.read_write_ne m b (Ne.symm ha)]

theorem Memory.writeAll_append (m : Memory) (xs ys : List Host.Cell) :
    Memory.writeAll m (xs ++ ys) = Memory.writeAll (Memory.writeAll m xs) ys := by
  induction xs generalizing m with
  | nil => rfl
  | cons c rest ih =>
    obtain ⟨a, b⟩ := c
    exact ih (Memory.write m a b)

/-- The cells of a byte string, addressed from `a` on. -/
theorem cellsAt_length (a : Nat) (bs : List Byte) : (cellsAt a bs).length = bs.length := by
  induction bs generalizing a with
  | nil => rfl
  | cons b rest ih => simp [cellsAt, ih]

theorem mem_cellsAt {a : Nat} {bs : List Byte} {c : Host.Cell} (h : c ∈ cellsAt a bs) :
    a ≤ c.1 ∧ c.1 < a + bs.length := by
  induction bs generalizing a with
  | nil => cases h
  | cons b rest ih =>
    simp only [cellsAt, List.mem_cons] at h
    rcases h with rfl | h
    · simp
    · have := ih h
      simp only [List.length_cons]
      omega

end Sys2Proof.Machine
end

