-- ==== Sys2Proof/Laws/State.lean ====
section
/-! SUPPORT. One lemma per field per update of the state, so that no later proof unfolds a record update. -/

namespace Sys2Proof.Machine

open Sys2Proof

@[simp] theorem State.complete_ctrl (s : State) : s.complete.ctrl = s.ctrl := rfl
@[simp] theorem State.complete_cmd (s : State) : s.complete.cmd = s.cmd := rfl
@[simp] theorem State.complete_done (s : State) : s.complete.done = true := rfl
@[simp] theorem State.complete_rejected (s : State) : s.complete.rejected = s.rejected := rfl
@[simp] theorem State.complete_code (s : State) : s.complete.code = .ok := rfl
@[simp] theorem State.complete_srcAddr (s : State) : s.complete.srcAddr = s.srcAddr := rfl
@[simp] theorem State.complete_srcLen (s : State) : s.complete.srcLen = s.srcLen := rfl
@[simp] theorem State.complete_dstAddr (s : State) : s.complete.dstAddr = s.dstAddr := rfl
@[simp] theorem State.complete_dstLen (s : State) : s.complete.dstLen = s.dstLen := rfl
@[simp] theorem State.complete_cursor (s : State) : s.complete.cursor = s.cursor := rfl
@[simp] theorem State.complete_imgWidth (s : State) : s.complete.imgWidth = s.imgWidth := rfl
@[simp] theorem State.complete_imgHeight (s : State) : s.complete.imgHeight = s.imgHeight := rfl
@[simp] theorem State.complete_imgFmt (s : State) : s.complete.imgFmt = s.imgFmt := rfl
@[simp] theorem State.complete_chkLen (s : State) : s.complete.chkLen = s.chkLen := rfl
@[simp] theorem State.complete_chkType (s : State) : s.complete.chkType = s.chkType := rfl
@[simp] theorem State.complete_chkFlags (s : State) : s.complete.chkFlags = s.chkFlags := rfl
@[simp] theorem State.complete_chkDataOff (s : State) : s.complete.chkDataOff = s.chkDataOff := rfl
@[simp] theorem State.complete_chkCrcRx (s : State) : s.complete.chkCrcRx = s.chkCrcRx := rfl
@[simp] theorem State.complete_chkCrcCalc (s : State) : s.complete.chkCrcCalc = s.chkCrcCalc := rfl
@[simp] theorem State.complete_chkCount (s : State) : s.complete.chkCount = s.chkCount := rfl
@[simp] theorem State.complete_errInfo0 (s : State) : s.complete.errInfo0 = s.errInfo0 := rfl
@[simp] theorem State.complete_errInfo1 (s : State) : s.complete.errInfo1 = s.errInfo1 := rfl
@[simp] theorem State.complete_errInfo2 (s : State) : s.complete.errInfo2 = s.errInfo2 := rfl
@[simp] theorem State.complete_outLen (s : State) : s.complete.outLen = s.outLen := rfl
@[simp] theorem State.complete_engine (s : State) : s.complete.engine = .idle := rfl
@[simp] theorem State.complete_scratch (s : State) : s.complete.scratch = Scratch.empty := rfl
@[simp] theorem State.complete_mem (s : State) : s.complete.mem = s.mem := rfl
@[simp] theorem State.complete_hostBuf (s : State) : s.complete.hostBuf = s.hostBuf := rfl
@[simp] theorem State.complete_rst (s : State) : s.complete.rst = s.rst := rfl
@[simp] theorem State.complete_inputs (s : State) : s.complete.inputs = s.inputs := rfl
@[simp] theorem State.complete_response (s : State) : s.complete.response = s.response := rfl
@[simp] theorem State.complete_params (s : State) : s.complete.params = s.params := rfl
@[simp] theorem State.complete_memErrors (s : State) : s.complete.memErrors = s.memErrors := rfl
@[simp] theorem State.complete_draws (s : State) : s.complete.draws = s.draws := rfl

@[simp] theorem State.completeOutput_ctrl (s : State) (n : Nat) : (s.completeOutput n).ctrl = s.ctrl := rfl
@[simp] theorem State.completeOutput_cmd (s : State) (n : Nat) : (s.completeOutput n).cmd = s.cmd := rfl
@[simp] theorem State.completeOutput_done (s : State) (n : Nat) : (s.completeOutput n).done = true := rfl
@[simp] theorem State.completeOutput_rejected (s : State) (n : Nat) : (s.completeOutput n).rejected = s.rejected := rfl
@[simp] theorem State.completeOutput_code (s : State) (n : Nat) : (s.completeOutput n).code = .ok := rfl
@[simp] theorem State.completeOutput_srcAddr (s : State) (n : Nat) : (s.completeOutput n).srcAddr = s.srcAddr := rfl
@[simp] theorem State.completeOutput_srcLen (s : State) (n : Nat) : (s.completeOutput n).srcLen = s.srcLen := rfl
@[simp] theorem State.completeOutput_dstAddr (s : State) (n : Nat) : (s.completeOutput n).dstAddr = s.dstAddr := rfl
@[simp] theorem State.completeOutput_dstLen (s : State) (n : Nat) : (s.completeOutput n).dstLen = s.dstLen := rfl
@[simp] theorem State.completeOutput_cursor (s : State) (n : Nat) : (s.completeOutput n).cursor = s.cursor := rfl
@[simp] theorem State.completeOutput_imgWidth (s : State) (n : Nat) : (s.completeOutput n).imgWidth = s.imgWidth := rfl
@[simp] theorem State.completeOutput_imgHeight (s : State) (n : Nat) : (s.completeOutput n).imgHeight = s.imgHeight := rfl
@[simp] theorem State.completeOutput_imgFmt (s : State) (n : Nat) : (s.completeOutput n).imgFmt = s.imgFmt := rfl
@[simp] theorem State.completeOutput_chkLen (s : State) (n : Nat) : (s.completeOutput n).chkLen = s.chkLen := rfl
@[simp] theorem State.completeOutput_chkType (s : State) (n : Nat) : (s.completeOutput n).chkType = s.chkType := rfl
@[simp] theorem State.completeOutput_chkFlags (s : State) (n : Nat) : (s.completeOutput n).chkFlags = s.chkFlags := rfl
@[simp] theorem State.completeOutput_chkDataOff (s : State) (n : Nat) : (s.completeOutput n).chkDataOff = s.chkDataOff := rfl
@[simp] theorem State.completeOutput_chkCrcRx (s : State) (n : Nat) : (s.completeOutput n).chkCrcRx = s.chkCrcRx := rfl
@[simp] theorem State.completeOutput_chkCrcCalc (s : State) (n : Nat) : (s.completeOutput n).chkCrcCalc = s.chkCrcCalc := rfl
@[simp] theorem State.completeOutput_chkCount (s : State) (n : Nat) : (s.completeOutput n).chkCount = s.chkCount := rfl
@[simp] theorem State.completeOutput_errInfo0 (s : State) (n : Nat) : (s.completeOutput n).errInfo0 = s.errInfo0 := rfl
@[simp] theorem State.completeOutput_errInfo1 (s : State) (n : Nat) : (s.completeOutput n).errInfo1 = s.errInfo1 := rfl
@[simp] theorem State.completeOutput_errInfo2 (s : State) (n : Nat) : (s.completeOutput n).errInfo2 = s.errInfo2 := rfl
@[simp] theorem State.completeOutput_outLen (s : State) (n : Nat) : (s.completeOutput n).outLen = word n := rfl
@[simp] theorem State.completeOutput_engine (s : State) (n : Nat) : (s.completeOutput n).engine = .idle := rfl
@[simp] theorem State.completeOutput_scratch (s : State) (n : Nat) : (s.completeOutput n).scratch = Scratch.empty := rfl
@[simp] theorem State.completeOutput_mem (s : State) (n : Nat) : (s.completeOutput n).mem = s.mem := rfl
@[simp] theorem State.completeOutput_hostBuf (s : State) (n : Nat) :
    (s.completeOutput n).hostBuf = postedOutside s.dstAddr.toNat n s.hostBuf := rfl
@[simp] theorem State.completeOutput_rst (s : State) (n : Nat) : (s.completeOutput n).rst = s.rst := rfl
@[simp] theorem State.completeOutput_inputs (s : State) (n : Nat) : (s.completeOutput n).inputs = s.inputs := rfl
@[simp] theorem State.completeOutput_response (s : State) (n : Nat) : (s.completeOutput n).response = s.response := rfl
@[simp] theorem State.completeOutput_params (s : State) (n : Nat) : (s.completeOutput n).params = s.params := rfl
@[simp] theorem State.completeOutput_memErrors (s : State) (n : Nat) : (s.completeOutput n).memErrors = s.memErrors := rfl
@[simp] theorem State.completeOutput_draws (s : State) (n : Nat) : (s.completeOutput n).draws = s.draws := rfl

@[simp] theorem State.raise_ctrl (s : State) (e : Error) : (s.raise e).ctrl = s.ctrl := rfl
@[simp] theorem State.raise_cmd (s : State) (e : Error) : (s.raise e).cmd = s.cmd := rfl
@[simp] theorem State.raise_done (s : State) (e : Error) : (s.raise e).done = true := rfl
@[simp] theorem State.raise_rejected (s : State) (e : Error) : (s.raise e).rejected = s.rejected := rfl
@[simp] theorem State.raise_code (s : State) (e : Error) : (s.raise e).code = e.code := rfl
@[simp] theorem State.raise_srcAddr (s : State) (e : Error) : (s.raise e).srcAddr = s.srcAddr := rfl
@[simp] theorem State.raise_srcLen (s : State) (e : Error) : (s.raise e).srcLen = s.srcLen := rfl
@[simp] theorem State.raise_dstAddr (s : State) (e : Error) : (s.raise e).dstAddr = s.dstAddr := rfl
@[simp] theorem State.raise_dstLen (s : State) (e : Error) : (s.raise e).dstLen = s.dstLen := rfl
@[simp] theorem State.raise_cursor (s : State) (e : Error) : (s.raise e).cursor = s.cursor := rfl
@[simp] theorem State.raise_imgWidth (s : State) (e : Error) : (s.raise e).imgWidth = s.imgWidth := rfl
@[simp] theorem State.raise_imgHeight (s : State) (e : Error) : (s.raise e).imgHeight = s.imgHeight := rfl
@[simp] theorem State.raise_imgFmt (s : State) (e : Error) : (s.raise e).imgFmt = s.imgFmt := rfl
@[simp] theorem State.raise_chkLen (s : State) (e : Error) : (s.raise e).chkLen = s.chkLen := rfl
@[simp] theorem State.raise_chkType (s : State) (e : Error) : (s.raise e).chkType = s.chkType := rfl
@[simp] theorem State.raise_chkFlags (s : State) (e : Error) : (s.raise e).chkFlags = s.chkFlags := rfl
@[simp] theorem State.raise_chkDataOff (s : State) (e : Error) : (s.raise e).chkDataOff = s.chkDataOff := rfl
@[simp] theorem State.raise_chkCrcRx (s : State) (e : Error) : (s.raise e).chkCrcRx = s.chkCrcRx := rfl
@[simp] theorem State.raise_chkCrcCalc (s : State) (e : Error) : (s.raise e).chkCrcCalc = s.chkCrcCalc := rfl
@[simp] theorem State.raise_chkCount (s : State) (e : Error) : (s.raise e).chkCount = s.chkCount := rfl
@[simp] theorem State.raise_errInfo0 (s : State) (e : Error) : (s.raise e).errInfo0 = e.info0 := rfl
@[simp] theorem State.raise_errInfo1 (s : State) (e : Error) : (s.raise e).errInfo1 = e.info1 := rfl
@[simp] theorem State.raise_errInfo2 (s : State) (e : Error) : (s.raise e).errInfo2 = e.info2 := rfl
@[simp] theorem State.raise_outLen (s : State) (e : Error) : (s.raise e).outLen = s.outLen := rfl
@[simp] theorem State.raise_engine (s : State) (e : Error) : (s.raise e).engine = .idle := rfl
@[simp] theorem State.raise_scratch (s : State) (e : Error) : (s.raise e).scratch = Scratch.empty := rfl
@[simp] theorem State.raise_mem (s : State) (e : Error) : (s.raise e).mem = s.mem := rfl
@[simp] theorem State.raise_hostBuf (s : State) (e : Error) : (s.raise e).hostBuf = s.hostBuf := rfl
@[simp] theorem State.raise_rst (s : State) (e : Error) : (s.raise e).rst = s.rst := rfl
@[simp] theorem State.raise_inputs (s : State) (e : Error) : (s.raise e).inputs = s.inputs := rfl
@[simp] theorem State.raise_response (s : State) (e : Error) : (s.raise e).response = s.response := rfl
@[simp] theorem State.raise_params (s : State) (e : Error) : (s.raise e).params = s.params := rfl
@[simp] theorem State.raise_memErrors (s : State) (e : Error) : (s.raise e).memErrors = s.memErrors := rfl
@[simp] theorem State.raise_draws (s : State) (e : Error) : (s.raise e).draws = s.draws := rfl

@[simp] theorem State.accept_ctrl (s : State) (w : Word) : (s.accept w).ctrl = s.ctrl := rfl
@[simp] theorem State.accept_cmd (s : State) (w : Word) : (s.accept w).cmd = w := rfl
@[simp] theorem State.accept_done (s : State) (w : Word) : (s.accept w).done = false := rfl
@[simp] theorem State.accept_rejected (s : State) (w : Word) : (s.accept w).rejected = s.rejected := rfl
@[simp] theorem State.accept_code (s : State) (w : Word) : (s.accept w).code = .ok := rfl
@[simp] theorem State.accept_srcAddr (s : State) (w : Word) : (s.accept w).srcAddr = s.srcAddr := rfl
@[simp] theorem State.accept_srcLen (s : State) (w : Word) : (s.accept w).srcLen = s.srcLen := rfl
@[simp] theorem State.accept_dstAddr (s : State) (w : Word) : (s.accept w).dstAddr = s.dstAddr := rfl
@[simp] theorem State.accept_dstLen (s : State) (w : Word) : (s.accept w).dstLen = s.dstLen := rfl
@[simp] theorem State.accept_cursor (s : State) (w : Word) : (s.accept w).cursor = s.cursor := rfl
@[simp] theorem State.accept_imgWidth (s : State) (w : Word) : (s.accept w).imgWidth = s.imgWidth := rfl
@[simp] theorem State.accept_imgHeight (s : State) (w : Word) : (s.accept w).imgHeight = s.imgHeight := rfl
@[simp] theorem State.accept_imgFmt (s : State) (w : Word) : (s.accept w).imgFmt = s.imgFmt := rfl
@[simp] theorem State.accept_chkLen (s : State) (w : Word) : (s.accept w).chkLen = s.chkLen := rfl
@[simp] theorem State.accept_chkType (s : State) (w : Word) : (s.accept w).chkType = s.chkType := rfl
@[simp] theorem State.accept_chkFlags (s : State) (w : Word) : (s.accept w).chkFlags = s.chkFlags := rfl
@[simp] theorem State.accept_chkDataOff (s : State) (w : Word) : (s.accept w).chkDataOff = s.chkDataOff := rfl
@[simp] theorem State.accept_chkCrcRx (s : State) (w : Word) : (s.accept w).chkCrcRx = s.chkCrcRx := rfl
@[simp] theorem State.accept_chkCrcCalc (s : State) (w : Word) : (s.accept w).chkCrcCalc = s.chkCrcCalc := rfl
@[simp] theorem State.accept_chkCount (s : State) (w : Word) : (s.accept w).chkCount = s.chkCount := rfl
@[simp] theorem State.accept_errInfo0 (s : State) (w : Word) : (s.accept w).errInfo0 = 0#32 := rfl
@[simp] theorem State.accept_errInfo1 (s : State) (w : Word) : (s.accept w).errInfo1 = 0#32 := rfl
@[simp] theorem State.accept_errInfo2 (s : State) (w : Word) : (s.accept w).errInfo2 = 0#32 := rfl
@[simp] theorem State.accept_outLen (s : State) (w : Word) : (s.accept w).outLen = 0#32 := rfl
@[simp] theorem State.accept_engine (s : State) (w : Word) : (s.accept w).engine = .busy w := rfl
@[simp] theorem State.accept_scratch (s : State) (w : Word) : (s.accept w).scratch = Scratch.empty := rfl
@[simp] theorem State.accept_mem (s : State) (w : Word) : (s.accept w).mem = s.mem := rfl
@[simp] theorem State.accept_hostBuf (s : State) (w : Word) : (s.accept w).hostBuf = s.hostBuf := rfl
@[simp] theorem State.accept_rst (s : State) (w : Word) : (s.accept w).rst = s.rst := rfl
@[simp] theorem State.accept_inputs (s : State) (w : Word) : (s.accept w).inputs = s.inputs := rfl
@[simp] theorem State.accept_response (s : State) (w : Word) : (s.accept w).response = s.response := rfl
@[simp] theorem State.accept_params (s : State) (w : Word) : (s.accept w).params = s.params := rfl
@[simp] theorem State.accept_memErrors (s : State) (w : Word) : (s.accept w).memErrors = s.memErrors := rfl
@[simp] theorem State.accept_draws (s : State) (w : Word) : (s.accept w).draws = s.draws + 1 := rfl

@[simp] theorem State.ack_ctrl (s : State) (v : Word) : (s.ack v).ctrl = s.ctrl := rfl
@[simp] theorem State.ack_cmd (s : State) (v : Word) : (s.ack v).cmd = s.cmd := rfl
@[simp] theorem State.ack_done (s : State) (v : Word) : (s.ack v).done = (s.done && !v.getLsbD 1) := rfl
@[simp] theorem State.ack_rejected (s : State) (v : Word) : (s.ack v).rejected = (s.rejected && !v.getLsbD 3) := rfl
@[simp] theorem State.ack_code (s : State) (v : Word) : (s.ack v).code = s.code := rfl
@[simp] theorem State.ack_srcAddr (s : State) (v : Word) : (s.ack v).srcAddr = s.srcAddr := rfl
@[simp] theorem State.ack_srcLen (s : State) (v : Word) : (s.ack v).srcLen = s.srcLen := rfl
@[simp] theorem State.ack_dstAddr (s : State) (v : Word) : (s.ack v).dstAddr = s.dstAddr := rfl
@[simp] theorem State.ack_dstLen (s : State) (v : Word) : (s.ack v).dstLen = s.dstLen := rfl
@[simp] theorem State.ack_cursor (s : State) (v : Word) : (s.ack v).cursor = s.cursor := rfl
@[simp] theorem State.ack_imgWidth (s : State) (v : Word) : (s.ack v).imgWidth = s.imgWidth := rfl
@[simp] theorem State.ack_imgHeight (s : State) (v : Word) : (s.ack v).imgHeight = s.imgHeight := rfl
@[simp] theorem State.ack_imgFmt (s : State) (v : Word) : (s.ack v).imgFmt = s.imgFmt := rfl
@[simp] theorem State.ack_chkLen (s : State) (v : Word) : (s.ack v).chkLen = s.chkLen := rfl
@[simp] theorem State.ack_chkType (s : State) (v : Word) : (s.ack v).chkType = s.chkType := rfl
@[simp] theorem State.ack_chkFlags (s : State) (v : Word) : (s.ack v).chkFlags = s.chkFlags := rfl
@[simp] theorem State.ack_chkDataOff (s : State) (v : Word) : (s.ack v).chkDataOff = s.chkDataOff := rfl
@[simp] theorem State.ack_chkCrcRx (s : State) (v : Word) : (s.ack v).chkCrcRx = s.chkCrcRx := rfl
@[simp] theorem State.ack_chkCrcCalc (s : State) (v : Word) : (s.ack v).chkCrcCalc = s.chkCrcCalc := rfl
@[simp] theorem State.ack_chkCount (s : State) (v : Word) : (s.ack v).chkCount = s.chkCount := rfl
@[simp] theorem State.ack_errInfo0 (s : State) (v : Word) : (s.ack v).errInfo0 = s.errInfo0 := rfl
@[simp] theorem State.ack_errInfo1 (s : State) (v : Word) : (s.ack v).errInfo1 = s.errInfo1 := rfl
@[simp] theorem State.ack_errInfo2 (s : State) (v : Word) : (s.ack v).errInfo2 = s.errInfo2 := rfl
@[simp] theorem State.ack_outLen (s : State) (v : Word) : (s.ack v).outLen = s.outLen := rfl
@[simp] theorem State.ack_engine (s : State) (v : Word) : (s.ack v).engine = s.engine := rfl
@[simp] theorem State.ack_scratch (s : State) (v : Word) : (s.ack v).scratch = s.scratch := rfl
@[simp] theorem State.ack_mem (s : State) (v : Word) : (s.ack v).mem = s.mem := rfl
@[simp] theorem State.ack_hostBuf (s : State) (v : Word) : (s.ack v).hostBuf = s.hostBuf := rfl
@[simp] theorem State.ack_rst (s : State) (v : Word) : (s.ack v).rst = s.rst := rfl
@[simp] theorem State.ack_inputs (s : State) (v : Word) : (s.ack v).inputs = s.inputs := rfl
@[simp] theorem State.ack_response (s : State) (v : Word) : (s.ack v).response = s.response := rfl
@[simp] theorem State.ack_params (s : State) (v : Word) : (s.ack v).params = s.params := rfl
@[simp] theorem State.ack_memErrors (s : State) (v : Word) : (s.ack v).memErrors = s.memErrors := rfl
@[simp] theorem State.ack_draws (s : State) (v : Word) : (s.ack v).draws = s.draws := rfl

@[simp] theorem State.drawDst_ctrl (s : State) : s.drawDst.ctrl = s.ctrl := rfl
@[simp] theorem State.drawDst_cmd (s : State) : s.drawDst.cmd = s.cmd := rfl
@[simp] theorem State.drawDst_done (s : State) : s.drawDst.done = s.done := rfl
@[simp] theorem State.drawDst_rejected (s : State) : s.drawDst.rejected = s.rejected := rfl
@[simp] theorem State.drawDst_code (s : State) : s.drawDst.code = s.code := rfl
@[simp] theorem State.drawDst_srcAddr (s : State) : s.drawDst.srcAddr = s.srcAddr := rfl
@[simp] theorem State.drawDst_srcLen (s : State) : s.drawDst.srcLen = s.srcLen := rfl
@[simp] theorem State.drawDst_dstAddr (s : State) : s.drawDst.dstAddr = s.dstAddr := rfl
@[simp] theorem State.drawDst_dstLen (s : State) : s.drawDst.dstLen = s.dstLen := rfl
@[simp] theorem State.drawDst_cursor (s : State) : s.drawDst.cursor = s.cursor := rfl
@[simp] theorem State.drawDst_imgWidth (s : State) : s.drawDst.imgWidth = s.imgWidth := rfl
@[simp] theorem State.drawDst_imgHeight (s : State) : s.drawDst.imgHeight = s.imgHeight := rfl
@[simp] theorem State.drawDst_imgFmt (s : State) : s.drawDst.imgFmt = s.imgFmt := rfl
@[simp] theorem State.drawDst_chkLen (s : State) : s.drawDst.chkLen = s.chkLen := rfl
@[simp] theorem State.drawDst_chkType (s : State) : s.drawDst.chkType = s.chkType := rfl
@[simp] theorem State.drawDst_chkFlags (s : State) : s.drawDst.chkFlags = s.chkFlags := rfl
@[simp] theorem State.drawDst_chkDataOff (s : State) : s.drawDst.chkDataOff = s.chkDataOff := rfl
@[simp] theorem State.drawDst_chkCrcRx (s : State) : s.drawDst.chkCrcRx = s.chkCrcRx := rfl
@[simp] theorem State.drawDst_chkCrcCalc (s : State) : s.drawDst.chkCrcCalc = s.chkCrcCalc := rfl
@[simp] theorem State.drawDst_chkCount (s : State) : s.drawDst.chkCount = s.chkCount := rfl
@[simp] theorem State.drawDst_errInfo0 (s : State) : s.drawDst.errInfo0 = s.errInfo0 := rfl
@[simp] theorem State.drawDst_errInfo1 (s : State) : s.drawDst.errInfo1 = s.errInfo1 := rfl
@[simp] theorem State.drawDst_errInfo2 (s : State) : s.drawDst.errInfo2 = s.errInfo2 := rfl
@[simp] theorem State.drawDst_outLen (s : State) : s.drawDst.outLen = s.outLen := rfl
@[simp] theorem State.drawDst_engine (s : State) : s.drawDst.engine = s.engine := rfl
@[simp] theorem State.drawDst_scratch (s : State) : s.drawDst.scratch = s.scratch := rfl
@[simp] theorem State.drawDst_hostBuf (s : State) :
    s.drawDst.hostBuf = postedOutside s.dstAddr.toNat s.dstLen.toNat s.hostBuf := rfl
@[simp] theorem State.drawDst_rst (s : State) : s.drawDst.rst = s.rst := rfl
@[simp] theorem State.drawDst_inputs (s : State) : s.drawDst.inputs = s.inputs := rfl
@[simp] theorem State.drawDst_response (s : State) : s.drawDst.response = s.response := rfl
@[simp] theorem State.drawDst_params (s : State) : s.drawDst.params = s.params := rfl
@[simp] theorem State.drawDst_memErrors (s : State) : s.drawDst.memErrors = s.memErrors := rfl
@[simp] theorem State.drawDst_draws (s : State) : s.drawDst.draws = s.draws + 1 := rfl

@[simp] theorem State.withPos_ctrl (s : State) (n : Nat) : (s.withPos n).ctrl = s.ctrl := rfl
@[simp] theorem State.withPos_cmd (s : State) (n : Nat) : (s.withPos n).cmd = s.cmd := rfl
@[simp] theorem State.withPos_done (s : State) (n : Nat) : (s.withPos n).done = s.done := rfl
@[simp] theorem State.withPos_rejected (s : State) (n : Nat) : (s.withPos n).rejected = s.rejected := rfl
@[simp] theorem State.withPos_code (s : State) (n : Nat) : (s.withPos n).code = s.code := rfl
@[simp] theorem State.withPos_srcAddr (s : State) (n : Nat) : (s.withPos n).srcAddr = s.srcAddr := rfl
@[simp] theorem State.withPos_srcLen (s : State) (n : Nat) : (s.withPos n).srcLen = s.srcLen := rfl
@[simp] theorem State.withPos_dstAddr (s : State) (n : Nat) : (s.withPos n).dstAddr = s.dstAddr := rfl
@[simp] theorem State.withPos_dstLen (s : State) (n : Nat) : (s.withPos n).dstLen = s.dstLen := rfl
@[simp] theorem State.withPos_cursor (s : State) (n : Nat) : (s.withPos n).cursor = s.cursor := rfl
@[simp] theorem State.withPos_imgWidth (s : State) (n : Nat) : (s.withPos n).imgWidth = s.imgWidth := rfl
@[simp] theorem State.withPos_imgHeight (s : State) (n : Nat) : (s.withPos n).imgHeight = s.imgHeight := rfl
@[simp] theorem State.withPos_imgFmt (s : State) (n : Nat) : (s.withPos n).imgFmt = s.imgFmt := rfl
@[simp] theorem State.withPos_chkLen (s : State) (n : Nat) : (s.withPos n).chkLen = s.chkLen := rfl
@[simp] theorem State.withPos_chkType (s : State) (n : Nat) : (s.withPos n).chkType = s.chkType := rfl
@[simp] theorem State.withPos_chkFlags (s : State) (n : Nat) : (s.withPos n).chkFlags = s.chkFlags := rfl
@[simp] theorem State.withPos_chkDataOff (s : State) (n : Nat) : (s.withPos n).chkDataOff = s.chkDataOff := rfl
@[simp] theorem State.withPos_chkCrcRx (s : State) (n : Nat) : (s.withPos n).chkCrcRx = s.chkCrcRx := rfl
@[simp] theorem State.withPos_chkCrcCalc (s : State) (n : Nat) : (s.withPos n).chkCrcCalc = s.chkCrcCalc := rfl
@[simp] theorem State.withPos_chkCount (s : State) (n : Nat) : (s.withPos n).chkCount = s.chkCount := rfl
@[simp] theorem State.withPos_errInfo0 (s : State) (n : Nat) : (s.withPos n).errInfo0 = s.errInfo0 := rfl
@[simp] theorem State.withPos_errInfo1 (s : State) (n : Nat) : (s.withPos n).errInfo1 = s.errInfo1 := rfl
@[simp] theorem State.withPos_errInfo2 (s : State) (n : Nat) : (s.withPos n).errInfo2 = s.errInfo2 := rfl
@[simp] theorem State.withPos_outLen (s : State) (n : Nat) : (s.withPos n).outLen = s.outLen := rfl
@[simp] theorem State.withPos_engine (s : State) (n : Nat) : (s.withPos n).engine = s.engine := rfl
@[simp] theorem State.withPos_scratch (s : State) (n : Nat) : (s.withPos n).scratch = { s.scratch with pos := n } := rfl
@[simp] theorem State.withPos_mem (s : State) (n : Nat) : (s.withPos n).mem = s.mem := rfl
@[simp] theorem State.withPos_hostBuf (s : State) (n : Nat) : (s.withPos n).hostBuf = s.hostBuf := rfl
@[simp] theorem State.withPos_rst (s : State) (n : Nat) : (s.withPos n).rst = s.rst := rfl
@[simp] theorem State.withPos_inputs (s : State) (n : Nat) : (s.withPos n).inputs = s.inputs := rfl
@[simp] theorem State.withPos_response (s : State) (n : Nat) : (s.withPos n).response = s.response := rfl
@[simp] theorem State.withPos_params (s : State) (n : Nat) : (s.withPos n).params = s.params := rfl
@[simp] theorem State.withPos_memErrors (s : State) (n : Nat) : (s.withPos n).memErrors = s.memErrors := rfl
@[simp] theorem State.withPos_draws (s : State) (n : Nat) : (s.withPos n).draws = s.draws := rfl

@[simp] theorem State.withCursor_ctrl (s : State) : s.withCursor.ctrl = s.ctrl := rfl
@[simp] theorem State.withCursor_cmd (s : State) : s.withCursor.cmd = s.cmd := rfl
@[simp] theorem State.withCursor_done (s : State) : s.withCursor.done = s.done := rfl
@[simp] theorem State.withCursor_rejected (s : State) : s.withCursor.rejected = s.rejected := rfl
@[simp] theorem State.withCursor_code (s : State) : s.withCursor.code = s.code := rfl
@[simp] theorem State.withCursor_srcAddr (s : State) : s.withCursor.srcAddr = s.srcAddr := rfl
@[simp] theorem State.withCursor_srcLen (s : State) : s.withCursor.srcLen = s.srcLen := rfl
@[simp] theorem State.withCursor_dstAddr (s : State) : s.withCursor.dstAddr = s.dstAddr := rfl
@[simp] theorem State.withCursor_dstLen (s : State) : s.withCursor.dstLen = s.dstLen := rfl
@[simp] theorem State.withCursor_cursor (s : State) : s.withCursor.cursor = word s.scratch.pos := rfl
@[simp] theorem State.withCursor_imgWidth (s : State) : s.withCursor.imgWidth = s.imgWidth := rfl
@[simp] theorem State.withCursor_imgHeight (s : State) : s.withCursor.imgHeight = s.imgHeight := rfl
@[simp] theorem State.withCursor_imgFmt (s : State) : s.withCursor.imgFmt = s.imgFmt := rfl
@[simp] theorem State.withCursor_chkLen (s : State) : s.withCursor.chkLen = s.chkLen := rfl
@[simp] theorem State.withCursor_chkType (s : State) : s.withCursor.chkType = s.chkType := rfl
@[simp] theorem State.withCursor_chkFlags (s : State) : s.withCursor.chkFlags = s.chkFlags := rfl
@[simp] theorem State.withCursor_chkDataOff (s : State) : s.withCursor.chkDataOff = s.chkDataOff := rfl
@[simp] theorem State.withCursor_chkCrcRx (s : State) : s.withCursor.chkCrcRx = s.chkCrcRx := rfl
@[simp] theorem State.withCursor_chkCrcCalc (s : State) : s.withCursor.chkCrcCalc = s.chkCrcCalc := rfl
@[simp] theorem State.withCursor_chkCount (s : State) : s.withCursor.chkCount = s.chkCount := rfl
@[simp] theorem State.withCursor_errInfo0 (s : State) : s.withCursor.errInfo0 = s.errInfo0 := rfl
@[simp] theorem State.withCursor_errInfo1 (s : State) : s.withCursor.errInfo1 = s.errInfo1 := rfl
@[simp] theorem State.withCursor_errInfo2 (s : State) : s.withCursor.errInfo2 = s.errInfo2 := rfl
@[simp] theorem State.withCursor_outLen (s : State) : s.withCursor.outLen = s.outLen := rfl
@[simp] theorem State.withCursor_engine (s : State) : s.withCursor.engine = s.engine := rfl
@[simp] theorem State.withCursor_scratch (s : State) : s.withCursor.scratch = s.scratch := rfl
@[simp] theorem State.withCursor_mem (s : State) : s.withCursor.mem = s.mem := rfl
@[simp] theorem State.withCursor_hostBuf (s : State) : s.withCursor.hostBuf = s.hostBuf := rfl
@[simp] theorem State.withCursor_rst (s : State) : s.withCursor.rst = s.rst := rfl
@[simp] theorem State.withCursor_inputs (s : State) : s.withCursor.inputs = s.inputs := rfl
@[simp] theorem State.withCursor_response (s : State) : s.withCursor.response = s.response := rfl
@[simp] theorem State.withCursor_params (s : State) : s.withCursor.params = s.params := rfl
@[simp] theorem State.withCursor_memErrors (s : State) : s.withCursor.memErrors = s.memErrors := rfl
@[simp] theorem State.withCursor_draws (s : State) : s.withCursor.draws = s.draws := rfl

@[simp] theorem State.fromCursor_ctrl (s : State) : s.fromCursor.ctrl = s.ctrl := rfl
@[simp] theorem State.fromCursor_cmd (s : State) : s.fromCursor.cmd = s.cmd := rfl
@[simp] theorem State.fromCursor_done (s : State) : s.fromCursor.done = s.done := rfl
@[simp] theorem State.fromCursor_rejected (s : State) : s.fromCursor.rejected = s.rejected := rfl
@[simp] theorem State.fromCursor_code (s : State) : s.fromCursor.code = s.code := rfl
@[simp] theorem State.fromCursor_srcAddr (s : State) : s.fromCursor.srcAddr = s.srcAddr := rfl
@[simp] theorem State.fromCursor_srcLen (s : State) : s.fromCursor.srcLen = s.srcLen := rfl
@[simp] theorem State.fromCursor_dstAddr (s : State) : s.fromCursor.dstAddr = s.dstAddr := rfl
@[simp] theorem State.fromCursor_dstLen (s : State) : s.fromCursor.dstLen = s.dstLen := rfl
@[simp] theorem State.fromCursor_cursor (s : State) : s.fromCursor.cursor = s.cursor := rfl
@[simp] theorem State.fromCursor_imgWidth (s : State) : s.fromCursor.imgWidth = s.imgWidth := rfl
@[simp] theorem State.fromCursor_imgHeight (s : State) : s.fromCursor.imgHeight = s.imgHeight := rfl
@[simp] theorem State.fromCursor_imgFmt (s : State) : s.fromCursor.imgFmt = s.imgFmt := rfl
@[simp] theorem State.fromCursor_chkLen (s : State) : s.fromCursor.chkLen = s.chkLen := rfl
@[simp] theorem State.fromCursor_chkType (s : State) : s.fromCursor.chkType = s.chkType := rfl
@[simp] theorem State.fromCursor_chkFlags (s : State) : s.fromCursor.chkFlags = s.chkFlags := rfl
@[simp] theorem State.fromCursor_chkDataOff (s : State) : s.fromCursor.chkDataOff = s.chkDataOff := rfl
@[simp] theorem State.fromCursor_chkCrcRx (s : State) : s.fromCursor.chkCrcRx = s.chkCrcRx := rfl
@[simp] theorem State.fromCursor_chkCrcCalc (s : State) : s.fromCursor.chkCrcCalc = s.chkCrcCalc := rfl
@[simp] theorem State.fromCursor_chkCount (s : State) : s.fromCursor.chkCount = s.chkCount := rfl
@[simp] theorem State.fromCursor_errInfo0 (s : State) : s.fromCursor.errInfo0 = s.errInfo0 := rfl
@[simp] theorem State.fromCursor_errInfo1 (s : State) : s.fromCursor.errInfo1 = s.errInfo1 := rfl
@[simp] theorem State.fromCursor_errInfo2 (s : State) : s.fromCursor.errInfo2 = s.errInfo2 := rfl
@[simp] theorem State.fromCursor_outLen (s : State) : s.fromCursor.outLen = s.outLen := rfl
@[simp] theorem State.fromCursor_engine (s : State) : s.fromCursor.engine = s.engine := rfl
@[simp] theorem State.fromCursor_scratch (s : State) : s.fromCursor.scratch = { s.scratch with pos := s.cursor.toNat } := rfl
@[simp] theorem State.fromCursor_mem (s : State) : s.fromCursor.mem = s.mem := rfl
@[simp] theorem State.fromCursor_hostBuf (s : State) : s.fromCursor.hostBuf = s.hostBuf := rfl
@[simp] theorem State.fromCursor_rst (s : State) : s.fromCursor.rst = s.rst := rfl
@[simp] theorem State.fromCursor_inputs (s : State) : s.fromCursor.inputs = s.inputs := rfl
@[simp] theorem State.fromCursor_response (s : State) : s.fromCursor.response = s.response := rfl
@[simp] theorem State.fromCursor_params (s : State) : s.fromCursor.params = s.params := rfl
@[simp] theorem State.fromCursor_memErrors (s : State) : s.fromCursor.memErrors = s.memErrors := rfl
@[simp] theorem State.fromCursor_draws (s : State) : s.fromCursor.draws = s.draws := rfl

@[simp] theorem State.withCrcAcc_ctrl (s : State) (c : Word) : (s.withCrcAcc c).ctrl = s.ctrl := rfl
@[simp] theorem State.withCrcAcc_cmd (s : State) (c : Word) : (s.withCrcAcc c).cmd = s.cmd := rfl
@[simp] theorem State.withCrcAcc_done (s : State) (c : Word) : (s.withCrcAcc c).done = s.done := rfl
@[simp] theorem State.withCrcAcc_rejected (s : State) (c : Word) : (s.withCrcAcc c).rejected = s.rejected := rfl
@[simp] theorem State.withCrcAcc_code (s : State) (c : Word) : (s.withCrcAcc c).code = s.code := rfl
@[simp] theorem State.withCrcAcc_srcAddr (s : State) (c : Word) : (s.withCrcAcc c).srcAddr = s.srcAddr := rfl
@[simp] theorem State.withCrcAcc_srcLen (s : State) (c : Word) : (s.withCrcAcc c).srcLen = s.srcLen := rfl
@[simp] theorem State.withCrcAcc_dstAddr (s : State) (c : Word) : (s.withCrcAcc c).dstAddr = s.dstAddr := rfl
@[simp] theorem State.withCrcAcc_dstLen (s : State) (c : Word) : (s.withCrcAcc c).dstLen = s.dstLen := rfl
@[simp] theorem State.withCrcAcc_cursor (s : State) (c : Word) : (s.withCrcAcc c).cursor = s.cursor := rfl
@[simp] theorem State.withCrcAcc_imgWidth (s : State) (c : Word) : (s.withCrcAcc c).imgWidth = s.imgWidth := rfl
@[simp] theorem State.withCrcAcc_imgHeight (s : State) (c : Word) : (s.withCrcAcc c).imgHeight = s.imgHeight := rfl
@[simp] theorem State.withCrcAcc_imgFmt (s : State) (c : Word) : (s.withCrcAcc c).imgFmt = s.imgFmt := rfl
@[simp] theorem State.withCrcAcc_chkLen (s : State) (c : Word) : (s.withCrcAcc c).chkLen = s.chkLen := rfl
@[simp] theorem State.withCrcAcc_chkType (s : State) (c : Word) : (s.withCrcAcc c).chkType = s.chkType := rfl
@[simp] theorem State.withCrcAcc_chkFlags (s : State) (c : Word) : (s.withCrcAcc c).chkFlags = s.chkFlags := rfl
@[simp] theorem State.withCrcAcc_chkDataOff (s : State) (c : Word) : (s.withCrcAcc c).chkDataOff = s.chkDataOff := rfl
@[simp] theorem State.withCrcAcc_chkCrcRx (s : State) (c : Word) : (s.withCrcAcc c).chkCrcRx = s.chkCrcRx := rfl
@[simp] theorem State.withCrcAcc_chkCrcCalc (s : State) (c : Word) : (s.withCrcAcc c).chkCrcCalc = s.chkCrcCalc := rfl
@[simp] theorem State.withCrcAcc_chkCount (s : State) (c : Word) : (s.withCrcAcc c).chkCount = s.chkCount := rfl
@[simp] theorem State.withCrcAcc_errInfo0 (s : State) (c : Word) : (s.withCrcAcc c).errInfo0 = s.errInfo0 := rfl
@[simp] theorem State.withCrcAcc_errInfo1 (s : State) (c : Word) : (s.withCrcAcc c).errInfo1 = s.errInfo1 := rfl
@[simp] theorem State.withCrcAcc_errInfo2 (s : State) (c : Word) : (s.withCrcAcc c).errInfo2 = s.errInfo2 := rfl
@[simp] theorem State.withCrcAcc_outLen (s : State) (c : Word) : (s.withCrcAcc c).outLen = s.outLen := rfl
@[simp] theorem State.withCrcAcc_engine (s : State) (c : Word) : (s.withCrcAcc c).engine = s.engine := rfl
@[simp] theorem State.withCrcAcc_scratch (s : State) (c : Word) : (s.withCrcAcc c).scratch = { s.scratch with crcAcc := c } := rfl
@[simp] theorem State.withCrcAcc_mem (s : State) (c : Word) : (s.withCrcAcc c).mem = s.mem := rfl
@[simp] theorem State.withCrcAcc_hostBuf (s : State) (c : Word) : (s.withCrcAcc c).hostBuf = s.hostBuf := rfl
@[simp] theorem State.withCrcAcc_rst (s : State) (c : Word) : (s.withCrcAcc c).rst = s.rst := rfl
@[simp] theorem State.withCrcAcc_inputs (s : State) (c : Word) : (s.withCrcAcc c).inputs = s.inputs := rfl
@[simp] theorem State.withCrcAcc_response (s : State) (c : Word) : (s.withCrcAcc c).response = s.response := rfl
@[simp] theorem State.withCrcAcc_params (s : State) (c : Word) : (s.withCrcAcc c).params = s.params := rfl
@[simp] theorem State.withCrcAcc_memErrors (s : State) (c : Word) : (s.withCrcAcc c).memErrors = s.memErrors := rfl
@[simp] theorem State.withCrcAcc_draws (s : State) (c : Word) : (s.withCrcAcc c).draws = s.draws := rfl

@[simp] theorem State.recordChunk_ctrl (s : State) (start len : Nat) (t : List Byte) (rx : Word) : (s.recordChunk start len t rx).ctrl = s.ctrl := rfl
@[simp] theorem State.recordChunk_cmd (s : State) (start len : Nat) (t : List Byte) (rx : Word) : (s.recordChunk start len t rx).cmd = s.cmd := rfl
@[simp] theorem State.recordChunk_done (s : State) (start len : Nat) (t : List Byte) (rx : Word) : (s.recordChunk start len t rx).done = s.done := rfl
@[simp] theorem State.recordChunk_rejected (s : State) (start len : Nat) (t : List Byte) (rx : Word) : (s.recordChunk start len t rx).rejected = s.rejected := rfl
@[simp] theorem State.recordChunk_code (s : State) (start len : Nat) (t : List Byte) (rx : Word) : (s.recordChunk start len t rx).code = s.code := rfl
@[simp] theorem State.recordChunk_srcAddr (s : State) (start len : Nat) (t : List Byte) (rx : Word) : (s.recordChunk start len t rx).srcAddr = s.srcAddr := rfl
@[simp] theorem State.recordChunk_srcLen (s : State) (start len : Nat) (t : List Byte) (rx : Word) : (s.recordChunk start len t rx).srcLen = s.srcLen := rfl
@[simp] theorem State.recordChunk_dstAddr (s : State) (start len : Nat) (t : List Byte) (rx : Word) : (s.recordChunk start len t rx).dstAddr = s.dstAddr := rfl
@[simp] theorem State.recordChunk_dstLen (s : State) (start len : Nat) (t : List Byte) (rx : Word) : (s.recordChunk start len t rx).dstLen = s.dstLen := rfl
@[simp] theorem State.recordChunk_cursor (s : State) (start len : Nat) (t : List Byte) (rx : Word) : (s.recordChunk start len t rx).cursor = word s.scratch.pos := rfl
@[simp] theorem State.recordChunk_imgWidth (s : State) (start len : Nat) (t : List Byte) (rx : Word) : (s.recordChunk start len t rx).imgWidth = s.imgWidth := rfl
@[simp] theorem State.recordChunk_imgHeight (s : State) (start len : Nat) (t : List Byte) (rx : Word) : (s.recordChunk start len t rx).imgHeight = s.imgHeight := rfl
@[simp] theorem State.recordChunk_imgFmt (s : State) (start len : Nat) (t : List Byte) (rx : Word) : (s.recordChunk start len t rx).imgFmt = s.imgFmt := rfl
@[simp] theorem State.recordChunk_chkLen (s : State) (start len : Nat) (t : List Byte) (rx : Word) : (s.recordChunk start len t rx).chkLen = word len := rfl
@[simp] theorem State.recordChunk_chkType (s : State) (start len : Nat) (t : List Byte) (rx : Word) : (s.recordChunk start len t rx).chkType = be32 t := rfl
@[simp] theorem State.recordChunk_chkFlags (s : State) (start len : Nat) (t : List Byte) (rx : Word) : (s.recordChunk start len t rx).chkFlags = tagFlags t := rfl
@[simp] theorem State.recordChunk_chkDataOff (s : State) (start len : Nat) (t : List Byte) (rx : Word) : (s.recordChunk start len t rx).chkDataOff = word (start + 8) := rfl
@[simp] theorem State.recordChunk_chkCrcRx (s : State) (start len : Nat) (t : List Byte) (rx : Word) : (s.recordChunk start len t rx).chkCrcRx = rx := rfl
@[simp] theorem State.recordChunk_chkCrcCalc (s : State) (start len : Nat) (t : List Byte) (rx : Word) : (s.recordChunk start len t rx).chkCrcCalc = s.scratch.crcAcc ^^^ crcOnes := rfl
@[simp] theorem State.recordChunk_chkCount (s : State) (start len : Nat) (t : List Byte) (rx : Word) : (s.recordChunk start len t rx).chkCount = s.chkCount + 1#32 := rfl
@[simp] theorem State.recordChunk_errInfo0 (s : State) (start len : Nat) (t : List Byte) (rx : Word) : (s.recordChunk start len t rx).errInfo0 = s.errInfo0 := rfl
@[simp] theorem State.recordChunk_errInfo1 (s : State) (start len : Nat) (t : List Byte) (rx : Word) : (s.recordChunk start len t rx).errInfo1 = s.errInfo1 := rfl
@[simp] theorem State.recordChunk_errInfo2 (s : State) (start len : Nat) (t : List Byte) (rx : Word) : (s.recordChunk start len t rx).errInfo2 = s.errInfo2 := rfl
@[simp] theorem State.recordChunk_outLen (s : State) (start len : Nat) (t : List Byte) (rx : Word) : (s.recordChunk start len t rx).outLen = s.outLen := rfl
@[simp] theorem State.recordChunk_engine (s : State) (start len : Nat) (t : List Byte) (rx : Word) : (s.recordChunk start len t rx).engine = s.engine := rfl
@[simp] theorem State.recordChunk_scratch (s : State) (start len : Nat) (t : List Byte) (rx : Word) : (s.recordChunk start len t rx).scratch = s.scratch := rfl
@[simp] theorem State.recordChunk_mem (s : State) (start len : Nat) (t : List Byte) (rx : Word) : (s.recordChunk start len t rx).mem = s.mem := rfl
@[simp] theorem State.recordChunk_hostBuf (s : State) (start len : Nat) (t : List Byte) (rx : Word) : (s.recordChunk start len t rx).hostBuf = s.hostBuf := rfl
@[simp] theorem State.recordChunk_rst (s : State) (start len : Nat) (t : List Byte) (rx : Word) : (s.recordChunk start len t rx).rst = s.rst := rfl
@[simp] theorem State.recordChunk_inputs (s : State) (start len : Nat) (t : List Byte) (rx : Word) : (s.recordChunk start len t rx).inputs = s.inputs := rfl
@[simp] theorem State.recordChunk_response (s : State) (start len : Nat) (t : List Byte) (rx : Word) : (s.recordChunk start len t rx).response = s.response := rfl
@[simp] theorem State.recordChunk_params (s : State) (start len : Nat) (t : List Byte) (rx : Word) : (s.recordChunk start len t rx).params = s.params := rfl
@[simp] theorem State.recordChunk_memErrors (s : State) (start len : Nat) (t : List Byte) (rx : Word) : (s.recordChunk start len t rx).memErrors = s.memErrors := rfl
@[simp] theorem State.recordChunk_draws (s : State) (start len : Nat) (t : List Byte) (rx : Word) : (s.recordChunk start len t rx).draws = s.draws := rfl

@[simp] theorem State.withScan_ctrl (s : State) (sc : Scan) : (s.withScan sc).ctrl = s.ctrl := rfl
@[simp] theorem State.withScan_cmd (s : State) (sc : Scan) : (s.withScan sc).cmd = s.cmd := rfl
@[simp] theorem State.withScan_done (s : State) (sc : Scan) : (s.withScan sc).done = s.done := rfl
@[simp] theorem State.withScan_rejected (s : State) (sc : Scan) : (s.withScan sc).rejected = s.rejected := rfl
@[simp] theorem State.withScan_code (s : State) (sc : Scan) : (s.withScan sc).code = s.code := rfl
@[simp] theorem State.withScan_srcAddr (s : State) (sc : Scan) : (s.withScan sc).srcAddr = s.srcAddr := rfl
@[simp] theorem State.withScan_srcLen (s : State) (sc : Scan) : (s.withScan sc).srcLen = s.srcLen := rfl
@[simp] theorem State.withScan_dstAddr (s : State) (sc : Scan) : (s.withScan sc).dstAddr = s.dstAddr := rfl
@[simp] theorem State.withScan_dstLen (s : State) (sc : Scan) : (s.withScan sc).dstLen = s.dstLen := rfl
@[simp] theorem State.withScan_cursor (s : State) (sc : Scan) : (s.withScan sc).cursor = s.cursor := rfl
@[simp] theorem State.withScan_imgWidth (s : State) (sc : Scan) : (s.withScan sc).imgWidth = s.imgWidth := rfl
@[simp] theorem State.withScan_imgHeight (s : State) (sc : Scan) : (s.withScan sc).imgHeight = s.imgHeight := rfl
@[simp] theorem State.withScan_imgFmt (s : State) (sc : Scan) : (s.withScan sc).imgFmt = s.imgFmt := rfl
@[simp] theorem State.withScan_chkLen (s : State) (sc : Scan) : (s.withScan sc).chkLen = s.chkLen := rfl
@[simp] theorem State.withScan_chkType (s : State) (sc : Scan) : (s.withScan sc).chkType = s.chkType := rfl
@[simp] theorem State.withScan_chkFlags (s : State) (sc : Scan) : (s.withScan sc).chkFlags = s.chkFlags := rfl
@[simp] theorem State.withScan_chkDataOff (s : State) (sc : Scan) : (s.withScan sc).chkDataOff = s.chkDataOff := rfl
@[simp] theorem State.withScan_chkCrcRx (s : State) (sc : Scan) : (s.withScan sc).chkCrcRx = s.chkCrcRx := rfl
@[simp] theorem State.withScan_chkCrcCalc (s : State) (sc : Scan) : (s.withScan sc).chkCrcCalc = s.chkCrcCalc := rfl
@[simp] theorem State.withScan_chkCount (s : State) (sc : Scan) : (s.withScan sc).chkCount = s.chkCount := rfl
@[simp] theorem State.withScan_errInfo0 (s : State) (sc : Scan) : (s.withScan sc).errInfo0 = s.errInfo0 := rfl
@[simp] theorem State.withScan_errInfo1 (s : State) (sc : Scan) : (s.withScan sc).errInfo1 = s.errInfo1 := rfl
@[simp] theorem State.withScan_errInfo2 (s : State) (sc : Scan) : (s.withScan sc).errInfo2 = s.errInfo2 := rfl
@[simp] theorem State.withScan_outLen (s : State) (sc : Scan) : (s.withScan sc).outLen = s.outLen := rfl
@[simp] theorem State.withScan_engine (s : State) (sc : Scan) : (s.withScan sc).engine = s.engine := rfl
@[simp] theorem State.withScan_scratch (s : State) (sc : Scan) : (s.withScan sc).scratch = { s.scratch with scan := some sc } := rfl
@[simp] theorem State.withScan_mem (s : State) (sc : Scan) : (s.withScan sc).mem = s.mem := rfl
@[simp] theorem State.withScan_hostBuf (s : State) (sc : Scan) : (s.withScan sc).hostBuf = s.hostBuf := rfl
@[simp] theorem State.withScan_rst (s : State) (sc : Scan) : (s.withScan sc).rst = s.rst := rfl
@[simp] theorem State.withScan_inputs (s : State) (sc : Scan) : (s.withScan sc).inputs = s.inputs := rfl
@[simp] theorem State.withScan_response (s : State) (sc : Scan) : (s.withScan sc).response = s.response := rfl
@[simp] theorem State.withScan_params (s : State) (sc : Scan) : (s.withScan sc).params = s.params := rfl
@[simp] theorem State.withScan_memErrors (s : State) (sc : Scan) : (s.withScan sc).memErrors = s.memErrors := rfl
@[simp] theorem State.withScan_draws (s : State) (sc : Scan) : (s.withScan sc).draws = s.draws := rfl

@[simp] theorem State.endRow_ctrl (s : State) (sc : Scan) (used : Nat) (row : List Byte) : (s.endRow sc used row).ctrl = s.ctrl := rfl
@[simp] theorem State.endRow_cmd (s : State) (sc : Scan) (used : Nat) (row : List Byte) : (s.endRow sc used row).cmd = s.cmd := rfl
@[simp] theorem State.endRow_done (s : State) (sc : Scan) (used : Nat) (row : List Byte) : (s.endRow sc used row).done = s.done := rfl
@[simp] theorem State.endRow_rejected (s : State) (sc : Scan) (used : Nat) (row : List Byte) : (s.endRow sc used row).rejected = s.rejected := rfl
@[simp] theorem State.endRow_code (s : State) (sc : Scan) (used : Nat) (row : List Byte) : (s.endRow sc used row).code = s.code := rfl
@[simp] theorem State.endRow_srcAddr (s : State) (sc : Scan) (used : Nat) (row : List Byte) : (s.endRow sc used row).srcAddr = s.srcAddr := rfl
@[simp] theorem State.endRow_srcLen (s : State) (sc : Scan) (used : Nat) (row : List Byte) : (s.endRow sc used row).srcLen = s.srcLen := rfl
@[simp] theorem State.endRow_dstAddr (s : State) (sc : Scan) (used : Nat) (row : List Byte) : (s.endRow sc used row).dstAddr = s.dstAddr := rfl
@[simp] theorem State.endRow_dstLen (s : State) (sc : Scan) (used : Nat) (row : List Byte) : (s.endRow sc used row).dstLen = s.dstLen := rfl
@[simp] theorem State.endRow_cursor (s : State) (sc : Scan) (used : Nat) (row : List Byte) : (s.endRow sc used row).cursor = s.cursor := rfl
@[simp] theorem State.endRow_imgWidth (s : State) (sc : Scan) (used : Nat) (row : List Byte) : (s.endRow sc used row).imgWidth = s.imgWidth := rfl
@[simp] theorem State.endRow_imgHeight (s : State) (sc : Scan) (used : Nat) (row : List Byte) : (s.endRow sc used row).imgHeight = s.imgHeight := rfl
@[simp] theorem State.endRow_imgFmt (s : State) (sc : Scan) (used : Nat) (row : List Byte) : (s.endRow sc used row).imgFmt = s.imgFmt := rfl
@[simp] theorem State.endRow_chkLen (s : State) (sc : Scan) (used : Nat) (row : List Byte) : (s.endRow sc used row).chkLen = s.chkLen := rfl
@[simp] theorem State.endRow_chkType (s : State) (sc : Scan) (used : Nat) (row : List Byte) : (s.endRow sc used row).chkType = s.chkType := rfl
@[simp] theorem State.endRow_chkFlags (s : State) (sc : Scan) (used : Nat) (row : List Byte) : (s.endRow sc used row).chkFlags = s.chkFlags := rfl
@[simp] theorem State.endRow_chkDataOff (s : State) (sc : Scan) (used : Nat) (row : List Byte) : (s.endRow sc used row).chkDataOff = s.chkDataOff := rfl
@[simp] theorem State.endRow_chkCrcRx (s : State) (sc : Scan) (used : Nat) (row : List Byte) : (s.endRow sc used row).chkCrcRx = s.chkCrcRx := rfl
@[simp] theorem State.endRow_chkCrcCalc (s : State) (sc : Scan) (used : Nat) (row : List Byte) : (s.endRow sc used row).chkCrcCalc = s.chkCrcCalc := rfl
@[simp] theorem State.endRow_chkCount (s : State) (sc : Scan) (used : Nat) (row : List Byte) : (s.endRow sc used row).chkCount = s.chkCount := rfl
@[simp] theorem State.endRow_errInfo0 (s : State) (sc : Scan) (used : Nat) (row : List Byte) : (s.endRow sc used row).errInfo0 = s.errInfo0 := rfl
@[simp] theorem State.endRow_errInfo1 (s : State) (sc : Scan) (used : Nat) (row : List Byte) : (s.endRow sc used row).errInfo1 = s.errInfo1 := rfl
@[simp] theorem State.endRow_errInfo2 (s : State) (sc : Scan) (used : Nat) (row : List Byte) : (s.endRow sc used row).errInfo2 = s.errInfo2 := rfl
@[simp] theorem State.endRow_outLen (s : State) (sc : Scan) (used : Nat) (row : List Byte) : (s.endRow sc used row).outLen = s.outLen := rfl
@[simp] theorem State.endRow_engine (s : State) (sc : Scan) (used : Nat) (row : List Byte) : (s.endRow sc used row).engine = s.engine := rfl
@[simp] theorem State.endRow_mem (s : State) (sc : Scan) (used : Nat) (row : List Byte) : (s.endRow sc used row).mem = s.mem := rfl
@[simp] theorem State.endRow_hostBuf (s : State) (sc : Scan) (used : Nat) (row : List Byte) : (s.endRow sc used row).hostBuf = s.hostBuf := rfl
@[simp] theorem State.endRow_rst (s : State) (sc : Scan) (used : Nat) (row : List Byte) : (s.endRow sc used row).rst = s.rst := rfl
@[simp] theorem State.endRow_inputs (s : State) (sc : Scan) (used : Nat) (row : List Byte) : (s.endRow sc used row).inputs = s.inputs := rfl
@[simp] theorem State.endRow_response (s : State) (sc : Scan) (used : Nat) (row : List Byte) : (s.endRow sc used row).response = s.response := rfl
@[simp] theorem State.endRow_params (s : State) (sc : Scan) (used : Nat) (row : List Byte) : (s.endRow sc used row).params = s.params := rfl
@[simp] theorem State.endRow_memErrors (s : State) (sc : Scan) (used : Nat) (row : List Byte) : (s.endRow sc used row).memErrors = s.memErrors := rfl
@[simp] theorem State.endRow_draws (s : State) (sc : Scan) (used : Nat) (row : List Byte) : (s.endRow sc used row).draws = s.draws := rfl

@[simp] theorem State.respond_ctrl (s : State) (r : Response) : (s.respond r).ctrl = s.ctrl := rfl
@[simp] theorem State.respond_cmd (s : State) (r : Response) : (s.respond r).cmd = s.cmd := rfl
@[simp] theorem State.respond_done (s : State) (r : Response) : (s.respond r).done = s.done := rfl
@[simp] theorem State.respond_rejected (s : State) (r : Response) : (s.respond r).rejected = s.rejected := rfl
@[simp] theorem State.respond_code (s : State) (r : Response) : (s.respond r).code = s.code := rfl
@[simp] theorem State.respond_srcAddr (s : State) (r : Response) : (s.respond r).srcAddr = s.srcAddr := rfl
@[simp] theorem State.respond_srcLen (s : State) (r : Response) : (s.respond r).srcLen = s.srcLen := rfl
@[simp] theorem State.respond_dstAddr (s : State) (r : Response) : (s.respond r).dstAddr = s.dstAddr := rfl
@[simp] theorem State.respond_dstLen (s : State) (r : Response) : (s.respond r).dstLen = s.dstLen := rfl
@[simp] theorem State.respond_cursor (s : State) (r : Response) : (s.respond r).cursor = s.cursor := rfl
@[simp] theorem State.respond_imgWidth (s : State) (r : Response) : (s.respond r).imgWidth = s.imgWidth := rfl
@[simp] theorem State.respond_imgHeight (s : State) (r : Response) : (s.respond r).imgHeight = s.imgHeight := rfl
@[simp] theorem State.respond_imgFmt (s : State) (r : Response) : (s.respond r).imgFmt = s.imgFmt := rfl
@[simp] theorem State.respond_chkLen (s : State) (r : Response) : (s.respond r).chkLen = s.chkLen := rfl
@[simp] theorem State.respond_chkType (s : State) (r : Response) : (s.respond r).chkType = s.chkType := rfl
@[simp] theorem State.respond_chkFlags (s : State) (r : Response) : (s.respond r).chkFlags = s.chkFlags := rfl
@[simp] theorem State.respond_chkDataOff (s : State) (r : Response) : (s.respond r).chkDataOff = s.chkDataOff := rfl
@[simp] theorem State.respond_chkCrcRx (s : State) (r : Response) : (s.respond r).chkCrcRx = s.chkCrcRx := rfl
@[simp] theorem State.respond_chkCrcCalc (s : State) (r : Response) : (s.respond r).chkCrcCalc = s.chkCrcCalc := rfl
@[simp] theorem State.respond_chkCount (s : State) (r : Response) : (s.respond r).chkCount = s.chkCount := rfl
@[simp] theorem State.respond_errInfo0 (s : State) (r : Response) : (s.respond r).errInfo0 = s.errInfo0 := rfl
@[simp] theorem State.respond_errInfo1 (s : State) (r : Response) : (s.respond r).errInfo1 = s.errInfo1 := rfl
@[simp] theorem State.respond_errInfo2 (s : State) (r : Response) : (s.respond r).errInfo2 = s.errInfo2 := rfl
@[simp] theorem State.respond_outLen (s : State) (r : Response) : (s.respond r).outLen = s.outLen := rfl
@[simp] theorem State.respond_engine (s : State) (r : Response) : (s.respond r).engine = s.engine := rfl
@[simp] theorem State.respond_scratch (s : State) (r : Response) : (s.respond r).scratch = s.scratch := rfl
@[simp] theorem State.respond_mem (s : State) (r : Response) : (s.respond r).mem = s.mem := rfl
@[simp] theorem State.respond_hostBuf (s : State) (r : Response) : (s.respond r).hostBuf = s.hostBuf := rfl
@[simp] theorem State.respond_rst (s : State) (r : Response) : (s.respond r).rst = s.rst := rfl
@[simp] theorem State.respond_inputs (s : State) (r : Response) : (s.respond r).inputs = s.inputs := rfl
@[simp] theorem State.respond_response (s : State) (r : Response) : (s.respond r).response = r := rfl
@[simp] theorem State.respond_params (s : State) (r : Response) : (s.respond r).params = s.params := rfl
@[simp] theorem State.respond_memErrors (s : State) (r : Response) : (s.respond r).memErrors = s.memErrors := rfl
@[simp] theorem State.respond_draws (s : State) (r : Response) : (s.respond r).draws = s.draws := rfl

@[simp] theorem State.respondFree_ctrl (s : State) : s.respondFree.ctrl = s.ctrl := rfl
@[simp] theorem State.respondFree_cmd (s : State) : s.respondFree.cmd = s.cmd := rfl
@[simp] theorem State.respondFree_done (s : State) : s.respondFree.done = s.done := rfl
@[simp] theorem State.respondFree_rejected (s : State) : s.respondFree.rejected = s.rejected := rfl
@[simp] theorem State.respondFree_code (s : State) : s.respondFree.code = s.code := rfl
@[simp] theorem State.respondFree_srcAddr (s : State) : s.respondFree.srcAddr = s.srcAddr := rfl
@[simp] theorem State.respondFree_srcLen (s : State) : s.respondFree.srcLen = s.srcLen := rfl
@[simp] theorem State.respondFree_dstAddr (s : State) : s.respondFree.dstAddr = s.dstAddr := rfl
@[simp] theorem State.respondFree_dstLen (s : State) : s.respondFree.dstLen = s.dstLen := rfl
@[simp] theorem State.respondFree_cursor (s : State) : s.respondFree.cursor = s.cursor := rfl
@[simp] theorem State.respondFree_imgWidth (s : State) : s.respondFree.imgWidth = s.imgWidth := rfl
@[simp] theorem State.respondFree_imgHeight (s : State) : s.respondFree.imgHeight = s.imgHeight := rfl
@[simp] theorem State.respondFree_imgFmt (s : State) : s.respondFree.imgFmt = s.imgFmt := rfl
@[simp] theorem State.respondFree_chkLen (s : State) : s.respondFree.chkLen = s.chkLen := rfl
@[simp] theorem State.respondFree_chkType (s : State) : s.respondFree.chkType = s.chkType := rfl
@[simp] theorem State.respondFree_chkFlags (s : State) : s.respondFree.chkFlags = s.chkFlags := rfl
@[simp] theorem State.respondFree_chkDataOff (s : State) : s.respondFree.chkDataOff = s.chkDataOff := rfl
@[simp] theorem State.respondFree_chkCrcRx (s : State) : s.respondFree.chkCrcRx = s.chkCrcRx := rfl
@[simp] theorem State.respondFree_chkCrcCalc (s : State) : s.respondFree.chkCrcCalc = s.chkCrcCalc := rfl
@[simp] theorem State.respondFree_chkCount (s : State) : s.respondFree.chkCount = s.chkCount := rfl
@[simp] theorem State.respondFree_errInfo0 (s : State) : s.respondFree.errInfo0 = s.errInfo0 := rfl
@[simp] theorem State.respondFree_errInfo1 (s : State) : s.respondFree.errInfo1 = s.errInfo1 := rfl
@[simp] theorem State.respondFree_errInfo2 (s : State) : s.respondFree.errInfo2 = s.errInfo2 := rfl
@[simp] theorem State.respondFree_outLen (s : State) : s.respondFree.outLen = s.outLen := rfl
@[simp] theorem State.respondFree_engine (s : State) : s.respondFree.engine = s.engine := rfl
@[simp] theorem State.respondFree_scratch (s : State) : s.respondFree.scratch = s.scratch := rfl
@[simp] theorem State.respondFree_mem (s : State) : s.respondFree.mem = s.mem := rfl
@[simp] theorem State.respondFree_hostBuf (s : State) : s.respondFree.hostBuf = s.hostBuf := rfl
@[simp] theorem State.respondFree_rst (s : State) : s.respondFree.rst = s.rst := rfl
@[simp] theorem State.respondFree_inputs (s : State) : s.respondFree.inputs = s.inputs := rfl
@[simp] theorem State.respondFree_response (s : State) : s.respondFree.response = .word (Config.freeWord s.draws) := rfl
@[simp] theorem State.respondFree_params (s : State) : s.respondFree.params = s.params := rfl
@[simp] theorem State.respondFree_memErrors (s : State) : s.respondFree.memErrors = s.memErrors := rfl
@[simp] theorem State.respondFree_draws (s : State) : s.respondFree.draws = s.draws + 1 := rfl

@[simp] theorem State.resetRegisters_ctrl (s : State) : s.resetRegisters.ctrl = State.reset.ctrl := rfl
@[simp] theorem State.resetRegisters_cmd (s : State) : s.resetRegisters.cmd = State.reset.cmd := rfl
@[simp] theorem State.resetRegisters_done (s : State) : s.resetRegisters.done = State.reset.done := rfl
@[simp] theorem State.resetRegisters_rejected (s : State) : s.resetRegisters.rejected = State.reset.rejected := rfl
@[simp] theorem State.resetRegisters_code (s : State) : s.resetRegisters.code = State.reset.code := rfl
@[simp] theorem State.resetRegisters_srcAddr (s : State) : s.resetRegisters.srcAddr = State.reset.srcAddr := rfl
@[simp] theorem State.resetRegisters_srcLen (s : State) : s.resetRegisters.srcLen = State.reset.srcLen := rfl
@[simp] theorem State.resetRegisters_dstAddr (s : State) : s.resetRegisters.dstAddr = State.reset.dstAddr := rfl
@[simp] theorem State.resetRegisters_dstLen (s : State) : s.resetRegisters.dstLen = State.reset.dstLen := rfl
@[simp] theorem State.resetRegisters_cursor (s : State) : s.resetRegisters.cursor = State.reset.cursor := rfl
@[simp] theorem State.resetRegisters_imgWidth (s : State) : s.resetRegisters.imgWidth = State.reset.imgWidth := rfl
@[simp] theorem State.resetRegisters_imgHeight (s : State) : s.resetRegisters.imgHeight = State.reset.imgHeight := rfl
@[simp] theorem State.resetRegisters_imgFmt (s : State) : s.resetRegisters.imgFmt = State.reset.imgFmt := rfl
@[simp] theorem State.resetRegisters_chkLen (s : State) : s.resetRegisters.chkLen = State.reset.chkLen := rfl
@[simp] theorem State.resetRegisters_chkType (s : State) : s.resetRegisters.chkType = State.reset.chkType := rfl
@[simp] theorem State.resetRegisters_chkFlags (s : State) : s.resetRegisters.chkFlags = State.reset.chkFlags := rfl
@[simp] theorem State.resetRegisters_chkDataOff (s : State) : s.resetRegisters.chkDataOff = State.reset.chkDataOff := rfl
@[simp] theorem State.resetRegisters_chkCrcRx (s : State) : s.resetRegisters.chkCrcRx = State.reset.chkCrcRx := rfl
@[simp] theorem State.resetRegisters_chkCrcCalc (s : State) : s.resetRegisters.chkCrcCalc = State.reset.chkCrcCalc := rfl
@[simp] theorem State.resetRegisters_chkCount (s : State) : s.resetRegisters.chkCount = State.reset.chkCount := rfl
@[simp] theorem State.resetRegisters_errInfo0 (s : State) : s.resetRegisters.errInfo0 = State.reset.errInfo0 := rfl
@[simp] theorem State.resetRegisters_errInfo1 (s : State) : s.resetRegisters.errInfo1 = State.reset.errInfo1 := rfl
@[simp] theorem State.resetRegisters_errInfo2 (s : State) : s.resetRegisters.errInfo2 = State.reset.errInfo2 := rfl
@[simp] theorem State.resetRegisters_outLen (s : State) : s.resetRegisters.outLen = State.reset.outLen := rfl
@[simp] theorem State.resetRegisters_engine (s : State) : s.resetRegisters.engine = State.reset.engine := rfl
@[simp] theorem State.resetRegisters_scratch (s : State) : s.resetRegisters.scratch = State.reset.scratch := rfl
@[simp] theorem State.resetRegisters_mem (s : State) : s.resetRegisters.mem = s.mem := rfl
@[simp] theorem State.resetRegisters_hostBuf (s : State) : s.resetRegisters.hostBuf = s.hostBuf := rfl
@[simp] theorem State.resetRegisters_rst (s : State) : s.resetRegisters.rst = s.rst := rfl
@[simp] theorem State.resetRegisters_inputs (s : State) : s.resetRegisters.inputs = s.inputs := rfl
@[simp] theorem State.resetRegisters_response (s : State) : s.resetRegisters.response = s.response := rfl
@[simp] theorem State.resetRegisters_params (s : State) : s.resetRegisters.params = s.params := rfl
@[simp] theorem State.resetRegisters_memErrors (s : State) : s.resetRegisters.memErrors = s.memErrors := rfl
@[simp] theorem State.resetRegisters_draws (s : State) : s.resetRegisters.draws = s.draws := rfl

@[simp] theorem State.releaseReset_ctrl (s : State) : s.releaseReset.ctrl = s.ctrl := rfl
@[simp] theorem State.releaseReset_cmd (s : State) : s.releaseReset.cmd = s.cmd := rfl
@[simp] theorem State.releaseReset_done (s : State) : s.releaseReset.done = s.done := rfl
@[simp] theorem State.releaseReset_rejected (s : State) : s.releaseReset.rejected = s.rejected := rfl
@[simp] theorem State.releaseReset_code (s : State) : s.releaseReset.code = s.code := rfl
@[simp] theorem State.releaseReset_srcAddr (s : State) : s.releaseReset.srcAddr = s.srcAddr := rfl
@[simp] theorem State.releaseReset_srcLen (s : State) : s.releaseReset.srcLen = s.srcLen := rfl
@[simp] theorem State.releaseReset_dstAddr (s : State) : s.releaseReset.dstAddr = s.dstAddr := rfl
@[simp] theorem State.releaseReset_dstLen (s : State) : s.releaseReset.dstLen = s.dstLen := rfl
@[simp] theorem State.releaseReset_cursor (s : State) : s.releaseReset.cursor = s.cursor := rfl
@[simp] theorem State.releaseReset_imgWidth (s : State) : s.releaseReset.imgWidth = s.imgWidth := rfl
@[simp] theorem State.releaseReset_imgHeight (s : State) : s.releaseReset.imgHeight = s.imgHeight := rfl
@[simp] theorem State.releaseReset_imgFmt (s : State) : s.releaseReset.imgFmt = s.imgFmt := rfl
@[simp] theorem State.releaseReset_chkLen (s : State) : s.releaseReset.chkLen = s.chkLen := rfl
@[simp] theorem State.releaseReset_chkType (s : State) : s.releaseReset.chkType = s.chkType := rfl
@[simp] theorem State.releaseReset_chkFlags (s : State) : s.releaseReset.chkFlags = s.chkFlags := rfl
@[simp] theorem State.releaseReset_chkDataOff (s : State) : s.releaseReset.chkDataOff = s.chkDataOff := rfl
@[simp] theorem State.releaseReset_chkCrcRx (s : State) : s.releaseReset.chkCrcRx = s.chkCrcRx := rfl
@[simp] theorem State.releaseReset_chkCrcCalc (s : State) : s.releaseReset.chkCrcCalc = s.chkCrcCalc := rfl
@[simp] theorem State.releaseReset_chkCount (s : State) : s.releaseReset.chkCount = s.chkCount := rfl
@[simp] theorem State.releaseReset_errInfo0 (s : State) : s.releaseReset.errInfo0 = s.errInfo0 := rfl
@[simp] theorem State.releaseReset_errInfo1 (s : State) : s.releaseReset.errInfo1 = s.errInfo1 := rfl
@[simp] theorem State.releaseReset_errInfo2 (s : State) : s.releaseReset.errInfo2 = s.errInfo2 := rfl
@[simp] theorem State.releaseReset_outLen (s : State) : s.releaseReset.outLen = s.outLen := rfl
@[simp] theorem State.releaseReset_engine (s : State) : s.releaseReset.engine = s.engine := rfl
@[simp] theorem State.releaseReset_scratch (s : State) : s.releaseReset.scratch = s.scratch := rfl
@[simp] theorem State.releaseReset_mem (s : State) : s.releaseReset.mem = s.mem := rfl
@[simp] theorem State.releaseReset_hostBuf (s : State) : s.releaseReset.hostBuf = s.hostBuf := rfl
@[simp] theorem State.releaseReset_rst (s : State) : s.releaseReset.rst = false := rfl
@[simp] theorem State.releaseReset_inputs (s : State) : s.releaseReset.inputs = s.inputs := rfl
@[simp] theorem State.releaseReset_response (s : State) : s.releaseReset.response = s.response := rfl
@[simp] theorem State.releaseReset_params (s : State) : s.releaseReset.params = s.params := rfl
@[simp] theorem State.releaseReset_memErrors (s : State) : s.releaseReset.memErrors = s.memErrors := rfl
@[simp] theorem State.releaseReset_draws (s : State) : s.releaseReset.draws = s.draws := rfl

end Sys2Proof.Machine
end

