-- ==== Sys2Proof/Laws/Ops.lean ====
section
/-! SUPPORT. The shared operations: once each, everything an operation can do. -/

namespace Sys2Proof.Machine

open Sys2Proof

/-! ### Which addresses can be reached -/

theorem reachable_iff {s : State} {a : Nat} : s.reachable a = true ↔ blocked s.params s.memErrors a = none := by
  simp [State.reachable]

/-- A memory byte lies in the address space. -/
theorem present_lt {s : State} {a : Nat} (h : s.present a = true) : a < 0x100000000 := by
  simp only [State.present, Option.isNone_iff_eq_none] at h
  unfold absent at h
  split at h
  · cases h
  · split at h
    · next hb =>
      simp only [Bool.and_eq_true, decide_eq_true_eq] at hb
      exact hb.1
    · cases h

/-- An address can be reached exactly where there is a memory byte and the platform answers no access with an error. -/
theorem reachable_iff_present {s : State} {a : Nat} :
    s.reachable a = true ↔ s.present a = true ∧ inRegions s.memErrors a = false := by
  rw [reachable_iff]
  unfold blocked State.present
  cases absent s.params a <;> simp

/-- A reachable address lies in the address space. -/
theorem reachable_lt {s : State} {a : Nat} (h : s.reachable a = true) : a < 0x100000000 :=
  present_lt (reachable_iff_present.mp h).1

theorem firstBlocked_eq_none {p : Params} {errors : List Region} {a n : Nat} :
    firstBlocked p errors a n = none ↔ ∀ i, i < n → blocked p errors (a + i) = none := by
  induction n generalizing a with
  | zero => simp [firstBlocked]
  | succ k ih =>
    simp only [firstBlocked]
    constructor
    · intro h i hi
      split at h
      · cases h
      · next hb =>
        cases i with
        | zero => exact hb
        | succ j =>
          have := (ih.mp h) j (by omega)
          rwa [show a + 1 + j = a + (j + 1) by omega] at this
    · intro h
      have h0 := h 0 (by omega)
      rw [Nat.add_zero] at h0
      rw [h0]
      refine ih.mpr fun i hi => ?_
      have := h (i + 1) (by omega)
      rwa [show a + (i + 1) = a + 1 + i by omega] at this

/-- The first address that cannot be reached is the one reported. -/
theorem firstBlocked_at {p : Params} {errors : List Region} {i a n : Nat} {r : Refusal} (hi : i < n)
    (h : ∀ j, j < i → blocked p errors (a + j) = none) (hb : blocked p errors (a + i) = some r) :
    firstBlocked p errors a n = some r := by
  induction i generalizing a n with
  | zero =>
    obtain ⟨n, rfl⟩ : ∃ k, n = k + 1 := ⟨n - 1, by omega⟩
    rw [Nat.add_zero] at hb
    simp only [firstBlocked, hb]
  | succ i ih =>
    obtain ⟨n, rfl⟩ : ∃ k, n = k + 1 := ⟨n - 1, by omega⟩
    have h0 := h 0 (by omega)
    rw [Nat.add_zero] at h0
    simp only [firstBlocked, h0]
    refine ih (by omega) (fun j hj => ?_) ?_
    · have := h (j + 1) (by omega)
      rwa [show a + (j + 1) = a + 1 + j by omega] at this
    · rwa [show a + (i + 1) = a + 1 + i by omega] at hb

theorem firstBlocked_none_iff_reachable {s : State} {a n : Nat} :
    firstBlocked s.params s.memErrors a n = none ↔ Reachable s a n := by
  rw [firstBlocked_eq_none]
  exact forall₂_congr fun i _ => reachable_iff.symm

/-! ### Pieces of pseudocode -/

@[simp] theorem Run.andThen_ok (s : State) (k : State → Run) : (Run.ok s).andThen k = k s := rfl
@[simp] theorem Run.andThen_raised (e : Error) (s : State) (k : State → Run) :
    (Run.raised e s).andThen k = .raised e s := rfl
@[simp] theorem Run.andThen_refused (r : Refusal) (k : State → Run) : (Run.refused r).andThen k = .refused r := rfl

theorem Run.andThen_assoc (r : Run) (k l : State → Run) :
    (r.andThen k).andThen l = r.andThen fun s => (k s).andThen l := by
  cases r <;> rfl

@[simp] theorem Run.finish_ok (s : State) : (Run.ok s).finish = .next s.complete := rfl
@[simp] theorem Run.finish_raised (e : Error) (s : State) : (Run.raised e s).finish = .next (s.raise e) := rfl
@[simp] theorem Run.finish_refused (r : Refusal) : (Run.refused r).finish = .refused r := rfl
@[simp] theorem Run.close_ok (s : State) : (Run.ok s).close = .next (closeRows s) := rfl
@[simp] theorem Run.close_raised (e : Error) (s : State) : (Run.raised e s).close = .next (s.raise e) := rfl
@[simp] theorem Run.close_refused (r : Refusal) : (Run.refused r).close = .refused r := rfl

/-- A command that ends in a next state completed or raised. -/
theorem Run.finish_eq_next {r : Run} {t : State} (h : r.finish = .next t) :
    (∃ s, r = .ok s ∧ t = s.complete) ∨ ∃ e s, r = .raised e s ∧ t = s.raise e := by
  cases r with
  | ok s => exact .inl ⟨s, rfl, by simpa using h.symm⟩
  | raised e s => exact .inr ⟨e, s, rfl, by simpa using h.symm⟩
  | refused r => cases h

theorem Run.close_eq_next {r : Run} {t : State} (h : r.close = .next t) :
    (∃ s, r = .ok s ∧ t = closeRows s) ∨ ∃ e s, r = .raised e s ∧ t = s.raise e := by
  cases r with
  | ok s => exact .inl ⟨s, rfl, by simpa using h.symm⟩
  | raised e s => exact .inr ⟨e, s, rfl, by simpa using h.symm⟩
  | refused r => cases h

theorem Run.finish_ne_fault (r : Run) (f : Fault) : r.finish ≠ .fault f := by cases r <;> simp [Run.finish]
theorem Run.close_ne_fault (r : Run) (f : Fault) : r.close ≠ .fault f := by cases r <;> simp [Run.close]

/-- `MemRead` of bytes that can be reached hands them on. -/
theorem memRead_of_reachable {s : State} {a n : Nat} (h : Reachable s a n) (k : List Byte → Run) :
    memRead s a n k = k (s.engineBytes a n) := by
  unfold memRead
  rw [firstBlocked_none_iff_reachable.mpr h]

/-- `MemRead` refuses, or every byte can be reached and it hands the bytes on. -/
theorem memRead_cases (s : State) (a n : Nat) (k : List Byte → Run) :
    (∃ r, memRead s a n k = .refused r) ∨ (Reachable s a n ∧ memRead s a n k = k (s.engineBytes a n)) := by
  cases h : firstBlocked s.params s.memErrors a n with
  | some r => exact .inl ⟨r, by simp [memRead, h]⟩
  | none => exact .inr ⟨firstBlocked_none_iff_reachable.mp h, by simp [memRead, h]⟩

@[simp] theorem engineBytes_length (s : State) (a n : Nat) : (s.engineBytes a n).length = n := by
  simp [State.engineBytes]

theorem engineBytes_getElem (s : State) (a n i : Nat) (h : i < (s.engineBytes a n).length) :
    (s.engineBytes a n)[i] = s.engineByte (a + i) := by
  simp [State.engineBytes]

/-- `MemWrite` refuses, or every address can be reached and only memory changes. -/
theorem storeCells_cases (cells : List Host.Cell) (s : State) :
    (∃ r, storeCells cells s = .refused r) ∨
      ((∀ c ∈ cells, s.reachable c.1 = true) ∧
        storeCells cells s = .ok { s with mem := Memory.writeAll s.mem cells }) := by
  induction cells generalizing s with
  | nil => exact .inr ⟨by simp, rfl⟩
  | cons c rest ih =>
    obtain ⟨a, b⟩ := c
    simp only [storeCells]
    cases hb : blocked s.params s.memErrors a with
    | some r => exact .inl ⟨r, rfl⟩
    | none =>
      rcases ih { s with mem := Memory.write s.mem a b } with ⟨r, hr⟩ | ⟨h1, h2⟩
      · exact .inl ⟨r, hr⟩
      · refine .inr ⟨fun c hc => ?_, h2⟩
        rcases List.mem_cons.mp hc with rfl | hc
        · exact reachable_iff.mpr hb
        · exact h1 c hc

/-- `MemWrite` to addresses that can be reached. -/
theorem storeCells_of_reachable {cells : List Host.Cell} {s : State} (h : ∀ c ∈ cells, s.reachable c.1 = true) :
    storeCells cells s = .ok { s with mem := Memory.writeAll s.mem cells } := by
  induction cells generalizing s with
  | nil => rfl
  | cons c rest ih =>
    obtain ⟨a, b⟩ := c
    have ha : blocked s.params s.memErrors a = none := reachable_iff.mp (h (a, b) (List.mem_cons_self ..))
    simp only [storeCells, ha]
    exact ih (s := { s with mem := Memory.write s.mem a b }) fun c hc => h c (List.mem_cons_of_mem _ hc)

/-! ### Unspecified bytes and reset -/

/-- The DST bytes that are drawn are the memory bytes of the DST range. -/
theorem mem_dstAddrs {s : State} {a : Nat} :
    a ∈ s.dstAddrs ↔ (s.dstAddr.toNat ≤ a ∧ a < s.dstAddr.toNat + s.dstLen.toNat) ∧ s.present a = true := by
  simp only [State.dstAddrs, List.mem_filter, List.mem_map, List.mem_range]
  constructor
  · rintro ⟨⟨i, hi, rfl⟩, hr⟩
    exact ⟨⟨by omega, by omega⟩, hr⟩
  · rintro ⟨⟨h1, h2⟩, hr⟩
    exact ⟨⟨a - s.dstAddr.toNat, by omega, by omega⟩, hr⟩

/-- Outside the DST range a draw leaves memory alone. -/
theorem drawDst_read_outside {s : State} {a : Nat} (h : OutsideDst s a) :
    Memory.read s.drawDst.mem a = Memory.read s.mem a := by
  refine Memory.read_writeAll_of_not_mem fun c hc => ?_
  obtain ⟨x, hx, rfl⟩ := List.mem_map.mp hc
  rintro rfl
  exact h (mem_dstAddrs.mp hx).1

theorem drawDst_wf {s : State} (h : Memory.wf s.mem = true) : Memory.wf s.drawDst.mem = true := by
  refine Memory.writeAll_wf h fun c hc => ?_
  obtain ⟨x, hx, rfl⟩ := List.mem_map.mp hc
  exact present_lt (mem_dstAddrs.mp hx).2

/-- What asserting `rst` leaves. -/
theorem assertReset_cases (s : State) :
    (s.engine = .idle ∧ s.assertReset = { s.resetRegisters with rst := true }) ∨
      (s.isBusy = true ∧ s.assertReset = { s.drawDst.resetRegisters with rst := true }) := by
  cases h : s.engine with
  | idle => exact .inl ⟨rfl, by simp [State.assertReset, h]⟩
  | busy w => exact .inr ⟨by simp [State.isBusy, h], by simp [State.assertReset, h]⟩

theorem isBusy_eq_true {s : State} : s.isBusy = true ↔ s.engine ≠ .idle := by
  cases h : s.engine <;> simp [State.isBusy, h]

end Sys2Proof.Machine
end

