-- ==== Sys2Proof/Laws/Chunk.lean ====
section
/-! SUPPORT. The chunk validator's shared steps: once each, everything a step can do. -/

namespace Sys2Proof.Machine

open Sys2Proof

@[simp] theorem withPos_withPos (s : State) (m n : Nat) : (s.withPos m).withPos n = s.withPos n := rfl
@[simp] theorem withPos_remaining (s : State) (n : Nat) : (s.withPos n).remaining = s.srcLen.toNat - n := rfl
@[simp] theorem withPos_engineBytes (s : State) (n a k : Nat) : (s.withPos n).engineBytes a k = s.engineBytes a k := rfl

theorem remaining_eq (s : State) : s.remaining = s.srcLen.toNat - s.scratch.pos := rfl

/-- `Read(n)` fails with OUT_OF_BOUNDS, refuses, or hands `n` bytes on and moves the local cursor. -/
theorem readSrc_cases (n : Nat) (s : State) (k : List Byte → State → Run) :
    (s.remaining < n ∧
        readSrc n s k = .raised ⟨.outOfBounds, word n, word s.remaining, word s.scratch.pos⟩ s) ∨
      (∃ r, readSrc n s k = .refused r) ∨
      (n ≤ s.remaining ∧ Reachable s (s.srcAddr.toNat + s.scratch.pos) n ∧
        readSrc n s k =
          k (s.engineBytes (s.srcAddr.toNat + s.scratch.pos) n) (s.withPos (s.scratch.pos + n))) := by
  unfold readSrc
  split
  · next h => exact .inl ⟨h, rfl⟩
  · next h =>
    rcases memRead_cases s (s.srcAddr.toNat + s.scratch.pos) n
      (fun bs => k bs (s.withPos (s.scratch.pos + n))) with ⟨r, hr⟩ | ⟨h1, h2⟩
    · exact .inr (.inl ⟨r, hr⟩)
    · exact .inr (.inr ⟨by omega, h1, h2⟩)

/-- `Read(n)` where the bytes are there and can be reached. -/
theorem readSrc_of_reachable {n : Nat} {s : State} (h : n ≤ s.remaining)
    (hr : Reachable s (s.srcAddr.toNat + s.scratch.pos) n) (k : List Byte → State → Run) :
    readSrc n s k =
      k (s.engineBytes (s.srcAddr.toNat + s.scratch.pos) n) (s.withPos (s.scratch.pos + n)) := by
  unfold readSrc
  rw [if_neg (by omega), memRead_of_reachable hr]

theorem firstDiff_eq_none {i : Nat} {bs want : List Byte} (h : bs.length = want.length) :
    firstDiff i bs want = none ↔ bs = want := by
  induction bs generalizing i want with
  | nil =>
    cases want with
    | nil => simp [firstDiff]
    | cons w ws => simp at h
  | cons b bs ih =>
    cases want with
    | nil => simp at h
    | cons w ws =>
      simp only [List.length_cons, Nat.add_right_cancel_iff] at h
      simp only [firstDiff]
      split
      · next hb => simp [hb, ih h]
      · next hb => simp [hb]

theorem firstNonAscii_eq_none {i : Nat} {bs : List Byte} :
    firstNonAscii i bs = none ↔ bs.all ascii = true := by
  induction bs generalizing i with
  | nil => simp [firstNonAscii]
  | cons b bs ih =>
    simp only [firstNonAscii, List.all_cons, Bool.and_eq_true]
    split
    · next hb => simp [hb, ih]
    · next hb => simp [hb]

/-- The signature step ends in an error with no register written, refuses, or accepts the signature and moves CURSOR. -/
theorem sigStep_cases (s : State) :
    (∃ e n, sigStep s = .raised e (s.withPos n) ∧ (n = s.scratch.pos ∨ n = s.scratch.pos + 8) ∧ e.code ≠ .ok) ∨
      (∃ r, sigStep s = .refused r) ∨
      (8 ≤ s.remaining ∧ s.engineBytes (s.srcAddr.toNat + s.scratch.pos) 8 = sigBytes ∧
        sigStep s = .ok (s.withPos (s.scratch.pos + 8)).withCursor) := by
  unfold sigStep
  rcases readSrc_cases 8 s (fun bs s' => sigCheck s.scratch.pos bs s') with ⟨-, h⟩ | ⟨r, h⟩ | ⟨h8, -, h⟩
  · exact .inl ⟨_, s.scratch.pos, h, .inl rfl, by simp⟩
  · exact .inr (.inl ⟨r, h⟩)
  · rw [h]
    unfold sigCheck
    cases hd : firstDiff 0 (s.engineBytes (s.srcAddr.toNat + s.scratch.pos) 8) sigBytes with
    | some i => exact .inl ⟨_, s.scratch.pos + 8, rfl, .inr rfl, by simp⟩
    | none =>
      refine .inr (.inr ⟨h8, ?_, rfl⟩)
      exact (firstDiff_eq_none (by rw [engineBytes_length]; rfl)).mp hd

/-- The state a chunk step records the chunk in, from the chunk's four fields. -/
def chunkRecorded (s : State) (lenField t data crcField : List Byte) : State :=
  ((s.withPos (s.scratch.pos + 12 + beNat lenField)).withCrcAcc (crcBytes crcOnes (t ++ data))).recordChunk
    s.scratch.pos (beNat lenField) t (be32 crcField)

theorem chunkRecorded_chkCrcCalc (s : State) (lenField t data crcField : List Byte) :
    (chunkRecorded s lenField t data crcField).chkCrcCalc = crc32 (t ++ data) := rfl

/-- What a chunk step does: an error before its CRC comparison, with no register written; a refusal; or the chunk is read
and recorded, and the comparison decides. -/
theorem chunkStep_cases (s : State) :
    (∃ e n, chunkStep s = .raised e (s.withPos n) ∧ s.scratch.pos ≤ n ∧ e.code ≠ .ok) ∨
      (∃ r, chunkStep s = .refused r) ∨
      (∃ lenField t data crcField, lenField.length = 4 ∧ t.length = 4 ∧ data.length = beNat lenField ∧
        crcField.length = 4 ∧ t.all ascii = true ∧ 12 + beNat lenField ≤ s.remaining ∧
        s.engineBytes (s.srcAddr.toNat + s.scratch.pos) (12 + beNat lenField) = lenField ++ t ++ data ++ crcField ∧
        chunkStep s = compareCrc s.scratch.pos (chunkRecorded s lenField t data crcField)) := by
  have bytes4 : ∀ a n, s.engineBytes a (12 + n) = s.engineBytes a 4 ++ s.engineBytes (a + 4) 4 ++
      s.engineBytes (a + 8) n ++ s.engineBytes (a + 8 + n) 4 := by
    intro a n
    refine List.ext_getElem (by simp; omega) fun i h1 h2 => ?_
    simp only [engineBytes_length] at h1
    rw [engineBytes_getElem]
    by_cases c1 : i < 4
    · rw [List.getElem_append_left (by simp; omega), List.getElem_append_left (by simp; omega),
        List.getElem_append_left (by simp; omega), engineBytes_getElem]
    · by_cases c2 : i < 8
      · rw [List.getElem_append_left (by simp; omega), List.getElem_append_left (by simp; omega),
          List.getElem_append_right (by simp; omega), engineBytes_getElem]
        congr 1; simp; omega
      · by_cases c3 : i < 8 + n
        · rw [List.getElem_append_left (by simp; omega), List.getElem_append_right (by simp; omega),
            engineBytes_getElem]
          congr 1; simp; omega
        · rw [List.getElem_append_right (by simp; omega), engineBytes_getElem]
          congr 1; simp; omega
  unfold chunkStep
  split
  · next h0 => exact .inl ⟨_, s.scratch.pos, rfl, le_rfl, by simp⟩
  · next h0 =>
    rcases readSrc_cases 4 s (fun lenField s1 =>
      readSrc 4 s1 fun t s2 => chunkTag s.scratch.pos lenField t s2) with ⟨-, h⟩ | ⟨r, h⟩ | ⟨h4, -, h⟩
    · exact .inl ⟨_, s.scratch.pos, h, le_rfl, by simp⟩
    · exact .inr (.inl ⟨r, h⟩)
    rw [h]
    generalize hlf : s.engineBytes (s.srcAddr.toNat + s.scratch.pos) 4 = lenField
    have hlen : lenField.length = 4 := by rw [← hlf, engineBytes_length]
    rcases readSrc_cases 4 (s.withPos (s.scratch.pos + 4))
      (fun t s2 => chunkTag s.scratch.pos lenField t s2) with ⟨-, h⟩ | ⟨r, h⟩ | ⟨h8, -, h⟩
    · exact .inl ⟨_, s.scratch.pos + 4, h, by omega, by simp⟩
    · exact .inr (.inl ⟨r, h⟩)
    rw [h]
    simp only [State.withPos_srcAddr, State.withPos_scratch, withPos_withPos, withPos_engineBytes]
    generalize ht : s.engineBytes (s.srcAddr.toNat + (s.scratch.pos + 4)) 4 = t
    have htl : t.length = 4 := by rw [← ht, engineBytes_length]
    unfold chunkTag
    cases hna : firstNonAscii 0 t with
    | some i => exact .inl ⟨_, s.scratch.pos + 4 + 4, rfl, by omega, by simp⟩
    | none =>
      simp only
      split
      · next hb =>
        unfold chunkBody
        generalize hL : beNat lenField = len at *
        rcases readSrc_cases len (s.withPos (s.scratch.pos + 4 + 4)) (fun data s1 =>
          readSrc 4 s1 fun crcField s2 =>
            compareCrc s.scratch.pos
              ((s2.withCrcAcc (crcBytes crcOnes (t ++ data))).recordChunk s.scratch.pos len t (be32 crcField)))
          with ⟨-, h⟩ | ⟨r, h⟩ | ⟨hd, -, h⟩
        · exact .inl ⟨_, s.scratch.pos + 4 + 4, h, by omega, by simp⟩
        · exact .inr (.inl ⟨r, h⟩)
        rw [h]
        simp only [State.withPos_srcAddr, State.withPos_scratch, withPos_withPos, withPos_engineBytes]
        generalize hdata : s.engineBytes (s.srcAddr.toNat + (s.scratch.pos + 4 + 4)) len = data
        have hdl : data.length = len := by rw [← hdata, engineBytes_length]
        rcases readSrc_cases 4 (s.withPos (s.scratch.pos + 4 + 4 + len)) (fun crcField s2 =>
            compareCrc s.scratch.pos
              ((s2.withCrcAcc (crcBytes crcOnes (t ++ data))).recordChunk s.scratch.pos len t (be32 crcField)))
          with ⟨-, h⟩ | ⟨r, h⟩ | ⟨hc, -, h⟩
        · exact .inl ⟨_, s.scratch.pos + 4 + 4 + len, h, by omega, by simp⟩
        · exact .inr (.inl ⟨r, h⟩)
        rw [h]
        simp only [State.withPos_srcAddr, State.withPos_scratch, withPos_withPos, withPos_engineBytes]
        generalize hcrc : s.engineBytes (s.srcAddr.toNat + (s.scratch.pos + 4 + 4 + len)) 4 = crcField
        have hcl : crcField.length = 4 := by rw [← hcrc, engineBytes_length]
        refine .inr (.inr ⟨lenField, t, data, crcField, hlen, htl, by rw [hdl, hL], hcl,
          firstNonAscii_eq_none.mp hna, ?_, ?_, ?_⟩)
        · simp only [withPos_remaining] at hc
          rw [remaining_eq, hL]
          omega
        · rw [hL, bytes4, hlf, ← ht, ← hdata, ← hcrc]
          congr 2
          omega
        · unfold chunkRecorded
          rw [hL, show s.scratch.pos + 12 + len = s.scratch.pos + 4 + 4 + len + 4 by omega]
      · exact .inl ⟨_, s.scratch.pos + 4 + 4, rfl, by omega, by simp⟩

/-- The comparison passes the state on or raises CRC_MISMATCH in it. -/
theorem compareCrc_cases (start : Nat) (s : State) :
    ((s.crcCheckEn = false ∨ s.chkCrcRx = s.chkCrcCalc) ∧ compareCrc start s = .ok s) ∨
      (s.crcCheckEn = true ∧ s.chkCrcRx ≠ s.chkCrcCalc ∧
        compareCrc start s = .raised ⟨.crcMismatch, s.chkCrcRx, s.chkCrcCalc, word start⟩ s) := by
  unfold compareCrc
  split
  · next h => exact .inr ⟨h.1, h.2, rfl⟩
  · next h =>
    refine .inl ⟨?_, rfl⟩
    by_cases hc : s.crcCheckEn = true
    · exact .inr (by_contra fun hne => h ⟨hc, hne⟩)
    · exact .inl (by simpa using hc)

/-- One round of WALK's loop (R120). -/
theorem walkLoop_succ (k : Nat) (first : Bool) (s : State) :
    walkLoop (k + 1) first s =
      (chunkStep s).andThen fun s' =>
        if first ∧ s'.ihdrFirstEn ∧ s'.chkType ≠ tagIHDR then
          .raised ⟨.ihdrNotFirst, s'.chkType, 0#32, s'.chkDataOff - 8#32⟩ s'
        else if s'.chkType = tagIEND then .ok s' else walkLoop k false s' := rfl

end Sys2Proof.Machine
end

