-- ==== Sys2Proof/Laws/Filter.lean ====
section
/-! SUPPORT. The row loop: once each, everything one scanline, one copied row and the entry into a loop can do. -/

namespace Sys2Proof.Machine

open Sys2Proof

/-! ### A reconstructed row -/

theorem reconRow_cons (pred : Predictor) (bpp : Nat) (prior cur : List Byte) (r : Byte) (rest : List Byte) :
    reconRow pred bpp prior cur (r :: rest) =
      reconRow pred bpp prior (cur ++ [reconByte pred bpp prior cur r]) rest := rfl

theorem reconRow_length (pred : Predictor) (bpp : Nat) (prior cur raw : List Byte) :
    (reconRow pred bpp prior cur raw).length = cur.length + raw.length := by
  induction raw generalizing cur with
  | nil => rfl
  | cons r rest ih =>
    rw [reconRow_cons, ih]
    simp only [List.length_append, List.length_cons, List.length_nil]
    omega

/-- The bytes already reconstructed stay at the front. -/
theorem reconRow_take (pred : Predictor) (bpp : Nat) (prior cur raw : List Byte) :
    (reconRow pred bpp prior cur raw).take cur.length = cur := by
  induction raw generalizing cur with
  | nil => exact List.take_length
  | cons r rest ih =>
    have h := ih (cur ++ [reconByte pred bpp prior cur r])
    rw [reconRow_cons]
    calc (reconRow pred bpp prior (cur ++ [reconByte pred bpp prior cur r]) rest).take cur.length
        = ((reconRow pred bpp prior (cur ++ [reconByte pred bpp prior cur r]) rest).take
            (cur ++ [reconByte pred bpp prior cur r]).length).take cur.length := by
          rw [List.take_take]
          congr 1
          simp
      _ = cur := by rw [h]; simp

/-! ### Loop counters -/

@[simp] theorem Scan.next_needOut (sc : Scan) (used rb : Nat) : (sc.next used rb).needOut = sc.needOut := by
  unfold Scan.next
  split
  · rfl
  · split <;> rfl

@[simp] theorem Scan.next_scatter (sc : Scan) (used rb : Nat) : (sc.next used rb).scatter = sc.scatter := by
  unfold Scan.next
  split
  · rfl
  · split <;> rfl

theorem Scan.next_of_lt {sc : Scan} {g : Image} {rest : List Image} (h : sc.images = g :: rest)
    (hr : sc.row + 1 < g.height) (used rb : Nat) :
    sc.next used rb = { sc with row := sc.row + 1, inOff := sc.inOff + used, outOff := sc.outOff + rb } := by
  simp [Scan.next, h, hr]

theorem Scan.next_of_ge {sc : Scan} {g : Image} {rest : List Image} (h : sc.images = g :: rest)
    (hr : g.height ≤ sc.row + 1) (used rb : Nat) :
    sc.next used rb =
      { sc with images := rest, row := 0, inOff := sc.inOff + used, outOff := sc.outOff + rb } := by
  simp [Scan.next, h, Nat.not_lt.mpr hr]

/-- The images left after a row are among those left before it. -/
theorem Scan.mem_next_images {sc : Scan} {used rb : Nat} {g : Image} (h : g ∈ (sc.next used rb).images) :
    g ∈ sc.images := by
  unfold Scan.next at h
  split at h
  · exact h
  · next g' rest hi =>
    rw [hi]
    split at h
    · rwa [hi] at h
    · exact List.mem_cons_of_mem _ h

/-! ### One scanline -/

/-- Writing a row refuses, or stores its cells and moves on. -/
theorem putRow_cases (s : State) (sc : Scan) (g : Image) (used : Nat) (row : List Byte) :
    (∃ r, putRow s sc g used row = .refused r) ∨
      ((∀ c ∈ rowCells s sc g row, s.reachable c.1 = true) ∧
        putRow s sc g used row =
          .ok (({ s with mem := Memory.writeAll s.mem (rowCells s sc g row) } : State).endRow sc used row)) := by
  unfold putRow
  rcases storeCells_cases (rowCells s sc g row) s with ⟨r, h⟩ | ⟨h1, h2⟩
  · exact .inl ⟨r, by rw [h, Run.andThen_refused]⟩
  · exact .inr ⟨h1, by rw [h2, Run.andThen_ok]⟩

/-- One scanline refuses, or its row is reconstructed, stored and carried forward. -/
theorem filterRow_cases (pred : Predictor) (s : State) :
    (∃ r, filterRow pred s = .refused r) ∨
      ∃ sc g rest row, s.scratch.scan = some sc ∧ sc.images = g :: rest ∧
        Reachable s (s.srcAddr.toNat + sc.inOff + 1) (rowBytes s.imgFmt g.width) ∧
        row = reconRow pred (bppOf s.imgFmt) s.scratch.prior []
          (s.engineBytes (s.srcAddr.toNat + sc.inOff + 1) (rowBytes s.imgFmt g.width)) ∧
        (∀ c ∈ rowCells s sc g row, s.reachable c.1 = true) ∧
        filterRow pred s =
          .ok (({ s with mem := Memory.writeAll s.mem (rowCells s sc g row) } : State).endRow sc
            (1 + rowBytes s.imgFmt g.width) row) := by
  unfold filterRow
  cases hs : s.scratch.scan with
  | none => exact .inl ⟨_, rfl⟩
  | some sc =>
    cases hi : sc.images with
    | nil => exact .inl ⟨.noScanline, by simp [hi]⟩
    | cons g rest =>
      simp only [hi]
      rcases memRead_cases s (s.srcAddr.toNat + sc.inOff + 1) (rowBytes s.imgFmt g.width)
        (fun raw => putRow s sc g (1 + rowBytes s.imgFmt g.width)
          (reconRow pred (bppOf s.imgFmt) s.scratch.prior [] raw)) with ⟨r, h⟩ | ⟨h1, h2⟩
      · exact .inl ⟨r, h⟩
      · rcases putRow_cases s sc g (1 + rowBytes s.imgFmt g.width)
          (reconRow pred (bppOf s.imgFmt) s.scratch.prior []
            (s.engineBytes (s.srcAddr.toNat + sc.inOff + 1) (rowBytes s.imgFmt g.width)))
          with ⟨r, h⟩ | ⟨h3, h4⟩
        · exact .inl ⟨r, by rw [h2, h]⟩
        · exact .inr ⟨sc, g, rest, _, rfl, hi, h1, rfl, h3, by rw [h2, h4]⟩

/-- Where a scanline's bytes can be read and its row stored, it is one step of the loop. -/
theorem filterRow_of_reachable {pred : Predictor} {s : State} {sc : Scan} {g : Image} {rest : List Image}
    (hs : s.scratch.scan = some sc) (hi : sc.images = g :: rest)
    (hr : Reachable s (s.srcAddr.toNat + sc.inOff + 1) (rowBytes s.imgFmt g.width))
    (hc : ∀ c ∈ rowCells s sc g (reconRow pred (bppOf s.imgFmt) s.scratch.prior []
      (s.engineBytes (s.srcAddr.toNat + sc.inOff + 1) (rowBytes s.imgFmt g.width))), s.reachable c.1 = true) :
    filterRow pred s =
      .ok (({ s with mem := Memory.writeAll s.mem (rowCells s sc g
          (reconRow pred (bppOf s.imgFmt) s.scratch.prior []
            (s.engineBytes (s.srcAddr.toNat + sc.inOff + 1) (rowBytes s.imgFmt g.width)))) } : State).endRow sc
        (1 + rowBytes s.imgFmt g.width)
        (reconRow pred (bppOf s.imgFmt) s.scratch.prior []
          (s.engineBytes (s.srcAddr.toNat + sc.inOff + 1) (rowBytes s.imgFmt g.width)))) := by
  unfold filterRow putRow
  simp only [hs, hi]
  rw [memRead_of_reachable hr, storeCells_of_reachable hc, Run.andThen_ok]

/-- What the filter-type byte of the next scanline says. -/
theorem rowHead_cases (s : State) :
    (∃ r, rowHead s = .stop (.refused r)) ∨
      ∃ sc g rest, s.scratch.scan = some sc ∧ sc.images = g :: rest ∧
        s.reachable (s.srcAddr.toNat + sc.inOff) = true ∧
        ((∃ i, decodeFilter (s.engineByte (s.srcAddr.toNat + sc.inOff)) = .instr i ∧ rowHead s = .filter i) ∨
          ∃ ft, decodeFilter (s.engineByte (s.srcAddr.toNat + sc.inOff)) = .illegalFilter ft ∧
            rowHead s = .stop (unsupportedFilter s sc g ft)) := by
  unfold rowHead
  cases hs : s.scratch.scan with
  | none => exact .inl ⟨_, rfl⟩
  | some sc =>
    cases hi : sc.images with
    | nil => exact .inl ⟨.noScanline, by simp [hi]⟩
    | cons g rest =>
      simp only [hi]
      cases hb : firstBlocked s.params s.memErrors (s.srcAddr.toNat + sc.inOff) 1 with
      | some r => exact .inl ⟨r, rfl⟩
      | none =>
        have hr : s.reachable (s.srcAddr.toNat + sc.inOff) = true :=
          (firstBlocked_none_iff_reachable.mp hb) 0 (by omega)
        simp only
        cases hd : decodeFilter (s.engineByte (s.srcAddr.toNat + sc.inOff)) with
        | instr i => exact .inr ⟨sc, g, rest, rfl, hi, hr, .inl ⟨i, hd, rfl⟩⟩
        | illegalCommand w => exact .inl ⟨.noScanline, rfl⟩
        | illegalFilter ft =>
          rcases memRead_cases s (s.srcAddr.toNat + sc.inOff + 1) (rowBytes s.imgFmt g.width)
            (fun _ => unsupportedFilter s sc g ft) with ⟨r, h⟩ | ⟨-, h⟩
          · exact .inl ⟨r, congrArg RowHead.stop h⟩
          · exact .inr ⟨sc, g, rest, rfl, hi, hr, .inr ⟨ft, hd, congrArg RowHead.stop h⟩⟩

/-- A filter-type byte decodes to a filter type of `filterTable`'s or is illegal. -/
theorem decodeFilter_cases (b : Byte) :
    (∃ i, decodeFilter b = .instr i ∧
      (i = .filterNone ∨ i = .filterSub ∨ i = .filterUp ∨ i = .filterAverage ∨ i = .filterPaeth)) ∨
      (decodeFilter b = .illegalFilter b ∧ 5 ≤ b.toNat) := by
  unfold decodeFilter
  split
  · exact .inl ⟨_, rfl, by simp⟩
  · exact .inl ⟨_, rfl, by simp⟩
  · exact .inl ⟨_, rfl, by simp⟩
  · exact .inl ⟨_, rfl, by simp⟩
  · exact .inl ⟨_, rfl, by simp⟩
  · next h0 h1 h2 h3 h4 =>
    refine .inr ⟨rfl, ?_⟩
    rcases Nat.lt_or_ge b.toNat 5 with h | h
    · exfalso
      have : b.toNat = 0 ∨ b.toNat = 1 ∨ b.toNat = 2 ∨ b.toNat = 3 ∨ b.toNat = 4 := by omega
      rcases this with h | h | h | h | h
      · exact h0 h
      · exact h1 h
      · exact h2 h
      · exact h3 h
      · exact h4 h
    · exact h

/-- The predictor of each filter type's row. -/
theorem rowOf_eq_filterRow {i : Instr} {pred : Predictor} (h : (i, pred) ∈ filterTable) (s : State) :
    rowOf i s = filterRow pred s := by
  simp only [filterTable, List.mem_cons, Prod.mk.injEq, List.not_mem_nil, or_false] at h
  rcases h with ⟨rfl, rfl⟩ | ⟨rfl, rfl⟩ | ⟨rfl, rfl⟩ | ⟨rfl, rfl⟩ | ⟨rfl, rfl⟩ <;> rfl

/-- One iteration of the row loop: a refusal, UNSUPPORTED_FILTER, or one scanline by one of the five predictors. -/
theorem rowStep_cases (s : State) :
    (∃ r, rowStep s = .refused r) ∨
      (∃ sc g rest ft, s.scratch.scan = some sc ∧ sc.images = g :: rest ∧
        decodeFilter (s.engineByte (s.srcAddr.toNat + sc.inOff)) = .illegalFilter ft ∧
        rowStep s = unsupportedFilter s sc g ft) ∨
      ∃ i pred, (i, pred) ∈ filterTable ∧ rowHead s = .filter i ∧ rowStep s = filterRow pred s := by
  unfold rowStep
  rcases rowHead_cases s with ⟨r, h⟩ | ⟨sc, g, rest, hs, hi, -, ⟨i, hd, h⟩ | ⟨ft, hd, h⟩⟩
  · exact .inl ⟨r, by rw [h]⟩
  · refine .inr (.inr ?_)
    rcases decodeFilter_cases (s.engineByte (s.srcAddr.toNat + sc.inOff)) with ⟨j, hj, hc⟩ | ⟨hj, -⟩
    · obtain rfl : i = j := by
        rw [hd] at hj
        exact Decoded.instr.inj hj
      have : ∃ pred, (i, pred) ∈ filterTable := by
        rcases hc with rfl | rfl | rfl | rfl | rfl <;> simp [filterTable]
      obtain ⟨pred, hp⟩ := this
      exact ⟨i, pred, hp, h, by rw [h]; exact rowOf_eq_filterRow hp s⟩
    · rw [hd] at hj
      cases hj
  · exact .inr (.inl ⟨sc, g, rest, ft, hs, hi, hd, by rw [h]⟩)

/-- The loop is one iteration and then the rest. -/
theorem runRows_succ (n : Nat) (s : State) : runRows (n + 1) s = (rowStep s).andThen fun s' => runRows n s' := rfl

theorem copyRows_succ (n : Nat) (s : State) : copyRows (n + 1) s = (copyRow s).andThen fun s' => copyRows n s' := rfl

/-- One iteration of DEINTERLACE refuses, or copies a row to its cells. -/
theorem copyRow_cases (s : State) :
    (∃ r, copyRow s = .refused r) ∨
      ∃ sc g rest row, s.scratch.scan = some sc ∧ sc.images = g :: rest ∧
        Reachable s (s.srcAddr.toNat + sc.inOff) (g.width * bppOf s.imgFmt) ∧
        row = s.engineBytes (s.srcAddr.toNat + sc.inOff) (g.width * bppOf s.imgFmt) ∧
        (∀ c ∈ rowCells s sc g row, s.reachable c.1 = true) ∧
        copyRow s = .ok (({ s with mem := Memory.writeAll s.mem (rowCells s sc g row) } : State).withScan
          (sc.next (g.width * bppOf s.imgFmt) (g.width * bppOf s.imgFmt))) := by
  unfold copyRow
  cases hs : s.scratch.scan with
  | none => exact .inl ⟨_, rfl⟩
  | some sc =>
    cases hi : sc.images with
    | nil => exact .inl ⟨.noScanline, by simp [hi]⟩
    | cons g rest =>
      simp only [hi]
      rcases memRead_cases s (s.srcAddr.toNat + sc.inOff) (g.width * bppOf s.imgFmt)
        (fun row => (storeCells (rowCells s sc g row) s).andThen fun s' =>
          .ok (s'.withScan (sc.next (g.width * bppOf s.imgFmt) (g.width * bppOf s.imgFmt))))
        with ⟨r, h⟩ | ⟨h1, h2⟩
      · exact .inl ⟨r, h⟩
      · rcases storeCells_cases (rowCells s sc g
          (s.engineBytes (s.srcAddr.toNat + sc.inOff) (g.width * bppOf s.imgFmt))) s with ⟨r, h⟩ | ⟨h3, h4⟩
        · exact .inl ⟨r, by rw [h2, h, Run.andThen_refused]⟩
        · exact .inr ⟨sc, g, rest, _, rfl, hi, h1, rfl, h3, by rw [h2, h4, Run.andThen_ok]⟩

/-- The entry into a row loop raises an error of the checks, or enters with the counters at the start. -/
theorem startRows_cases (i : Instr) (scatter : Bool) (s : State) :
    (∃ e, s.checkReconstruction i = some e ∧ startRows i scatter s = .raised e s) ∨
      (s.checkReconstruction i = none ∧
        startRows i scatter s =
          .ok { s with scratch := { s.scratch with
            prior := freshPrior s.imgFmt s.images
            scan := some (Scan.start s.images (s.needOut i) scatter) } }) := by
  unfold startRows
  cases h : s.checkReconstruction i with
  | some e => exact .inl ⟨e, rfl, rfl⟩
  | none => exact .inr ⟨rfl, rfl⟩

/-- An error of the checks is CONFIG_ERROR, INPUT_SHORT or OUTPUT_SHORT. -/
theorem checkReconstruction_code {s : State} {i : Instr} {e : Error} (h : s.checkReconstruction i = some e) :
    e.code = .configError ∨ e.code = .inputShort ∨ e.code = .outputShort := by
  unfold State.checkReconstruction at h
  split at h
  · cases h
    exact .inl rfl
  · split at h
    · cases h
      exact .inr (.inl rfl)
    · split at h
      · cases h
        exact .inr (.inr rfl)
      · cases h

/-- After a row: the command ends exactly when no image is left. -/
theorem closeRows_cases (s : State) :
    (∃ sc, s.scratch.scan = some sc ∧ sc.images = [] ∧
        closeRows s = s.completeOutput sc.needOut) ∨
      ((∀ sc, s.scratch.scan = some sc → sc.images ≠ []) ∧ closeRows s = s) := by
  unfold closeRows
  cases hs : s.scratch.scan with
  | none => exact .inr ⟨by simp, rfl⟩
  | some sc =>
    cases hi : sc.images with
    | nil => exact .inl ⟨sc, rfl, hi, by simp [hi]⟩
    | cons g rest => exact .inr ⟨fun sc' h => by obtain rfl := Option.some.inj h; simp [hi], by simp [hi]⟩

end Sys2Proof.Machine
end

