-- ==== Sys2Proof/Laws/Frame.lean ====
section
/-! SUPPORT. What every instruction keeps: one lemma per shared operation, then one for all instructions. -/

namespace Sys2Proof.Machine

open Sys2Proof

theorem KeepsOperands.refl (s : State) : KeepsOperands s s := by constructor <;> rfl

theorem KeepsOperands.trans {a b c : State} (h : KeepsOperands a b) (k : KeepsOperands b c) : KeepsOperands a c := by
  constructor <;> simp [h.1, h.2, h.3, h.4, h.5, h.6, h.7, h.8, h.9, h.10, h.11, h.12, h.13, h.14, h.15,
    k.1, k.2, k.3, k.4, k.5, k.6, k.7, k.8, k.9, k.10, k.11, k.12, k.13, k.14, k.15]

/-- What a piece of a command's pseudocode keeps, whatever its instruction: no operand, no status field, no error
information, OUT_LEN and the engine, the canonical form of memory, the reserved bits of CHK_FLAGS; no host write is posted. -/
structure Midway (s s' : State) : Prop where
  ops : KeepsOperands s s'
  done : s'.done = s.done
  code : s'.code = s.code
  e0 : s'.errInfo0 = s.errInfo0
  e1 : s'.errInfo1 = s.errInfo1
  e2 : s'.errInfo2 = s.errInfo2
  outLen : s'.outLen = s.outLen
  engine : s'.engine = s.engine
  posted : ∀ c ∈ s'.hostBuf, c ∈ s.hostBuf
  wf : Memory.wf s.mem = true → Memory.wf s'.mem = true
  flags : s.chkFlags.toNat < 16 → s'.chkFlags.toNat < 16

theorem Midway.refl (s : State) : Midway s s := by
  refine ⟨KeepsOperands.refl s, rfl, rfl, rfl, rfl, rfl, rfl, rfl, fun _ h => h, id, id⟩

theorem Midway.trans {a b c : State} (h : Midway a b) (k : Midway b c) : Midway a c :=
  ⟨h.ops.trans k.ops, k.done.trans h.done, k.code.trans h.code, k.e0.trans h.e0, k.e1.trans h.e1, k.e2.trans h.e2,
   k.outLen.trans h.outLen, k.engine.trans h.engine, fun c hc => h.posted c (k.posted c hc), k.wf ∘ h.wf, k.flags ∘ h.flags⟩

/-- The same of the outcome of a piece: what it hands on, or raises with a code that is not OK. -/
def RunMidway (s : State) (r : Run) : Prop :=
  match r with
  | .ok t => Midway s t
  | .raised e t => Midway s t ∧ e.code ≠ .ok
  | .refused _ => True

/-- Pieces one after another. -/
theorem RunMidway.andThen {s : State} {r : Run} {k : State → Run} (h : RunMidway s r) (hk : ∀ t, RunMidway t (k t)) :
    RunMidway s (r.andThen k) := by
  cases r with
  | ok t =>
    simp only [Run.andThen_ok]
    have := hk t
    unfold RunMidway at *
    split at this
    · exact h.trans this
    · exact ⟨h.trans this.1, this.2⟩
    · trivial
  | raised e t => exact h
  | refused f => trivial

/-- A piece after a state change that keeps as much. -/
theorem RunMidway.pre {s u : State} {r : Run} (m : Midway s u) (h : RunMidway u r) : RunMidway s r := by
  cases r with
  | ok t => exact m.trans h
  | raised e t => exact ⟨m.trans h.1, h.2⟩
  | refused f => trivial

theorem tagFlags_lt (t : List Byte) : (tagFlags t).toNat < 16 := by
  unfold tagFlags word bit
  rw [BitVec.toNat_ofNat]
  refine lt_of_le_of_lt (Nat.mod_le _ _) ?_
  split <;> split <;> split <;> split <;> omega

theorem mid_withPos (s : State) (n : Nat) : Midway s (s.withPos n) := by
  refine ⟨by constructor <;> rfl, rfl, rfl, rfl, rfl, rfl, rfl, rfl, fun _ h => h, id, id⟩

theorem mid_withPosCursor (s : State) (n : Nat) : Midway s (s.withPos n).withCursor := by
  refine ⟨by constructor <;> rfl, rfl, rfl, rfl, rfl, rfl, rfl, rfl, fun _ h => h, id, id⟩

theorem mid_chunk (s : State) (a b c d : List Byte) : Midway s (chunkRecorded s a b c d) := by
  refine ⟨by constructor <;> rfl, rfl, rfl, rfl, rfl, rfl, rfl, rfl, fun _ h => h, id, fun _ => ?_⟩
  exact tagFlags_lt b

theorem mid_chunkStep (s : State) : RunMidway s (chunkStep s) := by
  rcases chunkStep_cases s with ⟨e, n, h, _, hc⟩ | ⟨r, h⟩ | ⟨a, b, c, d, _, _, _, _, _, _, _, h⟩ <;> rw [h]
  · exact ⟨mid_withPos _ _, hc⟩
  · trivial
  · rcases compareCrc_cases s.scratch.pos (chunkRecorded s a b c d) with ⟨_, h⟩ | ⟨_, _, h⟩ <;> rw [h]
    · exact mid_chunk _ _ _ _ _
    · exact ⟨mid_chunk _ _ _ _ _, by simp⟩

theorem mid_sigStep (s : State) : RunMidway s (sigStep s) := by
  rcases sigStep_cases s with ⟨e, n, h, _, hc⟩ | ⟨r, h⟩ | ⟨_, _, h⟩ <;> rw [h]
  · exact ⟨mid_withPos _ _, hc⟩
  · trivial
  · exact mid_withPosCursor _ _

theorem mid_walk (fuel : Nat) : ∀ (first : Bool) (s : State), RunMidway s (walkLoop fuel first s) := by
  induction fuel with
  | zero => intro first s; exact ⟨Midway.refl s, by simp⟩
  | succ k ih =>
    intro first s
    rw [walkLoop_succ]
    refine (mid_chunkStep s).andThen fun t => ?_
    split
    · exact ⟨Midway.refl t, by simp⟩
    · split
      · exact Midway.refl t
      · exact ih _ _

theorem mid_srcRange (s : State) : RunMidway s (srcRangeCheck s) := by
  unfold srcRangeCheck; split
  · exact Midway.refl s
  · exact ⟨Midway.refl s, by simp [configError]⟩

theorem mid_filterRow (pred : Predictor) (s : State) : RunMidway s (filterRow pred s) := by
  rcases filterRow_cases pred s with ⟨r, h⟩ | ⟨sc, g, rest, row, _, _, _, _, hc, h⟩ <;> rw [h]
  · trivial
  · refine ⟨by constructor <;> rfl, rfl, rfl, rfl, rfl, rfl, rfl, rfl, fun _ h => h, fun hw => ?_, id⟩
    exact Memory.writeAll_wf hw fun c hx => reachable_lt (hc c hx)

theorem mid_drawDst (s : State) : Midway s s.drawDst := by
  refine ⟨by constructor <;> rfl, rfl, rfl, rfl, rfl, rfl, rfl, rfl, fun c hc => (List.mem_filter.mp hc).1, drawDst_wf, id⟩

theorem mid_rowStep (s : State) : RunMidway s (rowStep s) := by
  rcases rowStep_cases s with ⟨r, h⟩ | ⟨sc, g, rest, ft, _, _, _, h⟩ | ⟨i, p, _, _, h⟩ <;> rw [h]
  · trivial
  · exact ⟨mid_drawDst s, by simp⟩
  · exact mid_filterRow _ _

theorem mid_runRows (n : Nat) : ∀ s, RunMidway s (runRows n s) := by
  induction n with
  | zero => intro s; exact Midway.refl s
  | succ k ih => intro s; rw [runRows_succ]; exact (mid_rowStep s).andThen ih

theorem mid_copyRow (s : State) : RunMidway s (copyRow s) := by
  rcases copyRow_cases s with ⟨r, h⟩ | ⟨sc, g, rest, row, _, _, _, _, hc, h⟩ <;> rw [h]
  · trivial
  · refine ⟨by constructor <;> rfl, rfl, rfl, rfl, rfl, rfl, rfl, rfl, fun _ h => h, fun hw => ?_, id⟩
    exact Memory.writeAll_wf hw fun c hx => reachable_lt (hc c hx)

theorem mid_copyRows (n : Nat) : ∀ s, RunMidway s (copyRows n s) := by
  induction n with
  | zero => intro s; exact Midway.refl s
  | succ k ih => intro s; rw [copyRows_succ]; exact (mid_copyRow s).andThen ih

theorem check_ne_ok {s : State} {i : Instr} {e : Error} (h : s.checkReconstruction i = some e) : e.code ≠ .ok := by
  rcases checkReconstruction_code h with h | h | h <;> simp [h]

theorem mid_startRows (i : Instr) (b : Bool) (s : State) : RunMidway s (startRows i b s) := by
  rcases startRows_cases i b s with ⟨e, he, h⟩ | ⟨_, h⟩ <;> rw [h]
  · exact ⟨Midway.refl s, check_ne_ok he⟩
  · refine ⟨by constructor <;> rfl, rfl, rfl, rfl, rfl, rfl, rfl, rfl, fun _ h => h, id, id⟩

theorem mid_startDeinterlace (s : State) : RunMidway s (startDeinterlace s) := by
  unfold startDeinterlace
  split
  · next e he => exact ⟨Midway.refl s, check_ne_ok he⟩
  · refine ⟨by constructor <;> rfl, rfl, rfl, rfl, rfl, rfl, rfl, rfl, fun _ h => h, id, id⟩

theorem mid_memRead (s : State) (a n : Nat) (k : List Byte → Run) (h : ∀ bs, RunMidway s (k bs)) : RunMidway s
    (memRead s a n k) := by
  rcases memRead_cases s a n k with ⟨r, h'⟩ | ⟨_, h'⟩ <;> rw [h']
  · trivial
  · exact h _

/-- How an instruction that answers a next state ends: `complete()` with or without OUT_LEN, in the row loop, or `raise`. -/
def ClosePost (s t : State) : Prop := ∃ u, Midway s u ∧
  ((∃ sc, u.scratch.scan = some sc ∧ t = u.completeOutput sc.needOut) ∨ t = u.complete ∨ t = u ∨
    ∃ e, e.code ≠ .ok ∧ t = u.raise e)

theorem close_post {s t : State} {r : Run} (h : RunMidway s r) (ht : r.close = .next t) : ClosePost s t := by
  rcases Run.close_eq_next ht with ⟨u, rfl, h2⟩ | ⟨e, u, rfl, h2⟩
  · refine ⟨u, h, ?_⟩
    rcases closeRows_cases u with ⟨sc, hs, _, hc⟩ | ⟨_, hc⟩
    · exact .inl ⟨sc, hs, by rw [h2, hc]⟩
    · exact .inr (.inr (.inl (by rw [h2, hc])))
  · exact ⟨u, h.1, .inr (.inr (.inr ⟨e, h.2, h2⟩))⟩

theorem finish_post {s t : State} {r : Run} (h : RunMidway s r) (ht : r.finish = .next t) : ClosePost s t := by
  rcases Run.finish_eq_next ht with ⟨u, rfl, h2⟩ | ⟨e, u, rfl, h2⟩
  · exact ⟨u, h, .inr (.inl h2)⟩
  · exact ⟨u, h.1, .inr (.inr (.inr ⟨e, h.2, h2⟩))⟩

/-- Every instruction, from every state. -/
theorem exec_post {i : Instr} {s t : State} (h : exec i s = .next t) : ClosePost s t := by
  cases i
  case nop =>
    simp only [exec, execNop] at h
    exact ⟨s, Midway.refl s, .inr (.inl (by simpa using h.symm))⟩
  case sig => exact finish_post ((mid_srcRange s).andThen fun u => RunMidway.pre (mid_withPos _ _) (mid_sigStep u.fromCursor)) h
  case chunk => exact finish_post ((mid_srcRange s).andThen fun u => RunMidway.pre (mid_withPos _ _) (mid_chunkStep u.fromCursor)) h
  case walk => exact finish_post ((mid_srcRange s).andThen fun u => by
      refine RunMidway.pre ?_ ((mid_sigStep ({ u with chkCount := 0#32 } : State).fromCursor).andThen fun s2 => mid_walk _ _ _)
      exact ⟨by constructor <;> rfl, rfl, rfl, rfl, rfl, rfl, rfl, rfl, fun _ h => h, id, id⟩) h
  case crc => exact finish_post ((mid_srcRange s).andThen fun u => mid_memRead _ _ _ _ fun bs => by
      refine ⟨by constructor <;> rfl, rfl, rfl, rfl, rfl, rfl, rfl, rfl, fun _ h => h, id, id⟩) h
  case unfilter => exact close_post ((mid_startRows _ _ s).andThen fun u => mid_runRows _ _) h
  case reconstruct => exact close_post ((mid_startRows _ _ s).andThen fun u => mid_runRows _ _) h
  case deinterlace => exact close_post ((mid_startDeinterlace s).andThen fun u => mid_copyRows _ _) h
  all_goals exact close_post (mid_filterRow _ s) h

end Sys2Proof.Machine
end

