-- ==== Sys2Proof/Laws/Host.lean ====
section
/-! SUPPORT. The host's side and the step: once each, everything an access or a step can do. -/

namespace Sys2Proof.Machine

open Sys2Proof

/-- A host access to memory answers a bus error, refuses, or does what it says. -/
theorem hostAccess_cases (s : State) (writes : Bool) (a : Nat) (k : State) :
    (∃ f, hostAccess s writes a k = .next (s.respond (.busError f))) ∨
      (∃ r, hostAccess s writes a k = .refused r) ∨
      (s.reachable a = true ∧ s.hostMayNot writes a = false ∧ hostAccess s writes a k = .next k) := by
  unfold hostAccess
  cases hb : blocked s.params s.memErrors a with
  | none =>
    simp only
    cases hm : s.hostMayNot writes a with
    | true => exact .inr (.inl ⟨.hostHazard a, by simp⟩)
    | false => exact .inr (.inr ⟨reachable_iff.mpr hb, rfl, by simp⟩)
  | some r =>
    cases r
    case registerWindow => exact .inl ⟨_, rfl⟩
    all_goals exact .inr (.inl ⟨_, rfl⟩)

/-- A host access to memory that can be reached, outside every hazard. -/
theorem hostAccess_of_reachable {s : State} {writes : Bool} {a : Nat} (h : s.reachable a = true)
    (hm : s.hostMayNot writes a = false) (k : State) : hostAccess s writes a k = .next k := by
  unfold hostAccess
  rw [reachable_iff.mp h]
  simp [hm]

theorem hostMayNot_idle {s : State} (h : s.engine = .idle) (writes : Bool) (a : Nat) :
    s.hostMayNot writes a = false := by
  simp [State.hostMayNot, State.isBusy, h]

/-- Where no host write is posted, the host reads memory. -/
theorem hostByte_of_not_posted {s : State} {a : Nat} (h : s.posted a = false) : s.hostByte a = Memory.read s.mem a := by
  have : s.hostBuf.reverse.find? (fun c => decide (c.1 = a)) = none := by
    simpa [State.posted] using h
  rw [State.hostByte, this]

/-- Where no host write is posted, the engine reads memory. -/
theorem engineByte_of_not_posted {s : State} {a : Nat} (h : s.posted a = false) :
    s.engineByte a = Memory.read s.mem a := by
  simp [State.engineByte, h]

/-- Nothing is posted to the bytes whose posted writes gave way. -/
theorem not_posted_inside {s : State} {base n a : Nat} {buf : List Host.Cell} (h : s.hostBuf = postedOutside base n buf)
    (h1 : base ≤ a) (h2 : a < base + n) : s.posted a = false := by
  simp only [State.posted, h, postedOutside, List.any_eq_false, List.mem_filter, decide_eq_true_eq]
  rintro c ⟨_, hc⟩ rfl
  exact hc ⟨h1, h2⟩

/-- Elsewhere what is posted stands. -/
theorem hostByte_postedOutside {s t : State} {base n a : Nat} (h : t.hostBuf = postedOutside base n s.hostBuf)
    (hm : Memory.read t.mem a = Memory.read s.mem a) (ha : ¬ (base ≤ a ∧ a < base + n)) : t.hostByte a = s.hostByte a := by
  have : ∀ l : List Host.Cell, (postedOutside base n l).find? (fun c => decide (c.1 = a)) =
      l.find? fun c => decide (c.1 = a) := by
    intro l
    rw [postedOutside, List.find?_filter]
    congr 1
    funext c
    by_cases hc : c.1 = a
    · subst hc; simp [ha]
    · simp [hc]
  unfold State.hostByte
  rw [h, hm, postedOutside, ← List.filter_reverse]
  rw [show (s.hostBuf.reverse.filter _) = postedOutside base n s.hostBuf.reverse from rfl, this]

/-- A register write: a bus error; no effect (an unmapped offset, or `rst` asserted); a refusal that sets REJECTED; or
the register's own write. -/
theorem regWrite_cases (s : State) (off : BitVec 7) (width : Nat) (v : Word) :
    (accessAdmitted off width = false ∧ s.regWrite off width v = s.regAccessFault off width) ∨
      s.regWrite off width v = s.respond .done ∨
      (s.isBusy = true ∧ s.regWrite off width v = ({ s with rejected := true } : State).respond .done) ∨
      ∃ r, s.rst = false ∧ regAt off.toNat = some r ∧ (s.isBusy = true → r.refusedWhileBusy = false) ∧
        s.regWrite off width v = (s.writeReg r v).respond .done := by
  unfold State.regWrite
  cases ha : accessAdmitted off width with
  | false => exact .inl ⟨rfl, by simp⟩
  | true =>
    refine .inr ?_
    simp only [Bool.not_true, Bool.false_eq_true, if_false]
    cases hr : s.rst with
    | true => exact .inl (by simp)
    | false =>
      simp only [Bool.false_eq_true, if_false]
      cases hg : regAt off.toNat with
      | none => exact .inl rfl
      | some r =>
        simp only
        split
        · next hb =>
          simp only [Bool.and_eq_true] at hb
          exact .inr (.inl ⟨hb.1, rfl⟩)
        · next hb =>
          refine .inr (.inr ⟨r, trivial, rfl, fun h => ?_, rfl⟩)
          simpa [h] using hb

/-- A register read changes nothing but the answer and the draw counter. -/
theorem regRead_cases (s : State) (off : BitVec 7) (width : Nat) :
    (∃ r, s.regRead off width = s.respond r) ∨ s.regRead off width = s.respondFree := by
  unfold State.regRead
  split
  · exact .inl ⟨_, rfl⟩
  · split
    · exact .inr rfl
    · split
      · exact .inl ⟨_, rfl⟩
      · split
        · exact .inr rfl
        · exact .inl ⟨_, rfl⟩

/-- A step is an engine turn or the delivery of the next event. -/
theorem step_cases (s : State) :
    (s.inputs = [] ∧ step s = engineTurn .command s) ∨
      (∃ g rest, s.inputs = .engine g :: rest ∧ step s = engineTurn g { s with inputs := rest }) ∨
      ∃ e rest, s.inputs = e :: rest ∧ (∀ g, e ≠ .engine g) ∧ step s = deliver e { s with inputs := rest } := by
  unfold step
  cases h : s.inputs with
  | nil => exact .inl ⟨rfl, rfl⟩
  | cons e rest =>
    cases e with
    | engine g => exact .inr (.inl ⟨g, rest, rfl, rfl⟩)
    | regRead off w => exact .inr (.inr ⟨_, rest, rfl, by simp, rfl⟩)
    | regWrite off w v => exact .inr (.inr ⟨_, rest, rfl, by simp, rfl⟩)
    | memRead a => exact .inr (.inr ⟨_, rest, rfl, by simp, rfl⟩)
    | memWrite a b => exact .inr (.inr ⟨_, rest, rfl, by simp, rfl⟩)
    | memPost a b => exact .inr (.inr ⟨_, rest, rfl, by simp, rfl⟩)
    | drain => exact .inr (.inr ⟨_, rest, rfl, by simp, rfl⟩)
    | memErrors rs => exact .inr (.inr ⟨_, rest, rfl, by simp, rfl⟩)
    | assertReset => exact .inr (.inr ⟨_, rest, rfl, by simp, rfl⟩)
    | releaseReset => exact .inr (.inr ⟨_, rest, rfl, by simp, rfl⟩)

/-- An engine turn: nothing (idle), the accepted command or its entry into a row loop, an illegal word, or one scanline. -/
theorem engineTurn_cases (g : Grain) (s : State) :
    (s.engine = .idle ∧ engineTurn g s = .next s) ∨
      ∃ w, s.engine = .busy w ∧
        ((s.scratch.scan = none ∧
            ((∃ i, decodeCommand w = .instr i ∧
                engineTurn g s = if entersRows g i then (enterRows i s).close else exec i s) ∨
              engineTurn g s = .next (s.illegalWord w))) ∨
          ∃ sc, s.scratch.scan = some sc ∧
            ((∃ i, rowHead s = .filter i ∧ engineTurn g s = exec i s) ∨
              ∃ r, rowHead s = .stop r ∧ engineTurn g s = r.close)) := by
  have illegal : ∀ w v, decodeCommand w = .illegalCommand v → v = w := by
    intro w v h
    unfold decodeCommand at h
    split at h
    · split at h <;> cases h
      rfl
    · cases h
      rfl
  unfold engineTurn fetch
  cases he : s.engine with
  | idle => exact .inl ⟨rfl, rfl⟩
  | busy w =>
    refine .inr ⟨w, rfl, ?_⟩
    cases hs : s.scratch.scan with
    | none =>
      refine .inl ⟨rfl, ?_⟩
      simp only [fetchCommand]
      cases hd : decodeCommand w with
      | instr i =>
        refine .inl ⟨i, rfl, ?_⟩
        simp only
        cases hx : entersRows g i <;> simp
      | illegalCommand v => exact .inr (by simp [illegal w v hd])
      | illegalFilter b => exact .inr (by simp)
    | some sc =>
      refine .inr ⟨sc, rfl, ?_⟩
      simp only [fetchFilter]
      cases hh : rowHead s with
      | filter i => exact .inl ⟨i, rfl, rfl⟩
      | stop r => exact .inr ⟨r, rfl, rfl⟩

end Sys2Proof.Machine
end

