-- ==== Sys2Proof/Laws/Rows.lean ====
section
/-! SUPPORT. The row loops: their counters, what the checks leave to them, and where their bytes lie. -/

namespace Sys2Proof.Machine

open Sys2Proof

/-! ### Counters -/

/-- The loop counters point into the first image, and no image is empty. -/
structure ScanOk (sc : Scan) : Prop where
  row : ∀ g rest, sc.images = g :: rest → sc.row < g.height
  pos : ∀ g ∈ sc.images, 0 < g.height

theorem ScanOk.next {sc : Scan} (h : ScanOk sc) (a b : Nat) : ScanOk (sc.next a b) := by
  unfold Scan.next
  split
  · exact h
  · next g rest hi =>
    split
    · next hr =>
      refine ⟨fun g' r' h' => ?_, h.pos⟩
      simp only [hi] at h'
      obtain ⟨rfl, rfl⟩ := List.cons.inj h'
      exact hr
    · refine ⟨fun g' r' h' => ?_, fun g' hg => h.pos g' (by rw [hi]; exact List.mem_cons_of_mem _ hg)⟩
      exact h.pos g' (by rw [hi]; simp only at h'; rw [h']; simp)

/-- A row fewer is left. -/
theorem rowsLeft_next {sc : Scan} (h : ScanOk sc) (hn : sc.images ≠ []) (a b : Nat) :
    (sc.next a b).rowsLeft + 1 = sc.rowsLeft := by
  obtain ⟨g, rest, hi⟩ : ∃ g rest, sc.images = g :: rest := by
    cases h : sc.images with
    | nil => exact absurd h hn
    | cons g r => exact ⟨g, r, rfl⟩
  have hr := h.row g rest hi
  have : sc.rowsLeft = g.height + (rest.map fun g => g.height).sum - sc.row := by
    unfold Scan.rowsLeft; rw [hi]; rfl
  rw [this]
  by_cases c : sc.row + 1 < g.height
  · rw [Scan.next_of_lt hi c]
    unfold Scan.rowsLeft
    simp only [hi, List.map_cons, List.sum_cons]
    omega
  · rw [Scan.next_of_ge hi (by omega)]
    unfold Scan.rowsLeft
    simp only
    omega

theorem images_of_rowsLeft {sc : Scan} (h : ScanOk sc) (h0 : sc.rowsLeft = 0) : sc.images = [] := by
  cases hi : sc.images with
  | nil => rfl
  | cons g rest =>
    have hr := h.row g rest hi
    unfold Scan.rowsLeft at h0
    rw [hi] at h0
    simp only [List.map_cons, List.sum_cons] at h0
    omega

theorem rowsLeft_of_nil {sc : Scan} (h : sc.images = []) : sc.rowsLeft = 0 := by
  simp [Scan.rowsLeft, h]

/-- `n` rows that do not raise leave `n` rows fewer. -/
theorem runRows_counters (n : Nat) : ∀ (s : State) (sc : Scan), s.scratch.scan = some sc → ScanOk sc → n ≤ sc.rowsLeft →
    ∀ t, runRows n s = .ok t → ∃ sc', t.scratch.scan = some sc' ∧ ScanOk sc' ∧ sc'.rowsLeft + n = sc.rowsLeft ∧
      sc'.needOut = sc.needOut := by
  induction n with
  | zero => intro s sc hs ho _ t h; cases h; exact ⟨sc, hs, ho, rfl, rfl⟩
  | succ k ih =>
    intro s sc hs ho hn t h
    rw [runRows_succ] at h
    have hne : sc.images ≠ [] := fun hi => by rw [rowsLeft_of_nil hi] at hn; omega
    rcases rowStep_cases s with ⟨r, hr⟩ | ⟨sc', g, rest, ft, _, _, _, hr⟩ | ⟨i, p, _, _, hr⟩
    · rw [hr] at h; cases h
    · rw [hr] at h; cases h
    · rw [hr] at h
      rcases filterRow_cases p s with ⟨r, h'⟩ | ⟨sc', g, rest, row, hs', hi, _, _, _, h'⟩
      · rw [h'] at h; cases h
      · rw [h'] at h
        rw [hs] at hs'; obtain rfl := Option.some.inj hs'
        simp only [Run.andThen_ok] at h
        have h1 := rowsLeft_next ho hne (1 + rowBytes s.imgFmt g.width) row.length
        obtain ⟨sc2, a, b, c, d⟩ := ih _ (sc.next (1 + rowBytes s.imgFmt g.width) row.length) rfl (ho.next _ _) (by omega) t h
        exact ⟨sc2, a, b, by omega, by rw [d, Scan.next_needOut]⟩

/-- The same for the rows DEINTERLACE copies. -/
theorem copyRows_counters (n : Nat) : ∀ (s : State) (sc : Scan), s.scratch.scan = some sc → ScanOk sc → n ≤
    sc.rowsLeft →
    ∀ t, copyRows n s = .ok t → ∃ sc', t.scratch.scan = some sc' ∧ ScanOk sc' ∧ sc'.rowsLeft + n = sc.rowsLeft ∧
      sc'.needOut = sc.needOut := by
  induction n with
  | zero => intro s sc hs ho _ t h; cases h; exact ⟨sc, hs, ho, rfl, rfl⟩
  | succ k ih =>
    intro s sc hs ho hn t h
    rw [copyRows_succ] at h
    have hne : sc.images ≠ [] := fun hi => by rw [rowsLeft_of_nil hi] at hn; omega
    rcases copyRow_cases s with ⟨r, h'⟩ | ⟨sc', g, rest, row, hs', hi, _, _, _, h'⟩
    · rw [h'] at h; cases h
    · rw [h'] at h
      rw [hs] at hs'; obtain rfl := Option.some.inj hs'
      simp only [Run.andThen_ok] at h
      have h1 := rowsLeft_next ho hne (g.width * bppOf s.imgFmt) (g.width * bppOf s.imgFmt)
      obtain ⟨sc2, a, b, c, d⟩ := ih _ (sc.next (g.width * bppOf s.imgFmt) (g.width * bppOf s.imgFmt)) rfl (ho.next _ _) (by omega) t h
      exact ⟨sc2, a, b, by omega, by rw [d, Scan.next_needOut]⟩

/-! ### The checks -/

/-- What the checks of R145 leave of the dimensions and the interlace method. -/
theorem check_dims {s : State} {i : Instr} (h : s.checkReconstruction i = none) :
    s.imgWidth ≠ 0#32 ∧ s.imgHeight ≠ 0#32 ∧ (interlace s.imgFmt = 0 ∨ interlace s.imgFmt = 1) := by
  unfold State.checkReconstruction at h
  split at h
  · cases h
  · next hc =>
    unfold State.configCheck at hc
    simp only at hc
    split at hc; · cases hc
    split at hc; · cases hc
    split at hc; · cases hc
    split at hc; · cases hc
    next h4 =>
    split at hc; · cases hc
    next h5 =>
    refine ⟨fun h => h5 (.inl h), fun h => h5 (.inr h), ?_⟩
    by_contra hh
    exact h4 ⟨fun h => hh (.inl h), fun h => hh (.inr h)⟩

theorem images_pos {s : State} {i : Instr} (h : s.checkReconstruction i = none) :
    ∀ g ∈ s.images, 0 < g.width ∧ 0 < g.height := by
  obtain ⟨hw, hh, hi⟩ := check_dims h
  intro g hg
  have toPos : ∀ x : Word, x ≠ 0#32 → 0 < x.toNat := by
    intro x hx
    rcases Nat.eq_zero_or_pos x.toNat with h | h
    · exact absurd (BitVec.eq_of_toNat_eq h) hx
    · exact h
  unfold State.images imagesOf at hg
  split at hg
  · simp only [List.mem_singleton] at hg
    subst hg
    exact ⟨toPos _ hw, toPos _ hh⟩
  · simpa using (List.mem_filter.mp hg).2

theorem scanOk_start {s : State} {i : Instr} (h : s.checkReconstruction i = none) (n : Nat) (b : Bool) :
    ScanOk (Scan.start s.images n b) := by
  refine ⟨fun g rest hi => (images_pos h g ?_).2, fun g hg => (images_pos h g hg).2⟩
  simp only [Scan.start] at hi
  rw [hi]; simp

theorem images_ne_nil {s : State} {i : Instr} (h : s.checkReconstruction i = none) : s.images ≠ [] := by
  obtain ⟨hw, hh, hi⟩ := check_dims h
  have toPos : ∀ x : Word, x ≠ 0#32 → 0 < x.toNat := by
    intro x hx
    rcases Nat.eq_zero_or_pos x.toNat with h | h
    · exact absurd (BitVec.eq_of_toNat_eq h) hx
    · exact h
  have a := toPos _ hw
  have b := toPos _ hh
  unfold State.images imagesOf
  split
  · simp
  · intro h
    have : (⟨some 0, passWidth s.imgWidth.toNat 0, passHeight s.imgHeight.toNat 0⟩ : Image) ∈
      ((List.range 7).map fun p => Image.mk (some p) (passWidth s.imgWidth.toNat p) (passHeight s.imgHeight.toNat p)).filter
        (fun g => decide (0 < g.width) && decide (0 < g.height)) := by
      rw [List.mem_filter]
      refine ⟨List.mem_map.mpr ⟨0, by simp, rfl⟩, ?_⟩
      simp only [passWidth, passHeight, passRow, passCount, ceilDiv, Bool.and_eq_true, decide_eq_true_eq]
      constructor <;> (rw [if_neg (by omega)]; omega)
    rw [h] at this
    simp at this

theorem check_max {s : State} {i : Instr} (h : s.checkReconstruction i = none) (hi : i = .unfilter ∨ i = .reconstruct) :
    rowBytes s.imgFmt s.imgWidth.toNat ≤ s.params.maxRowBytes := by
  unfold State.checkReconstruction at h
  split at h
  · cases h
  · next hc =>
    unfold State.configCheck at hc
    simp only at hc
    split at hc; · cases hc
    split at hc; · cases hc
    split at hc; · cases hc
    split at hc; · cases hc
    split at hc; · cases hc
    split at hc; · cases hc
    next h6 =>
    by_contra hh
    exact h6 ⟨hi, by omega⟩

theorem rowBytes_mono (fmt : Word) {a b : Nat} (h : a ≤ b) : rowBytes fmt a ≤ rowBytes fmt b := by
  unfold rowBytes ceilDiv
  refine Nat.div_le_div_right ?_
  have : a * channels (colorType fmt) * bitDepth fmt ≤ b * channels (colorType fmt) * bitDepth fmt :=
    Nat.mul_le_mul_right _ (Nat.mul_le_mul_right _ h)
  omega

theorem passWidth_le (w p : Nat) : passWidth w p ≤ w := by
  unfold passWidth passCount ceilDiv
  split
  · omega
  · next h =>
    generalize hS : (passRow p).startX = s at *
    generalize hD : (passRow p).stepX = d at *
    have hd : 0 < d := by
      rw [← hD]; unfold passRow; split <;> simp
    have : (w - s + d - 1) / d ≤ w - s := by
      rw [Nat.div_le_iff_le_mul_add_pred hd]
      have : w - s ≤ d * (w - s) := Nat.le_mul_of_pos_left _ hd
      omega
    omega

theorem images_width {s : State} : ∀ g ∈ s.images, g.width ≤ s.imgWidth.toNat := by
  intro g hg
  unfold State.images imagesOf at hg
  split at hg
  · simp only [List.mem_singleton] at hg; subst hg; exact le_rfl
  · obtain ⟨p, _, rfl⟩ := List.mem_map.mp (List.mem_filter.mp hg).1
    exact passWidth_le _ _

/-- What a reconstruction command knows once R145 and R155 or R181 have passed. -/
structure CheckFacts (s : State) (i : Instr) : Prop where
  ctLegal : colorTypeLegal (colorType s.imgFmt) = true
  dLegal : bitDepthLegal (bitDepth s.imgFmt) = true
  depth : (i = .deinterlace ∨ (i = .reconstruct ∧ interlace s.imgFmt = 1)) → 8 ≤ bitDepth s.imgFmt
  deint : i = .deinterlace → interlace s.imgFmt = 1
  il : interlace s.imgFmt = 0 ∨ interlace s.imgFmt = 1
  src : s.srcAddr.toNat + s.srcLen.toNat ≤ 0x100000000
  dst : s.dstAddr.toNat + s.dstLen.toNat ≤ 0x100000000
  apart : s.srcLen.toNat = 0 ∨ s.dstLen.toNat = 0 ∨ s.dstAddr.toNat + s.dstLen.toNat ≤ s.srcAddr.toNat ∨
    s.srcAddr.toNat + s.srcLen.toNat ≤ s.dstAddr.toNat
  needSrc : s.needSrc i ≤ s.srcLen.toNat
  needOut : s.needOut i ≤ s.dstLen.toNat

theorem check_facts {s : State} {i : Instr} (h : s.checkReconstruction i = none) : CheckFacts s i := by
  have hd := check_dims h
  unfold State.checkReconstruction at h
  split at h
  · cases h
  · next hc =>
    unfold State.configCheck at hc
    simp only at hc
    split at hc; · cases hc
    next h1 =>
    split at hc; · cases hc
    next h2 =>
    split at hc; · cases hc
    next h3 =>
    split at hc; · cases hc
    next h4 =>
    split at hc; · cases hc
    split at hc; · cases hc
    split at hc; · cases hc
    next h7 =>
    split at hc; · cases hc
    next h8 =>
    split at hc; · cases hc
    next h9 =>
    split at hc; · cases hc
    next h10 =>
    split at h; · cases h
    next hs =>
    split at h; · cases h
    next ho =>
    refine ⟨by simpa using h1, by simpa using h2, fun hh => ?_, fun hh => ?_, hd.2.2, ?_, ?_, ?_, by omega, by omega⟩
    · by_contra hlt; exact h7 ⟨hh, by omega⟩
    · by_contra hne; exact h8 ⟨hh, hne⟩
    · by_contra hlt; apply h9; simp [State.srcRangeOk]; left; omega
    · by_contra hlt; apply h9; simp [State.dstRangeOk]; right; omega
    · by_contra hn; apply h10; simp [State.rangesOverlap]; omega

/-! ### Turns -/

/-- In a row loop an engine turn is one iteration of it. -/
theorem turn_row {g : Grain} {s : State} {w : Word} {sc : Scan} (he : s.engine = .busy w)
    (hs : s.scratch.scan = some sc) :
    engineTurn g s = (rowStep s).close := by
  unfold engineTurn fetch
  simp only [he, hs, fetchFilter]
  unfold rowStep
  cases h : rowHead s with
  | stop r => rfl
  | filter i =>
    simp only
    rcases rowHead_cases s with ⟨r, h'⟩ | ⟨sc, g, rest, _, hi, -, ⟨j, hd, h'⟩ | ⟨ft, hd, h'⟩⟩
    · rw [h] at h'; cases h'
    · rw [h] at h'; cases h'
      rcases decodeFilter_cases (s.engineByte (s.srcAddr.toNat + sc.inOff)) with ⟨j, hj, hc⟩ | ⟨hj, -⟩
      · rw [hd] at hj
        obtain rfl := Decoded.instr.inj hj
        rcases hc with rfl | rfl | rfl | rfl | rfl <;> rfl
      · rw [hd] at hj; cases hj
    · rw [h] at h'; cases h'

theorem turns_idle (g : Grain) (n : Nat) {s : State} (h : s.engine = .idle) : engineTurns g n s = .next s := by
  induction n with
  | zero => rfl
  | succ k ih => simp [engineTurns, engineTurn, fetch, h, ih]

theorem rowStep_ok {s t : State} (h : rowStep s = .ok t) : t.engine = s.engine := by
  have := mid_rowStep s
  rw [h] at this
  exact this.engine

/-- As many turns as rows. -/
theorem turns_rows (n : Nat) : ∀ (s : State) (w : Word) (sc : Scan), s.engine = .busy w → s.scratch.scan = some sc →
    ScanOk sc →
    sc.rowsLeft = n + 1 → engineTurns .scanline (n + 1) s = (runRows (n + 1) s).close := by
  induction n with
  | zero =>
    intro s w sc he hs ho hn
    simp only [engineTurns, turn_row he hs, runRows_succ]
    cases hr : rowStep s with
    | ok t => simp [runRows]
    | raised e t => simp
    | refused r => simp
  | succ k ih =>
    intro s w sc he hs ho hn
    rw [runRows_succ]
    rw [engineTurns, turn_row he hs]
    cases hr : rowStep s with
    | ok t =>
      have h1 : runRows 1 s = .ok t := by rw [runRows_succ, hr]; rfl
      obtain ⟨sc', a, b, c, d⟩ := runRows_counters 1 s sc hs ho (by omega) t h1
      have hne : sc'.images ≠ [] := fun hi => by rw [rowsLeft_of_nil hi] at c; omega
      have : closeRows t = t := by
        rcases closeRows_cases t with ⟨sc2, e1, e2, _⟩ | ⟨_, h⟩
        · rw [a] at e1; obtain rfl := Option.some.inj e1; exact absurd e2 hne
        · exact h
      simp only [Run.close_ok, this, Run.andThen_ok]
      exact ih t w sc' (by rw [rowStep_ok hr, he]) a b (by omega)
    | raised e t => simp only [Run.close_raised, Run.andThen_raised]; exact turns_idle _ _ rfl
    | refused r => simp

/-! ### Cells -/

/-- The cells of a byte string. -/
theorem mem_cellsAt_iff {a : Nat} {bs : List Byte} {c : Host.Cell} :
    c ∈ cellsAt a bs ↔ ∃ k, k < bs.length ∧ c = (a + k, bs.getD k 0#8) := by
  induction bs generalizing a with
  | nil => simp [cellsAt]
  | cons b rest ih =>
    simp only [cellsAt, List.mem_cons, ih, List.length_cons]
    constructor
    · rintro (rfl | ⟨k, hk, rfl⟩)
      · exact ⟨0, by omega, by simp⟩
      · exact ⟨k + 1, by omega, by simp; omega⟩
    · rintro ⟨k, hk, rfl⟩
      cases k with
      | zero => exact .inl (by simp)
      | succ k => exact .inr ⟨k, by omega, by simp; omega⟩

theorem passStep_pos (p : Nat) : 0 < (passRow p).stepX ∧ 0 < (passRow p).stepY := by
  unfold passRow; split <;> simp

/-- The closed form of R171 counts the points `s + i * d` below `n`. -/
theorem lt_passCount {n s d i : Nat} (hd : 0 < d) : i < passCount n s d ↔ s + i * d < n := by
  unfold passCount ceilDiv
  split
  · next h => constructor <;> intro h' <;> [omega; (have := Nat.zero_le (i * d); omega)]
  · next h =>
    rw [Nat.lt_iff_add_one_le, Nat.le_div_iff_mul_le hd, Nat.add_mul]
    constructor <;> intro h' <;> omega

theorem lt_passWidth {w p i : Nat} : i < passWidth w p ↔ (passRow p).startX + i * (passRow p).stepX < w :=
  lt_passCount (passStep_pos p).1

theorem lt_passHeight {h p j : Nat} : j < passHeight h p ↔ (passRow p).startY + j * (passRow p).stepY < h :=
  lt_passCount (passStep_pos p).2

/-- A pass pixel lies in the grid. -/
theorem gridOffset_lt {w h bpp p j i k : Nat} (hj : j < passHeight h p) (hi : i < passWidth w p) (hk : k < bpp) :
    gridOffset w bpp p j i + k < w * h * bpp := by
  have hx := lt_passWidth.mp hi
  have hy := lt_passHeight.mp hj
  unfold gridOffset
  generalize (passRow p).startY + j * (passRow p).stepY = y at *
  rw [Nat.add_assoc]
  generalize (passRow p).startX + i * (passRow p).stepX = x at *
  have h1 : y * w + x + 1 ≤ w * h := by
    have : (y + 1) * w ≤ h * w := Nat.mul_le_mul_right _ hy
    rw [Nat.add_mul, Nat.mul_comm h w] at this
    omega
  have h2 : (y * w + x + 1) * bpp ≤ w * h * bpp := Nat.mul_le_mul_right _ h1
  rw [Nat.add_mul] at h2
  omega

/-- A scattered cell is a byte of a pixel of the row. -/
theorem mem_scatterCells {base w bpp p j : Nat} {row : List Byte} {c : Host.Cell}
    (h : c ∈ scatterCells base w bpp p j row) :
    ∃ i k, i < passWidth w p ∧ k < bpp ∧ i * bpp + k < row.length ∧
      c = (base + gridOffset w bpp p j i + k, row.getD (i * bpp + k) 0#8) := by
  unfold scatterCells at h
  obtain ⟨i, hi, hc⟩ := List.mem_flatMap.mp h
  rw [List.mem_range] at hi
  obtain ⟨k, hk, rfl⟩ := mem_cellsAt_iff.mp hc
  simp only [List.length_take, List.length_drop] at hk
  refine ⟨i, k, hi, by omega, by omega, ?_⟩
  simp only [Prod.mk.injEq, true_and]
  rw [List.getD_eq_getElem?_getD, List.getD_eq_getElem?_getD, List.getElem?_take, if_pos (by omega), List.getElem?_drop]

/-- Every byte of every pixel of the row is scattered. -/
theorem mem_scatterCells_of {base w bpp p j i k : Nat} {row : List Byte} (hi : i < passWidth w p) (hk : k < bpp)
    (hr : i * bpp + k < row.length) :
    (base + gridOffset w bpp p j i + k, row.getD (i * bpp + k) 0#8) ∈ scatterCells base w bpp p j row := by
  unfold scatterCells
  refine List.mem_flatMap.mpr ⟨i, List.mem_range.mpr hi, mem_cellsAt_iff.mpr ⟨k, by simp; omega, ?_⟩⟩
  simp only [Prod.mk.injEq, true_and]
  rw [List.getD_eq_getElem?_getD, List.getD_eq_getElem?_getD, List.getElem?_take, if_pos (by omega), List.getElem?_drop]

/-! ### The loop -/

/-- The bytes the rows left take or give, `f` bytes for a row of an image. -/
def bytesLeft (f : Image → Nat) (sc : Scan) : Nat :=
  (sc.images.map fun g => g.height * f g).sum - sc.row * (match sc.images with | [] => 0 | g :: _ => f g)

theorem leftOf_next (f : Image → Nat) {sc : Scan} (ho : ScanOk sc) {g : Image} {rest : List Image}
    (hi : sc.images = g :: rest)
    (a b : Nat) : bytesLeft f (sc.next a b) + f g = bytesLeft f sc := by
  have hr := ho.row g rest hi
  have h0 : bytesLeft f sc = g.height * f g + (rest.map fun g => g.height * f g).sum - sc.row * f g := by
    unfold bytesLeft; simp [hi]
  rw [h0]
  have h1 : (sc.row + 1) * f g ≤ g.height * f g := Nat.mul_le_mul_right _ hr
  rw [Nat.add_mul] at h1
  by_cases c : sc.row + 1 < g.height
  · rw [Scan.next_of_lt hi c]
    unfold bytesLeft
    simp only [hi, List.map_cons, List.sum_cons, Nat.add_mul]
    omega
  · rw [Scan.next_of_ge hi (by omega)]
    have : g.height = sc.row + 1 := by omega
    unfold bytesLeft
    simp only [Nat.zero_mul, this, Nat.add_mul]
    omega

theorem next_offs {sc : Scan} {g : Image} {rest : List Image} (hi : sc.images = g :: rest) (a b : Nat) :
    (sc.next a b).inOff = sc.inOff + a ∧ (sc.next a b).outOff = sc.outOff + b := by
  by_cases c : sc.row + 1 < g.height
  · rw [Scan.next_of_lt hi c]; exact ⟨rfl, rfl⟩
  · rw [Scan.next_of_ge hi (by omega)]; exact ⟨rfl, rfl⟩

/-- The images are a baseline image or passes of the grid. -/
def ImagesOk (W H : Nat) (scatter : Bool) (gs : List Image) : Prop :=
  ∀ g ∈ gs, (g.pass = none ∧ scatter = false) ∨ ∃ p, p < 7 ∧ g = ⟨some p, passWidth W p, passHeight H p⟩

theorem ImagesOk.next {W H : Nat} {sc : Scan} (h : ImagesOk W H sc.scatter sc.images) (a b : Nat) :
    ImagesOk W H (sc.next a b).scatter (sc.next a b).images := by
  intro g hg
  rw [Scan.next_scatter]
  exact h g (Scan.mem_next_images hg)

/-- A row's cells lie in the first `n` bytes of the DST range. -/
theorem rowCells_bound {s : State} {sc : Scan} {g : Image} {rest : List Image} {row : List Byte} {n H : Nat}
    (ho : ScanOk sc)
    (hi : sc.images = g :: rest) (hok : ImagesOk s.imgWidth.toNat H sc.scatter sc.images)
    (hs : sc.scatter = true → s.imgWidth.toNat * H * bppOf s.imgFmt ≤ n)
    (hn : sc.scatter = false → sc.outOff + row.length ≤ n) :
    ∀ c ∈ rowCells s sc g row, s.dstAddr.toNat ≤ c.1 ∧ c.1 < s.dstAddr.toNat + n := by
  intro c hc
  have flat : sc.scatter = false → c ∈ cellsAt (s.dstAddr.toNat + sc.outOff) row → s.dstAddr.toNat ≤ c.1 ∧ c.1 < s.dstAddr.toNat + n := by
    intro hf hc
    obtain ⟨k, hk, rfl⟩ := mem_cellsAt_iff.mp hc
    have := hn hf
    simp only; omega
  unfold rowCells at hc
  split at hc
  · next p h1 h2 =>
    obtain ⟨i, k, hi', hk, _, rfl⟩ := mem_scatterCells hc
    rcases hok g (by rw [hi]; simp) with ⟨h, _⟩ | ⟨p', hp, h⟩
    · rw [h2] at h; cases h
    · have hj := ho.row g rest hi
      rw [h] at hj h2
      obtain rfl := Option.some.inj h2
      have := gridOffset_lt hj hi' hk
      have := hs h1
      simp only; omega
  · next h1 h2 =>
    rcases hok g (by rw [hi]; simp) with ⟨_, h⟩ | ⟨p', hp, h⟩
    · rw [h1] at h; cases h
    · rw [h] at h2; cases h2
  · next h1 => exact flat h1 hc

/-- The state inside a row loop that began in `s0`: counters, what is kept, and the bytes still to be read and written. -/
structure RowLoop (s0 : State) (used outLen : Image → Nat) (inMax n : Nat) (s : State) (sc : Scan) : Prop where
  scan : s.scratch.scan = some sc
  ok : ScanOk sc
  keep : Midway s0 s
  imgs : ImagesOk s0.imgWidth.toNat s0.imgHeight.toNat sc.scatter sc.images
  inB : sc.inOff + bytesLeft used sc ≤ inMax
  outB : sc.scatter = false → sc.outOff + bytesLeft outLen sc ≤ n
  grid : sc.scatter = true → s0.imgWidth.toNat * s0.imgHeight.toNat * bppOf s0.imgFmt ≤ n

theorem reachable_congr {s t : State} (h : KeepsOperands s t) (a : Nat) : t.reachable a = s.reachable a := by
  unfold State.reachable; rw [h.params, h.memErrors]

theorem mid_filter_state {s : State} {cells : List Host.Cell} {sc : Scan} {u : Nat} {row : List Byte}
    (h : ∀ c ∈ cells, s.reachable c.1 = true) :
    Midway s (({ s with mem := Memory.writeAll s.mem cells } : State).endRow sc u row) := by
  refine ⟨by constructor <;> rfl, rfl, rfl, rfl, rfl, rfl, rfl, rfl, fun _ h => h, fun hw => ?_, id⟩
  exact Memory.writeAll_wf hw fun c hx => reachable_lt (h c hx)

theorem rowCells_congr {s t : State} (h : KeepsOperands s t) (sc : Scan) (g : Image) (row : List Byte) :
    rowCells t sc g row = rowCells s sc g row := by
  unfold rowCells; rw [h.dstAddr, h.imgWidth, h.imgFmt]

theorem needIn_eq (s : State) (n : Nat) (b : Bool) :
    bytesLeft (fun g => 1 + rowBytes s.imgFmt g.width) (Scan.start s.images n b) = s.needIn := by
  simp [bytesLeft, Scan.start, State.needIn]

theorem needUnf_eq (s : State) (n : Nat) (b : Bool) :
    bytesLeft (fun g => rowBytes s.imgFmt g.width) (Scan.start s.images n b) = s.needUnf := by
  simp [bytesLeft, Scan.start, State.needUnf]

theorem rowBytes_deep {fmt : Word} (h : bitDepthLegal (bitDepth fmt) = true) (h8 : 8 ≤ bitDepth fmt) (w : Nat) :
    rowBytes fmt w = w * bppOf fmt := by
  have : bitDepth fmt = 8 ∨ bitDepth fmt = 16 := by
    simp only [bitDepthLegal, Bool.or_eq_true, beq_iff_eq] at h
    omega
  unfold rowBytes bppOf ceilDiv
  rcases this with h | h <;> rw [h] <;> ring_nf <;> omega

theorem copyNeed_eq {s : State} (h : bitDepthLegal (bitDepth s.imgFmt) = true) (h8 : 8 ≤ bitDepth s.imgFmt) (n : Nat)
    (b : Bool) :
    bytesLeft (fun g => g.width * bppOf s.imgFmt) (Scan.start s.images n b) = s.needUnf := by
  rw [← needUnf_eq s n b]
  congr 1
  funext g
  exact (rowBytes_deep h h8 _).symm

theorem imgsOk_images (s : State) (b : Bool) (h : interlace s.imgFmt = 0 → b = false) :
    ImagesOk s.imgWidth.toNat s.imgHeight.toNat b s.images := by
  intro g hg
  unfold State.images imagesOf at hg
  split at hg
  · next h0 => simp only [List.mem_singleton] at hg; subst hg; exact .inl ⟨rfl, h h0⟩
  · obtain ⟨p, hp, rfl⟩ := List.mem_map.mp (List.mem_filter.mp hg).1
    exact .inr ⟨p, List.mem_range.mp hp, rfl⟩

/-- The entry of UNFILTER and RECONSTRUCT into the row loop. -/
theorem loop_start {s : State} {i : Instr} {b : Bool} (hi : (i = .unfilter ∧ b = false) ∨
    (i = .reconstruct ∧ b = decide (interlace s.imgFmt ≠ 0)))
    (hc : s.checkReconstruction i = none) :
    RowLoop s (fun g => 1 + rowBytes s.imgFmt g.width) (fun g => rowBytes s.imgFmt g.width) s.needIn (s.needOut i)
      { s with scratch := { s.scratch with
            prior := freshPrior s.imgFmt s.images
            scan := some (Scan.start s.images (s.needOut i) b) } } (Scan.start s.images (s.needOut i) b) := by
  refine ⟨rfl, scanOk_start hc _ _, ?_, ?_, ?_, fun hb => ?_, fun hb => ?_⟩
  · refine ⟨by constructor <;> rfl, rfl, rfl, rfl, rfl, rfl, rfl, rfl, fun _ h => h, id, id⟩
  · refine imgsOk_images s b fun h0 => ?_
    rcases hi with ⟨_, h⟩ | ⟨_, h⟩
    · exact h
    · rw [h]; simp [h0]
  · rw [needIn_eq]; simp [Scan.start]
  · rw [needUnf_eq]
    have : s.needOut i = s.needUnf := by
      replace hb : b = false := hb
      rcases hi with ⟨rfl, h⟩ | ⟨rfl, h⟩
      · simp [State.needOut]
      · rw [hb] at h
        have : interlace s.imgFmt = 0 := by simpa using h
        simp [State.needOut, this]
    rw [this]; simp [Scan.start]
  · replace hb : b = true := hb
    rcases hi with ⟨rfl, h⟩ | ⟨rfl, h⟩
    · rw [hb] at h; cases h
    · rw [hb] at h
      have : interlace s.imgFmt ≠ 0 := by simpa using h
      simp [State.needOut, this, State.gridBytes]

/-- The entry of DEINTERLACE into its loop. -/
theorem loop_start_copy {s : State} (hc : s.checkReconstruction .deinterlace = none) :
    RowLoop s (fun g => g.width * bppOf s.imgFmt) (fun g => g.width * bppOf s.imgFmt) s.needUnf (s.needOut .deinterlace)
      (s.withScan (Scan.start s.images (s.needOut .deinterlace) true)) (Scan.start s.images (s.needOut .deinterlace)
          true) := by
  have f := check_facts hc
  refine ⟨rfl, scanOk_start hc _ _, ?_, ?_, ?_, fun hb => ?_, fun hb => ?_⟩
  · refine ⟨by constructor <;> rfl, rfl, rfl, rfl, rfl, rfl, rfl, rfl, fun _ h => h, id, id⟩
  · refine imgsOk_images s true fun h0 => ?_
    have := f.deint rfl; omega
  · rw [copyNeed_eq f.dLegal (f.depth (.inl rfl))]; simp [Scan.start]
  · cases hb
  · simp [State.needOut, State.gridBytes]

/-- Where every byte can be reached the row loop does not refuse. -/
theorem runRows_noRefuse (n : Nat) : ∀ (s0 s : State) (sc : Scan) (inMax m : Nat),
    RowLoop s0 (fun g => 1 + rowBytes s0.imgFmt g.width) (fun g => rowBytes s0.imgFmt g.width) inMax m s sc → n ≤
        sc.rowsLeft →
    Reachable s0 s0.srcAddr.toNat inMax → Reachable s0 s0.dstAddr.toNat m → ∀ f, runRows n s ≠ .refused f := by
  induction n with
  | zero => intro s0 s sc im m l _ _ _ f h; cases h
  | succ k ih =>
    intro s0 s sc im m l hn hrs hrd f h
    have hne : sc.images ≠ [] := fun hi => by rw [rowsLeft_of_nil hi] at hn; omega
    obtain ⟨g, rest, hi⟩ : ∃ g rest, sc.images = g :: rest := by
      cases h : sc.images with
      | nil => exact absurd h hne
      | cons g r => exact ⟨g, r, rfl⟩
    have lin := leftOf_next (fun g => 1 + rowBytes s0.imgFmt g.width) l.ok hi (1 + rowBytes s0.imgFmt g.width) (rowBytes s0.imgFmt g.width)
    have lout := leftOf_next (fun g => rowBytes s0.imgFmt g.width) l.ok hi (1 + rowBytes s0.imgFmt g.width) (rowBytes s0.imgFmt g.width)
    have hin := l.inB
    have hfmt : s.imgFmt = s0.imgFmt := l.keep.ops.imgFmt
    have hsrc : s.srcAddr = s0.srcAddr := l.keep.ops.srcAddr
    have hpar := l.keep.ops
    have hr1 : Reachable s (s.srcAddr.toNat + sc.inOff) 1 := by
      intro i hi; rw [reachable_congr hpar, hsrc, Nat.add_assoc]; exact hrs _ (by omega)
    have hr2 : Reachable s (s.srcAddr.toNat + sc.inOff + 1) (rowBytes s.imgFmt g.width) := by
      intro i hi; rw [reachable_congr hpar, hsrc, Nat.add_assoc, Nat.add_assoc]; rw [hfmt] at hi; exact hrs _ (by omega)
    rw [runRows_succ] at h
    have hh : ∀ row : List Byte, row.length = rowBytes s.imgFmt g.width → ∀ c ∈ rowCells s sc g row, s.reachable c.1 = true := by
      intro row hl c hc
      have := rowCells_bound (s := s) (n := m) (H := s0.imgHeight.toNat) l.ok hi (by rw [l.keep.ops.imgWidth]; exact l.imgs)
        (by rw [l.keep.ops.imgWidth, hfmt]; exact l.grid) (fun hs => by have := l.outB hs; rw [hl, hfmt]; omega) c hc
      rw [l.keep.ops.dstAddr] at this
      rw [reachable_congr hpar]
      have h2 := hrd (c.1 - s0.dstAddr.toNat) (by omega)
      rwa [show s0.dstAddr.toNat + (c.1 - s0.dstAddr.toNat) = c.1 by omega] at h2
    have step : (∃ e t, rowStep s = .raised e t) ∨ ∃ pred, rowStep s = filterRow pred s := by
      unfold rowStep rowHead
      simp only [l.scan, hi]
      rw [firstBlocked_none_iff_reachable.mpr hr1]
      simp only
      rcases decodeFilter_cases (s.engineByte (s.srcAddr.toNat + sc.inOff)) with ⟨j, hj, hc⟩ | ⟨hj, -⟩
      · rw [hj]
        rcases hc with rfl | rfl | rfl | rfl | rfl
        · exact .inr ⟨_, rfl⟩
        · exact .inr ⟨_, rfl⟩
        · exact .inr ⟨_, rfl⟩
        · exact .inr ⟨_, rfl⟩
        · exact .inr ⟨_, rfl⟩
      · rw [hj]; simp only; rw [memRead_of_reachable hr2]; exact .inl ⟨_, _, rfl⟩
    rcases step with ⟨e, t, hr⟩ | ⟨pred, hr⟩
    · rw [hr] at h; cases h
    · rw [hr] at h
      obtain ⟨row, hl, hc, hrow⟩ : ∃ row : List Byte, row.length = rowBytes s.imgFmt g.width ∧
          (∀ c ∈ rowCells s sc g row, s.reachable c.1 = true) ∧ filterRow pred s =
          .ok (({ s with mem := Memory.writeAll s.mem (rowCells s sc g row) } : State).endRow sc
            (1 + rowBytes s.imgFmt g.width) row) := by
        have hl : (reconRow pred (bppOf s.imgFmt) s.scratch.prior []
          (s.engineBytes (s.srcAddr.toNat + sc.inOff + 1) (rowBytes s.imgFmt g.width))).length = rowBytes s.imgFmt g.width := by
          rw [reconRow_length]; simp
        exact ⟨_, hl, hh _ hl, filterRow_of_reachable l.scan hi hr2 (hh _ hl)⟩
      rw [hrow] at h
      simp only [Run.andThen_ok] at h
      refine ih s0 _ (sc.next (1 + rowBytes s.imgFmt g.width) row.length) im m ?_ ?_ hrs hrd f h
      · have ho := next_offs hi (1 + rowBytes s0.imgFmt g.width) (rowBytes s0.imgFmt g.width)
        refine ⟨rfl, l.ok.next _ _, l.keep.trans (mid_filter_state hc), l.imgs.next _ _, ?_, ?_, ?_⟩
        · rw [hl, hfmt, ho.1]; omega
        · rw [hl, hfmt, ho.2, Scan.next_scatter]; intro hs; have := l.outB hs; omega
        · rw [Scan.next_scatter]; exact l.grid
      · have := rowsLeft_next l.ok hne (1 + rowBytes s.imgFmt g.width) row.length
        omega

/-- Where every byte can be reached the copy loop runs to its end. -/
theorem copyRows_noRefuse (n : Nat) : ∀ (s0 s : State) (sc : Scan) (inMax m : Nat),
    RowLoop s0 (fun g => g.width * bppOf s0.imgFmt) (fun g => g.width * bppOf s0.imgFmt) inMax m s sc → n ≤
        sc.rowsLeft →
    Reachable s0 s0.srcAddr.toNat inMax → Reachable s0 s0.dstAddr.toNat m → ∃ t, copyRows n s = .ok t := by
  induction n with
  | zero => intro s0 s sc im m l _ _ _; exact ⟨s, rfl⟩
  | succ k ih =>
    intro s0 s sc im m l hn hrs hrd
    have hne : sc.images ≠ [] := fun hi => by rw [rowsLeft_of_nil hi] at hn; omega
    obtain ⟨g, rest, hi⟩ : ∃ g rest, sc.images = g :: rest := by
      cases h : sc.images with
      | nil => exact absurd h hne
      | cons g r => exact ⟨g, r, rfl⟩
    have lin := leftOf_next (fun g => g.width * bppOf s0.imgFmt) l.ok hi (g.width * bppOf s0.imgFmt) (g.width * bppOf s0.imgFmt)
    have hin := l.inB
    have hfmt : s.imgFmt = s0.imgFmt := l.keep.ops.imgFmt
    have hsrc : s.srcAddr = s0.srcAddr := l.keep.ops.srcAddr
    have hpar := l.keep.ops
    have hr2 : Reachable s (s.srcAddr.toNat + sc.inOff) (g.width * bppOf s.imgFmt) := by
      intro i hi; rw [reachable_congr hpar, hsrc, Nat.add_assoc]; rw [hfmt] at hi; exact hrs _ (by omega)
    have hl : (s.engineBytes (s.srcAddr.toNat + sc.inOff) (g.width * bppOf s.imgFmt)).length = g.width * bppOf s.imgFmt := by simp
    have hc : ∀ c ∈ rowCells s sc g (s.engineBytes (s.srcAddr.toNat + sc.inOff) (g.width * bppOf s.imgFmt)), s.reachable c.1 = true := by
      intro c hc
      have := rowCells_bound (s := s) (n := m) (H := s0.imgHeight.toNat) l.ok hi (by rw [l.keep.ops.imgWidth]; exact l.imgs)
        (by rw [l.keep.ops.imgWidth, hfmt]; exact l.grid) (fun hs => by have := l.outB hs; rw [hl, hfmt]; omega) c hc
      rw [l.keep.ops.dstAddr] at this
      rw [reachable_congr hpar]
      have h2 := hrd (c.1 - s0.dstAddr.toNat) (by omega)
      rwa [show s0.dstAddr.toNat + (c.1 - s0.dstAddr.toNat) = c.1 by omega] at h2
    obtain ⟨row, u, hu, hl, hc, hrow⟩ : ∃ (row : List Byte) (u : Nat), u = g.width * bppOf s0.imgFmt ∧ row.length = u ∧
        (∀ c ∈ rowCells s sc g row, s.reachable c.1 = true) ∧ copyRow s =
          .ok (({ s with mem := Memory.writeAll s.mem (rowCells s sc g row) } : State).withScan (sc.next u u)) := by
      refine ⟨_, g.width * bppOf s.imgFmt, by rw [hfmt], hl, hc, ?_⟩
      unfold copyRow
      simp only [l.scan, hi]
      rw [memRead_of_reachable hr2, storeCells_of_reachable hc]
      rfl
    rw [copyRows_succ, hrow]
    simp only [Run.andThen_ok]
    refine ih s0 _ (sc.next u u) im m ?_ ?_ hrs hrd
    · have ho := next_offs hi u u
      rw [← hu] at lin
      refine ⟨rfl, l.ok.next _ _, l.keep.trans ?_, l.imgs.next _ _, ?_, ?_, ?_⟩
      · refine ⟨by constructor <;> rfl, rfl, rfl, rfl, rfl, rfl, rfl, rfl, fun _ h => h, fun hw => ?_, id⟩
        exact Memory.writeAll_wf hw fun c hx => reachable_lt (hc c hx)
      · rw [ho.1]; omega
      · rw [ho.2, Scan.next_scatter]; intro hs; have := l.outB hs; omega
      · rw [Scan.next_scatter]; exact l.grid
    · have := rowsLeft_next l.ok hne u u
      omega

end Sys2Proof.Machine
end

