-- ==== Sys2Proof/Laws/Writes.lean ====
section
/-! SUPPORT. Everything the row loops store: the rows they give, one after another or scattered over the grid. -/

namespace Sys2Proof.Machine

open Sys2Proof

/-! ### The rows of a loop -/

/-- One iteration of a row loop: its counters, its image, its row. -/
abbrev RowEntry := Scan × Image × List Byte

/-- The rows of `n` iterations, `rowFn` giving a row from the counters, the image and the row above. -/
def rowEntries (fmt : Word) (rowFn : Scan → Image → List Byte → List Byte) (used : Image → Nat) : Nat → Scan → List
    Byte → List RowEntry
  | 0, _, _ => []
  | n + 1, sc, prior =>
    match sc.images with
    | [] => []
    | g :: _ =>
      (sc, g, rowFn sc g prior) :: rowEntries fmt rowFn used n (sc.next (used g) (rowFn sc g prior).length)
        (if (sc.next (used g) (rowFn sc g prior).length).row = 0 then freshPrior fmt
            (sc.next (used g) (rowFn sc g prior).length).images else rowFn sc g prior)

theorem rowEntries_succ {fmt rowFn used n sc prior} {g : Image} {rest : List Image} (hi : sc.images = g :: rest) :
    rowEntries fmt rowFn used (n + 1) sc prior = (sc, g, rowFn sc g prior) :: rowEntries fmt rowFn used n
        (sc.next (used g) (rowFn sc g prior).length)
        (if (sc.next (used g) (rowFn sc g prior).length).row = 0 then freshPrior fmt
            (sc.next (used g) (rowFn sc g prior).length).images else rowFn sc g prior) := by
  rw [rowEntries]; rw [hi]

/-- Where the counters stand among all the images. -/
structure Placed (all : List Image) (used outLen : Image → Nat) (sc : Scan) : Prop where
  split : ∃ pre, all = pre ++ sc.images ∧
    sc.outOff = (pre.map fun g => g.height * outLen g).sum + sc.row * (match sc.images with | [] => 0 | g :: _ => outLen g) ∧
    sc.inOff = (pre.map fun g => g.height * used g).sum + sc.row * (match sc.images with | [] => 0 | g :: _ => used g)
  ok : ScanOk sc

theorem Placed.next {all : List Image} {used outLen : Image → Nat} {sc : Scan} (h : Placed all used outLen sc) {g :
    Image} {rest : List Image}
    (hi : sc.images = g :: rest) : Placed all used outLen (sc.next (used g) (outLen g)) := by
  refine ⟨?_, h.ok.next _ _⟩
  obtain ⟨pre, h1, h2, h3⟩ := h.split
  have hr := h.ok.row g rest hi
  rw [hi] at h1 h2 h3
  simp only at h2 h3
  by_cases c : sc.row + 1 < g.height
  · rw [Scan.next_of_lt hi c]
    refine ⟨pre, by simp only [hi]; exact h1, ?_, ?_⟩
    · simp only [hi, Nat.add_mul]; omega
    · simp only [hi, Nat.add_mul]; omega
  · have he : g.height = sc.row + 1 := by omega
    rw [Scan.next_of_ge hi (by omega)]
    refine ⟨pre ++ [g], by simp [h1], ?_, ?_⟩
    · simp only [List.map_append, List.sum_append, List.map_cons, List.map_nil, List.sum_cons, List.sum_nil, he, Nat.add_mul]; omega
    · simp only [List.map_append, List.sum_append, List.map_cons, List.map_nil, List.sum_cons, List.sum_nil, he, Nat.add_mul]; omega

/-- The bytes of the rows, one after another. -/
def entryBytes (es : List RowEntry) : List Byte := es.flatMap fun e => e.2.2

section

variable {fmt : Word} {rowFn : Scan → Image → List Byte → List Byte} {used outLen : Image → Nat}

/-- Every entry stands at its place. -/
theorem rowEntries_placed (hl : ∀ sc g p, (rowFn sc g p).length = outLen g) {all : List Image} (n : Nat) : ∀
    (sc : Scan) (prior : List Byte),
    Placed all used outLen sc → ∀ e ∈ rowEntries fmt rowFn used n sc prior,
      Placed all used outLen e.1 ∧ (∃ rest, e.1.images = e.2.1 :: rest) ∧ e.2.2.length = outLen e.2.1 ∧ e.1.scatter =
          sc.scatter ∧ e.1.needOut = sc.needOut := by
  induction n with
  | zero => intro sc prior _ e he; simp [rowEntries] at he
  | succ k ih =>
    intro sc prior hp e he
    cases hi : sc.images with
    | nil => simp [rowEntries, hi] at he
    | cons g rest =>
      rw [rowEntries_succ hi] at he
      rcases List.mem_cons.mp he with rfl | he
      · exact ⟨hp, ⟨rest, hi⟩, hl _ _ _, rfl, rfl⟩
      · rw [hl] at he
        have := ih _ _ (hp.next hi) e he
        rwa [Scan.next_scatter, Scan.next_needOut] at this

/-- Every row of every image left has its entry. -/
theorem rowEntries_cover (hl : ∀ sc g p, (rowFn sc g p).length = outLen g) (n : Nat) : ∀ (sc : Scan)
    (prior : List Byte),
    ScanOk sc → sc.rowsLeft = n → ∀ pre g rest j, sc.images = pre ++ g :: rest → j < g.height →
        (pre = [] → sc.row ≤ j) →
      ∃ e ∈ rowEntries fmt rowFn used n sc prior, e.1.images = g :: rest ∧ e.2.1 = g ∧ e.1.row = j := by
  induction n with
  | zero =>
    intro sc prior ho h0 pre g rest j hi
    rw [images_of_rowsLeft ho h0] at hi
    simp at hi
  | succ k ih =>
    intro sc prior ho hn pre g rest j hi hj hp
    cases hi' : sc.images with
    | nil => rw [hi'] at hi; simp at hi
    | cons g' rest' =>
      rw [rowEntries_succ hi', hl]
      have hr := rowsLeft_next ho (by rw [hi']; simp) (used g') (outLen g')
      by_cases hc : pre = [] ∧ sc.row = j
      · obtain ⟨rfl, rfl⟩ := hc
        rw [hi'] at hi
        simp only [List.nil_append, List.cons.injEq] at hi
        obtain ⟨rfl, rfl⟩ := hi
        exact ⟨_, List.mem_cons_self .., hi', rfl, rfl⟩
      · by_cases c : sc.row + 1 < g'.height
        · obtain ⟨e, he, h⟩ := ih (sc.next (used g') (outLen g')) (if (sc.next (used g') (outLen g')).row = 0 then
            freshPrior fmt (sc.next (used g') (outLen g')).images else rowFn sc g' prior) (ho.next _ _) (by omega) pre g rest j
            (by rw [Scan.next_of_lt hi' c]; exact hi) hj (fun h => by
              rw [Scan.next_of_lt hi' c]
              have := hp h
              have : sc.row ≠ j := fun h' => hc ⟨h, h'⟩
              simp only; omega)
          exact ⟨e, List.mem_cons_of_mem _ he, h⟩
        · cases pre with
          | nil =>
            exfalso
            rw [hi'] at hi
            simp only [List.nil_append, List.cons.injEq] at hi
            obtain ⟨rfl, rfl⟩ := hi
            have := hp rfl
            exact hc ⟨rfl, by omega⟩
          | cons p pre' =>
            rw [hi'] at hi
            simp only [List.cons_append, List.cons.injEq] at hi
            obtain ⟨rfl, rfl⟩ := hi
            obtain ⟨e, he, h⟩ := ih (sc.next (used g') (outLen g')) (if (sc.next (used g') (outLen g')).row = 0 then
              freshPrior fmt (sc.next (used g') (outLen g')).images else rowFn sc g' prior) (ho.next _ _) (by omega) pre' g rest j
              (by rw [Scan.next_of_ge hi' (by omega)]) hj (fun h => by rw [Scan.next_of_ge hi' (by omega)]; simp)
            exact ⟨e, List.mem_cons_of_mem _ he, h⟩

/-- Each row stands in the concatenation at its offset. -/
theorem rowEntries_slice (hl : ∀ sc g p, (rowFn sc g p).length = outLen g) (n : Nat) : ∀ (sc : Scan)
    (prior : List Byte),
    ∀ e ∈ rowEntries fmt rowFn used n sc prior, sc.outOff ≤ e.1.outOff ∧ ∀ x, x < e.2.2.length →
      (entryBytes (rowEntries fmt rowFn used n sc prior)).getD (e.1.outOff - sc.outOff + x) 0#8 = e.2.2.getD x 0#8 := by
  induction n with
  | zero => intro sc prior e he; simp [rowEntries] at he
  | succ k ih =>
    intro sc prior e he
    cases hi : sc.images with
    | nil => simp [rowEntries, hi] at he
    | cons g rest =>
      rw [rowEntries_succ hi] at he ⊢
      have ho := (next_offs hi (used g) (rowFn sc g prior).length).2
      rcases List.mem_cons.mp he with rfl | he
      · refine ⟨le_rfl, fun x hx => ?_⟩
        simp only at hx ⊢
        rw [Nat.sub_self, Nat.zero_add]
        unfold entryBytes
        rw [List.flatMap_cons, List.getD_eq_getElem?_getD, List.getElem?_append_left hx, ← List.getD_eq_getElem?_getD]
      · obtain ⟨h1, h2⟩ := ih _ _ e he
        rw [ho] at h1 h2
        refine ⟨by omega, fun x hx => ?_⟩
        rw [← h2 x hx]
        unfold entryBytes
        rw [List.flatMap_cons, List.getD_eq_getElem?_getD, List.getElem?_append_right (by simp only; omega), ← List.getD_eq_getElem?_getD]
        congr 1
        simp only
        omega

end

theorem rowEntries_length {fmt : Word} {rowFn : Scan → Image → List Byte → List Byte} {used outLen : Image → Nat}
    (hl : ∀ sc g p, (rowFn sc g p).length = outLen g) (n : Nat) : ∀ (sc : Scan) (prior : List Byte), ScanOk sc →
        sc.rowsLeft = n →
    (entryBytes (rowEntries fmt rowFn used n sc prior)).length = bytesLeft outLen sc := by
  induction n with
  | zero =>
    intro sc prior ho h0
    simp [rowEntries, entryBytes, bytesLeft, images_of_rowsLeft ho h0]
  | succ k ih =>
    intro sc prior ho hn
    cases hi : sc.images with
    | nil => rw [rowsLeft_of_nil hi] at hn; omega
    | cons g rest =>
      rw [rowEntries_succ hi, hl]
      have h1 := leftOf_next outLen ho hi (used g) (outLen g)
      have h2 := rowsLeft_next ho (by rw [hi]; simp) (used g) (outLen g)
      have h3 := ih (sc.next (used g) (outLen g)) (if (sc.next (used g) (outLen g)).row = 0 then
          freshPrior fmt (sc.next (used g) (outLen g)).images else rowFn sc g prior) (ho.next _ _) (by omega)
      unfold entryBytes at h3 ⊢
      rw [List.flatMap_cons, List.length_append, h3, hl]
      omega

theorem cellsAt_append (a : Nat) (xs ys : List Byte) : cellsAt a (xs ++ ys) = cellsAt a xs ++ cellsAt (a + xs.length)
    ys := by
  induction xs generalizing a with
  | nil => simp [cellsAt]
  | cons x xs ih => simp only [List.cons_append, cellsAt, ih, List.length_cons]; congr 3; omega

/-- Rows that are not scattered are stored one after another. -/
theorem rowEntries_cells {fmt rowFn} {used : Image → Nat} {s : State} (n : Nat) : ∀ (sc : Scan) (prior : List Byte),
    sc.scatter = false →
    (rowEntries fmt rowFn used n sc prior).flatMap (fun e => rowCells s e.1 e.2.1 e.2.2) =
      cellsAt (s.dstAddr.toNat + sc.outOff) (entryBytes (rowEntries fmt rowFn used n sc prior)) := by
  induction n with
  | zero => intro sc prior _; simp [rowEntries, entryBytes, cellsAt]
  | succ k ih =>
    intro sc prior hs
    cases hi : sc.images with
    | nil => simp [rowEntries, hi, entryBytes, cellsAt]
    | cons g rest =>
      rw [rowEntries_succ hi]
      have ho := (next_offs hi (used g) (rowFn sc g prior).length).2
      rw [List.flatMap_cons, ih _ _ (by rw [Scan.next_scatter]; exact hs), ho]
      unfold entryBytes
      rw [List.flatMap_cons, cellsAt_append]
      have : rowCells s sc g (rowFn sc g prior) = cellsAt (s.dstAddr.toNat + sc.outOff) (rowFn sc g prior) := by
        unfold rowCells; rw [hs]
      simp only [this]
      rw [Nat.add_assoc]

/-! ### Reading back -/

/-- Reading back a byte that several cells store alike. -/
theorem read_writeAll_of {m : Memory} (hw : Memory.wf m = true) {cells : List Host.Cell} {x : Nat} {b : Byte}
    (hlt : ∀ c ∈ cells, c.1 < 0x100000000) (hex : ∃ c ∈ cells, c.1 = x) (hfun : ∀ c ∈ cells, c.1 = x → c.2 = b) :
    Memory.read (Memory.writeAll m cells) x = b := by
  induction cells generalizing m with
  | nil => obtain ⟨c, hc, _⟩ := hex; cases hc
  | cons c rest ih =>
    obtain ⟨a, v⟩ := c
    simp only [Memory.writeAll]
    by_cases h : ∃ c ∈ rest, c.1 = x
    · exact ih (Memory.write_wf hw (hlt (a, v) (List.mem_cons_self ..)) v) (fun c hc => hlt c (List.mem_cons_of_mem _ hc)) h
        fun c hc => hfun c (List.mem_cons_of_mem _ hc)
    · have hne : ∀ c ∈ rest, c.1 ≠ x := fun c hc hx => h ⟨c, hc, hx⟩
      rw [Memory.read_writeAll_of_not_mem hne, Memory.read_write hw]
      obtain ⟨c, hc, hx⟩ := hex
      rcases List.mem_cons.mp hc with rfl | hc
      · rw [if_pos hx.symm]; exact hfun _ (List.mem_cons_self ..) hx
      · exact absurd hx (hne c hc)

theorem read_cellsAt {m : Memory} (hw : Memory.wf m = true) {a : Nat} {bs : List Byte}
    (hlt : a + bs.length ≤ 0x100000000) {k : Nat}
    (hk : k < bs.length) : Memory.read (Memory.writeAll m (cellsAt a bs)) (a + k) = bs.getD k 0#8 := by
  refine read_writeAll_of hw (fun c hc => ?_) ⟨_, mem_cellsAt_iff.mpr ⟨k, hk, rfl⟩, rfl⟩ fun c hc hx => ?_
  · obtain ⟨i, hi, rfl⟩ := mem_cellsAt_iff.mp hc; simp only; omega
  · obtain ⟨i, hi, rfl⟩ := mem_cellsAt_iff.mp hc
    simp only at hx ⊢
    obtain rfl : i = k := by omega
    rfl

theorem engineByte_write {s : State} {cells : List Host.Cell} {a : Nat} (h : ∀ c ∈ cells, c.1 ≠ a) :
    ({ s with mem := Memory.writeAll s.mem cells } : State).engineByte a = s.engineByte a := by
  unfold State.engineByte
  have : State.posted { s with mem := Memory.writeAll s.mem cells } a = s.posted a := rfl
  rw [this]
  split
  · rfl
  · exact Memory.read_writeAll_of_not_mem h

/-! ### The two loops -/

/-- The row a filter type reconstructs from the bytes `rd` of the SRC range. -/
def filteredRow (fmt : Word) (rd : Nat → Byte) (sc : Scan) (g : Image) (prior : List Byte) : List Byte :=
  reconRow (predictorOf (rd sc.inOff)) (bppOf fmt) prior [] ((List.range (rowBytes fmt g.width)).map fun i => rd (sc.inOff + 1 + i))

/-- The row DEINTERLACE copies. -/
def copiedRow (fmt : Word) (rd : Nat → Byte) (sc : Scan) (g : Image) (_ : List Byte) : List Byte :=
  (List.range (g.width * bppOf fmt)).map fun i => rd (sc.inOff + i)

theorem filtRow_length (fmt : Word) (rd : Nat → Byte) (sc : Scan) (g : Image) (prior : List Byte) :
    (filteredRow fmt rd sc g prior).length = rowBytes fmt g.width := by
  unfold filteredRow; rw [reconRow_length]; simp

theorem copiedRow_length (fmt : Word) (rd : Nat → Byte) (sc : Scan) (g : Image) (prior : List Byte) :
    (copiedRow fmt rd sc g prior).length = g.width * bppOf fmt := by
  unfold copiedRow; simp

/-- The input bytes of a filtered row. -/
def filterUsed (fmt : Word) (g : Image) : Nat := 1 + rowBytes fmt g.width

/-- The bytes a filtered row gives. -/
def filterGives (fmt : Word) (g : Image) : Nat := rowBytes fmt g.width

/-- The bytes of a copied row. -/
def copyUsed (fmt : Word) (g : Image) : Nat := g.width * bppOf fmt

/-- One iteration with a legal filter-type byte. -/
theorem predictor_step {s : State} {sc : Scan} {g : Image} {rest : List Image} (hs : s.scratch.scan = some sc)
    (hi : sc.images = g :: rest)
    (hr : s.reachable (s.srcAddr.toNat + sc.inOff) = true) (hl : (s.engineByte (s.srcAddr.toNat + sc.inOff)).toNat <
        5) :
    rowStep s = filterRow (predictorOf (s.engineByte (s.srcAddr.toNat + sc.inOff))) s := by
  unfold rowStep rowHead
  simp only [hs, hi]
  have hr1 : Reachable s (s.srcAddr.toNat + sc.inOff) 1 := by intro i h; obtain rfl : i = 0 := by omega
                                                              exact hr
  rw [firstBlocked_none_iff_reachable.mpr hr1]
  simp only
  generalize s.engineByte (s.srcAddr.toNat + sc.inOff) = b at *
  unfold decodeFilter predictorOf
  have : b.toNat = 0 ∨ b.toNat = 1 ∨ b.toNat = 2 ∨ b.toNat = 3 ∨ b.toNat = 4 := by omega
  rcases this with h | h | h | h | h <;> rw [h] <;> rfl

/-- Everything the row loop does where every byte can be reached and every filter type is legal. -/
theorem runRows_entries (n : Nat) : ∀ (s0 s : State) (sc : Scan) (inMax m : Nat) (rd : Nat → Byte),
    RowLoop s0 (filterUsed s0.imgFmt) (filterGives s0.imgFmt) inMax m s sc → n ≤ sc.rowsLeft →
    Reachable s0 s0.srcAddr.toNat inMax → Reachable s0 s0.dstAddr.toNat m →
    (∀ k x, k < inMax → s0.dstAddr.toNat ≤ x → x < s0.dstAddr.toNat + m → x ≠ s0.srcAddr.toNat + k) →
    (∀ k, k < inMax → s.engineByte (s0.srcAddr.toNat + k) = rd k) →
    (∀ e ∈ rowEntries s0.imgFmt (filteredRow s0.imgFmt rd) (filterUsed s0.imgFmt) n sc s.scratch.prior,
        (rd e.1.inOff).toNat < 5) →
    ∃ t, runRows n s = .ok t ∧ t = { s with scratch := t.scratch, mem := Memory.writeAll s.mem ((rowEntries s0.imgFmt (filteredRow s0.imgFmt rd) (filterUsed s0.imgFmt) n sc s.scratch.prior).flatMap fun e => rowCells s0 e.1 e.2.1 e.2.2) } := by
  induction n with
  | zero => intro s0 s sc im m rd l _ _ _ _ _ _; exact ⟨s, rfl, rfl⟩
  | succ k ih =>
    intro s0 s sc im m rd l hn hrs hrd hap hbytes hleg
    have hne : sc.images ≠ [] := fun hi => by rw [rowsLeft_of_nil hi] at hn; omega
    obtain ⟨g, rest, hi⟩ : ∃ g rest, sc.images = g :: rest := by
      cases h : sc.images with
      | nil => exact absurd h hne
      | cons g r => exact ⟨g, r, rfl⟩
    have lin := leftOf_next (filterUsed s0.imgFmt) l.ok hi (filterUsed s0.imgFmt g) (filterGives s0.imgFmt g)
    have lout := leftOf_next (filterGives s0.imgFmt) l.ok hi (filterUsed s0.imgFmt g) (filterGives s0.imgFmt g)
    have hin := l.inB
    have hu : filterUsed s0.imgFmt g = 1 + rowBytes s0.imgFmt g.width := rfl
    have hfmt : s.imgFmt = s0.imgFmt := l.keep.ops.imgFmt
    have hsrc : s.srcAddr = s0.srcAddr := l.keep.ops.srcAddr
    have hpar := l.keep.ops
    have hr1 : s.reachable (s.srcAddr.toNat + sc.inOff) = true := by
      rw [reachable_congr hpar, hsrc]; exact hrs _ (by omega)
    have hr2 : Reachable s (s.srcAddr.toNat + sc.inOff + 1) (rowBytes s.imgFmt g.width) := by
      intro i hi; rw [reachable_congr hpar, hsrc, Nat.add_assoc, Nat.add_assoc]; rw [hfmt] at hi; exact hrs _ (by omega)
    have hft : s.engineByte (s.srcAddr.toNat + sc.inOff) = rd sc.inOff := by rw [hsrc]; exact hbytes _ (by omega)
    rw [rowEntries_succ hi] at hleg ⊢
    have hraw : s.engineBytes (s.srcAddr.toNat + sc.inOff + 1) (rowBytes s.imgFmt g.width) =
        (List.range (rowBytes s0.imgFmt g.width)).map fun i => rd (sc.inOff + 1 + i) := by
      unfold State.engineBytes
      rw [hfmt, hsrc]
      refine List.map_congr_left fun i hi => ?_
      rw [List.mem_range] at hi
      rw [← hbytes _ (by omega : sc.inOff + 1 + i < im)]
      congr 1; omega
    have hb : ∀ row : List Byte, row.length = filterGives s0.imgFmt g → ∀ c ∈ rowCells s0 sc g row, s0.dstAddr.toNat ≤ c.1 ∧ c.1 < s0.dstAddr.toNat + m := by
      intro row hl
      exact rowCells_bound (n := m) (H := s0.imgHeight.toNat) l.ok hi l.imgs l.grid (fun hs => by have := l.outB hs; omega)
    have hrow := filtRow_length s0.imgFmt rd sc g s.scratch.prior
    have hcell : ∀ c ∈ rowCells s sc g (filteredRow s0.imgFmt rd sc g s.scratch.prior), s.reachable c.1 = true := by
      rw [rowCells_congr l.keep.ops]
      intro c hc
      have := hb _ hrow c hc
      rw [reachable_congr hpar]
      have h2 := hrd (c.1 - s0.dstAddr.toNat) (by omega)
      rwa [show s0.dstAddr.toNat + (c.1 - s0.dstAddr.toNat) = c.1 by omega] at h2
    have heq : reconRow (predictorOf (rd sc.inOff)) (bppOf s.imgFmt) s.scratch.prior []
            (s.engineBytes (s.srcAddr.toNat + sc.inOff + 1) (rowBytes s.imgFmt g.width)) = filteredRow s0.imgFmt rd sc g s.scratch.prior := by
      rw [hraw, hfmt]; rfl
    have hstep : rowStep s = .ok (({ s with mem := Memory.writeAll s.mem (rowCells s0 sc g (filteredRow s0.imgFmt rd sc g s.scratch.prior)) } : State).endRow sc
            (filterUsed s0.imgFmt g) (filteredRow s0.imgFmt rd sc g s.scratch.prior)) := by
      rw [predictor_step l.scan hi hr1 (by rw [hft]; exact hleg _ (List.mem_cons_self ..)), hft]
      rw [filterRow_of_reachable l.scan hi hr2 (by rw [heq]; exact hcell), heq, rowCells_congr l.keep.ops, hfmt]
      have : (1 + rowBytes s0.imgFmt g.width) = filterUsed s0.imgFmt g := rfl
      rw [this]
    rw [runRows_succ, hstep, Run.andThen_ok]
    generalize filteredRow s0.imgFmt rd sc g s.scratch.prior = row at *
    have ho := next_offs hi (filterUsed s0.imgFmt g) row.length
    have hrow' : row.length = filterGives s0.imgFmt g := hrow
    generalize hT : (({ s with mem := Memory.writeAll s.mem (rowCells s0 sc g row) } : State).endRow sc (filterUsed s0.imgFmt g) row) = T at *
    have hTp : T.scratch.prior = (if (sc.next (filterUsed s0.imgFmt g) row.length).row = 0 then
        freshPrior s0.imgFmt (sc.next (filterUsed s0.imgFmt g) row.length).images else row) := by
      rw [← hT, ← hfmt]; rfl
    have hTs : T = { s with scratch := T.scratch, mem := Memory.writeAll s.mem (rowCells s0 sc g row) } := by rw [← hT]; rfl
    refine Exists.elim (ih s0 T (sc.next (filterUsed s0.imgFmt g) row.length) im m rd ?_ ?_ hrs hrd hap ?_ ?_) fun t ht => ?_
    · refine ⟨by rw [← hT]; rfl, l.ok.next _ _, l.keep.trans ?_, l.imgs.next _ _, ?_, ?_, ?_⟩
      · rw [← hT]; exact mid_filter_state (by rw [rowCells_congr l.keep.ops] at hcell; exact hcell)
      · rw [ho.1, hrow']; omega
      · rw [ho.2, Scan.next_scatter, hrow']; intro hs; have := l.outB hs; omega
      · rw [Scan.next_scatter]; exact l.grid
    · have := rowsLeft_next l.ok hne (filterUsed s0.imgFmt g) row.length
      omega
    · intro k hk
      rw [hTs]
      have := engineByte_write (s := s) (cells := rowCells s0 sc g row) (a := s0.srcAddr.toNat + k) (fun c hc => by
        have := hb _ hrow' c hc
        exact hap k c.1 hk this.1 this.2)
      rw [← hbytes k hk, ← this]
      rfl
    · rw [hTp]
      exact fun e he => hleg e (List.mem_cons_of_mem _ he)
    · obtain ⟨ht1, ht2⟩ := ht
      refine ⟨t, ht1, ?_⟩
      rw [ht2, hTp, List.flatMap_cons, Memory.writeAll_append]
      conv_lhs => rw [hTs]

/-- Everything the copy loop does where every byte can be reached. -/
theorem copyRows_entries (n : Nat) : ∀ (s0 s : State) (sc : Scan) (inMax m : Nat) (rd : Nat → Byte) (prior : List Byte),
    RowLoop s0 (copyUsed s0.imgFmt) (copyUsed s0.imgFmt) inMax m s sc → n ≤ sc.rowsLeft →
    Reachable s0 s0.srcAddr.toNat inMax → Reachable s0 s0.dstAddr.toNat m →
    (∀ k x, k < inMax → s0.dstAddr.toNat ≤ x → x < s0.dstAddr.toNat + m → x ≠ s0.srcAddr.toNat + k) →
    (∀ k, k < inMax → s.engineByte (s0.srcAddr.toNat + k) = rd k) →
    ∃ t, copyRows n s = .ok t ∧ t = { s with scratch := t.scratch, mem := Memory.writeAll s.mem ((rowEntries s0.imgFmt (copiedRow s0.imgFmt rd) (copyUsed s0.imgFmt) n sc prior).flatMap fun e => rowCells s0 e.1 e.2.1 e.2.2) } := by
  induction n with
  | zero => intro s0 s sc im m rd prior l _ _ _ _ _; exact ⟨s, rfl, rfl⟩
  | succ k ih =>
    intro s0 s sc im m rd prior l hn hrs hrd hap hbytes
    have hne : sc.images ≠ [] := fun hi => by rw [rowsLeft_of_nil hi] at hn; omega
    obtain ⟨g, rest, hi⟩ : ∃ g rest, sc.images = g :: rest := by
      cases h : sc.images with
      | nil => exact absurd h hne
      | cons g r => exact ⟨g, r, rfl⟩
    have lin := leftOf_next (copyUsed s0.imgFmt) l.ok hi (copyUsed s0.imgFmt g) (copyUsed s0.imgFmt g)
    have hin := l.inB
    have hu : copyUsed s0.imgFmt g = g.width * bppOf s0.imgFmt := rfl
    have hfmt : s.imgFmt = s0.imgFmt := l.keep.ops.imgFmt
    have hsrc : s.srcAddr = s0.srcAddr := l.keep.ops.srcAddr
    have hpar := l.keep.ops
    have hr2 : Reachable s (s.srcAddr.toNat + sc.inOff) (g.width * bppOf s.imgFmt) := by
      intro i hi; rw [reachable_congr hpar, hsrc, Nat.add_assoc]; rw [hfmt] at hi; exact hrs _ (by omega)
    rw [rowEntries_succ hi]
    have heq : s.engineBytes (s.srcAddr.toNat + sc.inOff) (g.width * bppOf s.imgFmt) = copiedRow s0.imgFmt rd sc g prior := by
      unfold State.engineBytes copiedRow
      rw [hfmt, hsrc]
      refine List.map_congr_left fun i hi => ?_
      rw [List.mem_range] at hi
      rw [← hbytes _ (by omega : sc.inOff + i < im)]
      congr 1; omega
    have hb : ∀ row : List Byte, row.length = copyUsed s0.imgFmt g → ∀ c ∈ rowCells s0 sc g row, s0.dstAddr.toNat ≤ c.1 ∧ c.1 < s0.dstAddr.toNat + m := by
      intro row hl
      exact rowCells_bound (n := m) (H := s0.imgHeight.toNat) l.ok hi l.imgs l.grid (fun hs => by have := l.outB hs; omega)
    have hrow := copiedRow_length s0.imgFmt rd sc g prior
    have hcell : ∀ c ∈ rowCells s sc g (copiedRow s0.imgFmt rd sc g prior), s.reachable c.1 = true := by
      rw [rowCells_congr l.keep.ops]
      intro c hc
      have := hb _ hrow c hc
      rw [reachable_congr hpar]
      have h2 := hrd (c.1 - s0.dstAddr.toNat) (by omega)
      rwa [show s0.dstAddr.toNat + (c.1 - s0.dstAddr.toNat) = c.1 by omega] at h2
    have hstep : copyRow s = .ok (({ s with mem := Memory.writeAll s.mem (rowCells s0 sc g (copiedRow s0.imgFmt rd sc g prior)) } : State).withScan
            (sc.next (copyUsed s0.imgFmt g) (copyUsed s0.imgFmt g))) := by
      unfold copyRow
      simp only [l.scan, hi]
      rw [memRead_of_reachable hr2, heq, storeCells_of_reachable hcell, Run.andThen_ok, rowCells_congr l.keep.ops, hfmt]
      rfl
    rw [copyRows_succ, hstep, Run.andThen_ok]
    generalize copiedRow s0.imgFmt rd sc g prior = row at *
    have hrow' : row.length = copyUsed s0.imgFmt g := hrow
    rw [hrow']
    have ho := next_offs hi (copyUsed s0.imgFmt g) (copyUsed s0.imgFmt g)
    generalize hT : (({ s with mem := Memory.writeAll s.mem (rowCells s0 sc g row) } : State).withScan (sc.next (copyUsed s0.imgFmt g) (copyUsed s0.imgFmt g))) = T at *
    have hTs : T = { s with scratch := T.scratch, mem := Memory.writeAll s.mem (rowCells s0 sc g row) } := by rw [← hT]; rfl
    refine Exists.elim (ih s0 T (sc.next (copyUsed s0.imgFmt g) (copyUsed s0.imgFmt g)) im m rd
        (if (sc.next (copyUsed s0.imgFmt g) (copyUsed s0.imgFmt g)).row = 0 then freshPrior s0.imgFmt (sc.next (copyUsed s0.imgFmt g) (copyUsed s0.imgFmt g)).images else row)
        ?_ ?_ hrs hrd hap ?_) fun t ht => ?_
    · refine ⟨by rw [← hT]; rfl, l.ok.next _ _, l.keep.trans ?_, l.imgs.next _ _, ?_, ?_, ?_⟩
      · rw [hTs]
        refine ⟨by constructor <;> rfl, rfl, rfl, rfl, rfl, rfl, rfl, rfl, fun _ h => h, fun hw => ?_, id⟩
        rw [rowCells_congr l.keep.ops] at hcell
        exact Memory.writeAll_wf hw fun c hx => reachable_lt (hcell c hx)
      · rw [ho.1]; omega
      · rw [ho.2, Scan.next_scatter]; intro hs; have := l.outB hs; omega
      · rw [Scan.next_scatter]; exact l.grid
    · have := rowsLeft_next l.ok hne (copyUsed s0.imgFmt g) (copyUsed s0.imgFmt g)
      omega
    · intro k hk
      rw [hTs]
      have := engineByte_write (s := s) (cells := rowCells s0 sc g row) (a := s0.srcAddr.toNat + k) (fun c hc => by
        have := hb _ hrow' c hc
        exact hap k c.1 hk this.1 this.2)
      rw [← hbytes k hk, ← this]
      rfl
    · obtain ⟨ht1, ht2⟩ := ht
      refine ⟨t, ht1, ?_⟩
      rw [ht2, List.flatMap_cons, Memory.writeAll_append]
      conv_lhs => rw [hTs]

/-! ### The stream -/

theorem range_drop_head {rd : Nat → Byte} {T o : Nat} (h : o < T) : (((List.range T).map rd).drop o).getD 0 0#8 = rd
    o := by
  rw [List.getD_eq_getElem?_getD, List.getElem?_drop]
  simp [h]

theorem range_drop_row {rd : Nat → Byte} {T o rb : Nat} (h : o + 1 + rb ≤ T) :
    ((((List.range T).map rd).drop o).drop 1).take rb = (List.range rb).map fun i => rd (o + 1 + i) := by
  refine List.ext_getElem? fun i => ?_
  rw [List.getElem?_take, List.drop_drop, List.getElem?_drop]
  by_cases hi : i < rb
  · have : o + 1 + i < T := by omega
    simp [hi, this]
  · simp [hi]

/-- The entries' rows and filter-type bytes are the reference reading of the stream. -/
theorem filterEntries_stream (n : Nat) : ∀ (fmt : Word) (rd : Nat → Byte) (T : Nat) (sc : Scan) (prior : List Byte)
    (g : Image) (rest : List Image),
    ScanOk sc → sc.rowsLeft = n → sc.images = g :: rest → sc.inOff + bytesLeft (filterUsed fmt) sc ≤ T →
    entryBytes (rowEntries fmt (filteredRow fmt rd) (filterUsed fmt) n sc prior) =
      imageRows (bppOf fmt) (rowBytes fmt g.width) (g.height - sc.row) prior (((List.range T).map rd).drop sc.inOff) ++
        streamRows fmt rest (((List.range T).map rd).drop (sc.inOff + (g.height - sc.row) *
            (1 + rowBytes fmt g.width))) ∧
    (rowEntries fmt (filteredRow fmt rd) (filterUsed fmt) n sc prior).map (fun e => rd e.1.inOff) =
      imageFilterBytes (rowBytes fmt g.width) (g.height - sc.row) (((List.range T).map rd).drop sc.inOff) ++
        streamFilterBytes fmt rest (((List.range T).map rd).drop (sc.inOff + (g.height - sc.row) *
            (1 + rowBytes fmt g.width))) := by
  induction n with
  | zero =>
    intro fmt rd T sc prior g rest ho h0 hi
    rw [images_of_rowsLeft ho h0] at hi
    cases hi
  | succ k ih =>
    intro fmt rd T sc prior g rest ho hn hi hT
    have hr := ho.row g rest hi
    have hl := leftOf_next (filterUsed fmt) ho hi (filterUsed fmt g) (filterGives fmt g)
    have hu : filterUsed fmt g = 1 + rowBytes fmt g.width := rfl
    have hrl := rowsLeft_next ho (by rw [hi]; simp) (filterUsed fmt g) (filterGives fmt g)
    have hoff := (next_offs hi (filterUsed fmt g) (filterGives fmt g)).1
    have hlen : (filteredRow fmt rd sc g prior).length = filterGives fmt g := filtRow_length _ _ _ _ _
    rw [rowEntries_succ hi, hlen]
    obtain ⟨d, hd⟩ : ∃ d, g.height - sc.row = d + 1 := ⟨g.height - sc.row - 1, by omega⟩
    rw [hd]
    have hrow : filteredRow fmt rd sc g prior = reconRow (predictorOf ((((List.range T).map rd).drop sc.inOff).getD 0 0#8)) (bppOf fmt) prior []
        (((((List.range T).map rd).drop sc.inOff).drop 1).take (rowBytes fmt g.width)) := by
      rw [range_drop_head (by omega), range_drop_row (by omega)]; rfl
    simp only [imageRows, imageFilterBytes]
    rw [range_drop_head (by omega)]
    rw [range_drop_head (by omega)] at hrow
    rw [← hrow]
    unfold entryBytes
    rw [List.flatMap_cons, List.map_cons]
    simp only [List.append_assoc, List.cons_append, List.cons.injEq, true_and, List.append_cancel_left_eq, List.drop_drop]
    by_cases c : sc.row + 1 < g.height
    · have hx := ih fmt rd T (sc.next (filterUsed fmt g) (filterGives fmt g)) (filteredRow fmt rd sc g prior) g rest (ho.next _ _) (by omega)
        (by rw [Scan.next_of_lt hi c]; exact hi) (by rw [hoff]; omega)
      have hrw : (sc.next (filterUsed fmt g) (filterGives fmt g)).row = sc.row + 1 := by rw [Scan.next_of_lt hi c]
      rw [hoff, hrw, show g.height - (sc.row + 1) = d by omega, hu] at hx
      rw [hrw, if_neg (by omega), hu]
      rw [show sc.inOff + (d + 1) * (1 + rowBytes fmt g.width) = sc.inOff + (1 + rowBytes fmt g.width) + d * (1 + rowBytes fmt g.width) by ring]
      exact hx
    · have hd0 : d = 0 := by omega
      subst hd0
      have hnx := Scan.next_of_ge hi (by omega) (filterUsed fmt g) (filterGives fmt g)
      have hrw : (sc.next (filterUsed fmt g) (filterGives fmt g)).row = 0 := by rw [hnx]
      have him : (sc.next (filterUsed fmt g) (filterGives fmt g)).images = rest := by rw [hnx]
      simp only [imageRows, imageFilterBytes, List.nil_append]
      rw [hrw, if_pos rfl, him, show sc.inOff + (0 + 1) * (1 + rowBytes fmt g.width) = sc.inOff + (1 + rowBytes fmt g.width) by ring]
      cases rest with
      | nil =>
        have : k = 0 := by rw [rowsLeft_of_nil him] at hrl; omega
        subst this
        simp [rowEntries, streamRows, streamFilterBytes]
      | cons g' rest' =>
        have hx := ih fmt rd T (sc.next (filterUsed fmt g) (filterGives fmt g)) (freshPrior fmt (g' :: rest')) g' rest' (ho.next _ _) (by omega)
          him (by rw [hoff]; omega)
        rw [hoff, hrw, Nat.sub_zero, hu] at hx
        simp only [streamRows, streamFilterBytes, List.drop_drop]
        rw [hu]
        exact hx

/-- UNFILTER or RECONSTRUCT ran its row loop, storing `es`, and completed in `t`. -/
def RanRows (s : State) (i : Instr) (b : Bool) (es : List RowEntry) (t : State) : Prop :=
  ∃ u : State, ((startRows i b s).andThen fun s1 => runRows s1.rowsLeft s1).close = .next t ∧ t = u.completeOutput (s.needOut i) ∧
    u = { s with scratch := u.scratch, mem := Memory.writeAll s.mem (es.flatMap fun e => rowCells s e.1 e.2.1 e.2.2) }

/-- Byte `k` of the SRC range. -/
def srcByte (s : State) (k : Nat) : Byte := s.engineByte (s.srcAddr.toNat + k)

/-- The rows of UNFILTER and RECONSTRUCT. -/
def filterEntries (s : State) (i : Instr) (b : Bool) : List RowEntry :=
  rowEntries s.imgFmt (filteredRow s.imgFmt (srcByte s)) (filterUsed s.imgFmt) (Scan.start s.images (s.needOut i) b).rowsLeft (Scan.start s.images (s.needOut i) b)
    (freshPrior s.imgFmt s.images)

/-- The rows of DEINTERLACE. -/
def copyEntries (s : State) : List RowEntry :=
  rowEntries s.imgFmt (copiedRow s.imgFmt (srcByte s)) (copyUsed s.imgFmt) (Scan.start s.images (s.needOut .deinterlace) true).rowsLeft (Scan.start s.images (s.needOut .deinterlace) true) []

theorem engineBytes_eq (s : State) (n : Nat) : s.engineBytes s.srcAddr.toNat n = (List.range n).map (srcByte s) := rfl

theorem filterEntries_bytes {s : State} {i : Instr} {b : Bool} (hc : s.checkReconstruction i = none) :
    entryBytes (filterEntries s i b) = streamRows s.imgFmt s.images (s.engineBytes s.srcAddr.toNat s.needIn) ∧
    (filterEntries s i b).map (fun e => srcByte s e.1.inOff) = streamFilterBytes s.imgFmt s.images
        (s.engineBytes s.srcAddr.toNat s.needIn) := by
  have ho := scanOk_start hc (s.needOut i) b
  cases hi : s.images with
  | nil => exact absurd hi (images_ne_nil hc)
  | cons g rest =>
    have := filterEntries_stream _ s.imgFmt (srcByte s) s.needIn (Scan.start s.images (s.needOut i) b) (freshPrior s.imgFmt s.images) g rest ho rfl hi
      (by have := needIn_eq s (s.needOut i) b; unfold filterUsed; rw [this]; simp [Scan.start])
    rw [engineBytes_eq]
    simpa [filterEntries, Scan.start, streamRows, streamFilterBytes, hi, freshPrior] using this

theorem filterEntries_length {s : State} {i : Instr} {b : Bool} (hc : s.checkReconstruction i = none) :
    (entryBytes (filterEntries s i b)).length = s.needUnf := by
  unfold filterEntries
  rw [rowEntries_length (outLen := filterGives s.imgFmt) (filtRow_length _ _) _ _ _ (scanOk_start hc _ _) rfl]
  exact needUnf_eq s _ _

theorem CheckFacts.apart_src_dst {s : State} {i : Instr} (f : CheckFacts s i) {a b : Nat} (ha : a ≤ s.srcLen.toNat)
    (hb : b ≤ s.dstLen.toNat) :
    ∀ k x, k < a → s.dstAddr.toNat ≤ x → x < s.dstAddr.toNat + b → x ≠ s.srcAddr.toNat + k := by
  intro k x hk h1 h2 h3
  have := f.apart
  omega

theorem ranRows_of_reachable {s : State} {i : Instr} {b : Bool} (hi : (i = .unfilter ∧ b = false) ∨
    (i = .reconstruct ∧ b = decide (interlace s.imgFmt ≠ 0)))
    (hc : s.checkReconstruction i = none) (hr : Reachable s s.srcAddr.toNat s.needIn)
        (hd : Reachable s s.dstAddr.toNat (s.needOut i))
    (hf : FiltersLegal s) : ∃ t, RanRows s i b (filterEntries s i b) t := by
  have f := check_facts hc
  have hne : i ≠ .deinterlace := by rcases hi with ⟨rfl, _⟩ | ⟨rfl, _⟩ <;> simp
  have hns : s.needIn ≤ s.srcLen.toNat := by have := f.needSrc; simpa [State.needSrc, hne] using this
  have l := loop_start hi hc
  rcases startRows_cases i b s with ⟨e, hc', h⟩ | ⟨_, h⟩
  · rw [hc] at hc'; cases hc'
  generalize hu : ({ s with scratch := { s.scratch with
            prior := freshPrior s.imgFmt s.images
            scan := some (Scan.start s.images (s.needOut i) b) } } : State) = u at *
  have hrl : u.rowsLeft = (Scan.start s.images (s.needOut i) b).rowsLeft := by unfold State.rowsLeft; rw [l.scan]
  have hup : u.scratch.prior = freshPrior s.imgFmt s.images := by rw [← hu]
  obtain ⟨t, h1, h2⟩ := runRows_entries (Scan.start s.images (s.needOut i) b).rowsLeft s u _ _ _ (srcByte s) l le_rfl hr hd (CheckFacts.apart_src_dst f hns f.needOut)
    (fun k _ => by rw [← hu]; rfl) (fun e he => by
      have := (filterEntries_bytes (b := b) hc).2
      apply hf
      rw [← this]
      rw [hup] at he
      exact List.mem_map.mpr ⟨e, he, rfl⟩)
  obtain ⟨sc', a, b', c, d⟩ := runRows_counters _ u _ l.scan l.ok le_rfl t h1
  have hnil := images_of_rowsLeft b' (by omega)
  refine ⟨t.completeOutput (s.needOut i), t, ?_, rfl, ?_⟩
  · rw [h, Run.andThen_ok, hrl, h1, Run.close_ok]
    rcases closeRows_cases t with ⟨sc2, e1, e2, h'⟩ | ⟨hh, _⟩
    · rw [h']
      rw [a] at e1; obtain rfl := Option.some.inj e1
      rw [d]; rfl
    · exact absurd hnil (hh _ a)
  · rw [hup] at h2
    conv_lhs => rw [h2]
    rw [← hu]
    rfl

theorem execDeinterlace_of_reachable {s : State} (hc : s.checkReconstruction .deinterlace = none)
    (hr : Reachable s s.srcAddr.toNat s.needUnf)
    (hd : Reachable s s.dstAddr.toNat (s.needOut .deinterlace)) :
    ∃ u : State, execDeinterlace s = .next (u.completeOutput (s.needOut .deinterlace)) ∧
      u = { s with scratch := u.scratch, mem := Memory.writeAll s.mem ((copyEntries s).flatMap fun e => rowCells s e.1 e.2.1 e.2.2) } := by
  have f := check_facts hc
  have hns : s.needUnf ≤ s.srcLen.toNat := by have := f.needSrc; simpa [State.needSrc] using this
  have l := loop_start_copy hc
  have hst : startDeinterlace s = .ok (s.withScan (Scan.start s.images (s.needOut .deinterlace) true)) := by
    unfold startDeinterlace; rw [hc]
  generalize hu : s.withScan (Scan.start s.images (s.needOut .deinterlace) true) = u at *
  have hrl : u.rowsLeft = (Scan.start s.images (s.needOut .deinterlace) true).rowsLeft := by unfold State.rowsLeft; rw [l.scan]
  obtain ⟨t, h1, h2⟩ := copyRows_entries (Scan.start s.images (s.needOut .deinterlace) true).rowsLeft s u _ _ _ (srcByte s) [] l le_rfl hr hd (CheckFacts.apart_src_dst f hns f.needOut)
    (fun k _ => by rw [← hu]; rfl)
  obtain ⟨sc', a, b', c, d⟩ := copyRows_counters _ u _ l.scan l.ok le_rfl t h1
  have hnil := images_of_rowsLeft b' (by omega)
  refine ⟨t, ?_, ?_⟩
  · unfold execDeinterlace
    rw [hst, Run.andThen_ok, hrl, h1, Run.close_ok]
    rcases closeRows_cases t with ⟨sc2, e1, e2, h'⟩ | ⟨hh, _⟩
    · rw [h']
      rw [a] at e1; obtain rfl := Option.some.inj e1
      rw [d]; rfl
    · exact absurd hnil (hh _ a)
  · conv_lhs => rw [h2]
    rw [← hu]
    rfl

/-- What a completed command that stored `es` keeps. -/
theorem complete_keeps {s u : State} {es : List RowEntry} {n : Nat} (hu : u = { s with scratch := u.scratch, mem := Memory.writeAll s.mem (es.flatMap fun e => rowCells s e.1 e.2.1 e.2.2) }) :
    KeepsOperands s (u.completeOutput n) ∧ KeepsChunkRegs s (u.completeOutput n) ∧
    KeepsErrInfo s (u.completeOutput n) ∧ CompletedOk (u.completeOutput n) ∧
    PostedOutsideOutput s n (u.completeOutput n) ∧
    (u.completeOutput n).mem = Memory.writeAll s.mem (es.flatMap fun e => rowCells s e.1 e.2.1 e.2.2) := by
  rw [hu]
  refine ⟨by constructor <;> rfl, by constructor <;> rfl, by constructor <;> rfl, by constructor <;> rfl, rfl, rfl⟩

/-- The bytes UNFILTER leaves. -/
theorem unscattered_reads {s : State} {i : Instr} (hn : s.needOut i = s.needUnf)
    (hc : s.checkReconstruction i = none) (hw : Memory.wf s.mem = true) :
    (∀ k, k < s.needUnf → Memory.read (Memory.writeAll s.mem ((filterEntries s i false).flatMap fun e => rowCells s
        e.1 e.2.1 e.2.2)) (s.dstAddr.toNat + k) =
        (streamRows s.imgFmt s.images (s.engineBytes s.srcAddr.toNat s.needIn)).getD k 0#8) ∧
      (∀ a, OutsideOutput s s.needUnf a → Memory.read (Memory.writeAll s.mem
          ((filterEntries s i false).flatMap fun e => rowCells s e.1 e.2.1 e.2.2)) a = Memory.read s.mem a) := by
  have f := check_facts hc
  have hlen := filterEntries_length (b := false) hc
  have hcells : ((filterEntries s i false).flatMap fun e => rowCells s e.1 e.2.1 e.2.2) = cellsAt s.dstAddr.toNat (entryBytes (filterEntries s i false)) := by
    unfold filterEntries
    rw [rowEntries_cells _ _ _ rfl]
    rfl
  rw [hcells]
  refine ⟨fun k hk => ?_, fun a ha => ?_⟩
  · rw [read_cellsAt hw (by rw [hlen]; have := f.needOut; have := f.dst; omega) (by omega), (filterEntries_bytes hc).1]
  · refine Memory.read_writeAll_of_not_mem fun c hc hx => ha ?_
    have := mem_cellsAt hc
    rw [hlen] at this
    omega

/-! ### The grid -/

/-- No grid point belongs to two pixels of passes (R175). -/
theorem pass_unique {p p' i i' j j' : Nat} (hp : p < 7) (hp' : p' < 7)
    (hx : (passRow p).startX + i * (passRow p).stepX = (passRow p').startX + i' * (passRow p').stepX)
    (hy : (passRow p).startY + j * (passRow p).stepY = (passRow p').startY + j' * (passRow p').stepY) : p = p' ∧ i =
        i' ∧ j = j' := by
  interval_cases p <;> interval_cases p' <;> simp only [passRow] at hx hy <;> omega

theorem mul_add_inj {a b n k k' : Nat} (hk : k < n) (hk' : k' < n) (h : a * n + k = b * n + k') : a = b ∧ k = k' := by
  have h1 : (a * n + k) / n = a := by rw [Nat.mul_comm, Nat.mul_add_div (by omega)]; simp [Nat.div_eq_of_lt hk]
  have h2 : (b * n + k') / n = b := by rw [Nat.mul_comm, Nat.mul_add_div (by omega)]; simp [Nat.div_eq_of_lt hk']
  have : a = b := by rw [← h1, ← h2, h]
  subst this
  exact ⟨rfl, by omega⟩

theorem gridOffset_inj {w h bpp p p' j j' i i' k k' : Nat} (hp : p < 7) (hp' : p' < 7) (hj : j < passHeight h p)
    (hj' : j' < passHeight h p')
    (hi : i < passWidth w p) (hi' : i' < passWidth w p') (hk : k < bpp) (hk' : k' < bpp)
    (he : gridOffset w bpp p j i + k = gridOffset w bpp p' j' i' + k') : p = p' ∧ i = i' ∧ j = j' ∧ k = k' := by
  unfold gridOffset at he
  obtain ⟨h1, h2⟩ := mul_add_inj hk hk' he
  rw [Nat.add_assoc, Nat.add_assoc] at h1
  obtain ⟨h3, h4⟩ := mul_add_inj (lt_passWidth.mp hi) (lt_passWidth.mp hi') h1
  obtain ⟨a, b, c⟩ := pass_unique hp hp' h4 h3
  exact ⟨a, b, c, h2⟩

/-- Every byte of the grid is a byte of a pixel of a pass (R175). -/
theorem grid_cover {W H bpp k : Nat} (hb : 0 < bpp) (hk : k < W * H * bpp) :
    ∃ p j i k', p < 7 ∧ j < passHeight H p ∧ i < passWidth W p ∧ k' < bpp ∧ k = gridOffset W bpp p j i + k' := by
  have hq : k / bpp < W * H := Nat.div_lt_of_lt_mul (by rw [Nat.mul_comm]; exact hk)
  have hW : 0 < W := by
    rcases Nat.eq_zero_or_pos W with h | h
    · subst h; simp at hq
    · exact h
  generalize hqq : k / bpp = q at *
  have hy : q / W < H := Nat.div_lt_of_lt_mul hq
  have hx : q % W < W := Nat.mod_lt _ hW
  generalize hyy : q / W = y at *
  generalize hxx : q % W = x at *
  have hqe : q = y * W + x := by rw [← hyy, ← hxx, Nat.mul_comm]; exact (Nat.div_add_mod q W).symm
  have hke : k = q * bpp + k % bpp := by rw [← hqq, Nat.mul_comm]; exact (Nat.div_add_mod k bpp).symm
  suffices h : ∃ p j i, p < 7 ∧ x = (passRow p).startX + i * (passRow p).stepX ∧ y = (passRow p).startY + j * (passRow p).stepY by
    obtain ⟨p, j, i, hp, h1, h2⟩ := h
    refine ⟨p, j, i, k % bpp, hp, lt_passHeight.mpr (by omega), lt_passWidth.mpr (by omega), Nat.mod_lt _ hb, ?_⟩
    unfold gridOffset
    rw [Nat.add_assoc, ← h1, ← h2, ← hqe]
    exact hke
  by_cases c6 : y % 2 = 1
  · exact ⟨6, y / 2, x, by omega, by simp [passRow], by simp [passRow]; omega⟩
  by_cases c5 : x % 2 = 1
  · exact ⟨5, y / 2, x / 2, by omega, by simp [passRow]; omega, by simp [passRow]; omega⟩
  by_cases c4 : y % 4 = 2
  · exact ⟨4, y / 4, x / 2, by omega, by simp [passRow]; omega, by simp [passRow]; omega⟩
  by_cases c3 : x % 4 = 2
  · exact ⟨3, y / 4, x / 4, by omega, by simp [passRow]; omega, by simp [passRow]; omega⟩
  by_cases c2 : y % 8 = 4
  · exact ⟨2, y / 8, x / 4, by omega, by simp [passRow]; omega, by simp [passRow]; omega⟩
  by_cases c1 : x % 8 = 4
  · exact ⟨1, y / 8, x / 8, by omega, by simp [passRow]; omega, by simp [passRow]; omega⟩
  · exact ⟨0, y / 8, x / 8, by omega, by simp [passRow]; omega, by simp [passRow]; omega⟩

/-- The seven passes, empty ones included. -/
def passes (W H : Nat) : List Image := (List.range 7).map fun p => Image.mk (some p) (passWidth W p) (passHeight H p)

/-- An image of the list of non-empty passes is its pass, and the images before it have the bytes of the passes before. -/
theorem place_pass {W H : Nat} {pre rest : List Image} {g : Image} (f : Image → Nat)
    (hf : ∀ g : Image, g.width = 0 → f g = 0)
    (h : ((passes W H).filter fun g => decide (0 < g.width) && decide (0 < g.height)) = pre ++ g :: rest) :
    ∃ p, p < 7 ∧ g = ⟨some p, passWidth W p, passHeight H p⟩ ∧
      (pre.map fun g => g.height * f g).sum = ((List.range p).map fun q => passHeight H q * f
          ⟨some q, passWidth W q, passHeight H q⟩).sum := by
  obtain ⟨l1, l2, h1, h2, h3⟩ := List.filter_eq_append_iff.mp h
  obtain ⟨A, B, h4, h5, h6, h7⟩ := List.filter_eq_cons_iff.mp h3
  have hsplit : passes W H = (l1 ++ A) ++ g :: B := by rw [h1, h4]; simp
  have hlen : (l1 ++ A).length < 7 := by
    have := congrArg List.length hsplit
    simp only [passes, List.length_map, List.length_range, List.length_append, List.length_cons] at this ⊢
    omega
  generalize hp : (l1 ++ A).length = p at *
  have hg : g = ⟨some p, passWidth W p, passHeight H p⟩ := by
    have : (passes W H)[p]? = some g := by
      rw [hsplit, List.getElem?_append_right (by omega), hp]; simp
    simp only [passes, List.getElem?_map, List.getElem?_range hlen, Option.map_some, Option.some.injEq] at this
    exact this.symm
  refine ⟨p, hlen, hg, ?_⟩
  have htake : l1 ++ A = (List.range p).map fun p => Image.mk (some p) (passWidth W p) (passHeight H p) := by
    have : (passes W H).take p = l1 ++ A := by rw [hsplit, List.take_append_of_le_length (by omega)]; rw [← hp]; exact List.take_length
    rw [← this]
    unfold passes
    rw [← List.map_take, List.take_range, Nat.min_eq_left (by omega)]
  have hz : ∀ L : List Image, ((L.filter fun g => decide (0 < g.width) && decide (0 < g.height)).map fun g => g.height * f g).sum = (L.map fun g => g.height * f g).sum := by
    intro L
    induction L with
    | nil => rfl
    | cons x xs ih =>
      rw [List.filter_cons]
      split
      · simp [ih]
      · next hx =>
        have : x.height * f x = 0 := by
          simp only [Bool.and_eq_true, decide_eq_true_eq, not_and_or] at hx
          rcases hx with hx | hx
          · rw [hf x (by omega)]; simp
          · rw [show x.height = 0 by omega]; simp
        simp [ih, this]
  have hA : A.filter (fun g => decide (0 < g.width) && decide (0 < g.height)) = [] := by
    rw [List.filter_eq_nil_iff]; exact h5
  have : pre = (l1 ++ A).filter fun g => decide (0 < g.width) && decide (0 < g.height) := by
    rw [List.filter_append, hA, h2]; simp
  rw [this, hz, htake]
  simp [Function.comp_def]

theorem images_interlaced {s : State} (h : interlace s.imgFmt = 1) :
    s.images = (passes s.imgWidth.toNat s.imgHeight.toNat).filter fun g => decide (0 < g.width) && decide
        (0 < g.height) := by
  unfold State.images imagesOf; rw [h]; rfl

/-- Rows that are scattered over the grid. -/
structure Scattered (s : State) (rowFn : Scan → Image → List Byte → List Byte) (used : Image → Nat)
    (es : List RowEntry) : Prop where
  eq : ∃ n sc prior, es = rowEntries s.imgFmt rowFn used n sc prior ∧ n = sc.rowsLeft ∧ sc = Scan.start s.images
      (s.gridBytes) true
  len : ∀ sc g p, (rowFn sc g p).length = g.width * bppOf s.imgFmt
  il : interlace s.imgFmt = 1
  ok : ScanOk (Scan.start s.images (s.gridBytes) true)

/-- Every cell stored is a byte of a pixel at its place, with the value the concatenated passes have there. -/
theorem Scattered.cell {s : State} {rowFn used es} (h : Scattered s rowFn used es) :
    ∀ c ∈ (es.flatMap fun e => rowCells s e.1 e.2.1 e.2.2), ∃ p j i k, p < 7 ∧ j < passHeight s.imgHeight.toNat p ∧ i
        < passWidth s.imgWidth.toNat p ∧
      k < bppOf s.imgFmt ∧ c.1 = s.dstAddr.toNat + gridOffset s.imgWidth.toNat (bppOf s.imgFmt) p j i + k ∧
      c.2 = (entryBytes es).getD (passOffset s.imgWidth.toNat s.imgHeight.toNat (bppOf s.imgFmt) p +
          (j * passWidth s.imgWidth.toNat p + i) * bppOf s.imgFmt + k) 0#8 := by
  intro c hc
  obtain ⟨n, sc, prior, rfl, hn, hsc⟩ := h.eq
  obtain ⟨e, he, hc⟩ := List.mem_flatMap.mp hc
  have hpl : Placed s.images used (fun g => g.width * bppOf s.imgFmt) sc := by
    refine ⟨⟨[], ?_⟩, hsc ▸ h.ok⟩
    rw [hsc]; refine ⟨rfl, ?_, ?_⟩ <;> simp [Scan.start]
  obtain ⟨pl, ⟨rest, hi⟩, hlen, hscat, _⟩ := rowEntries_placed h.len n sc prior hpl e he
  obtain ⟨pre, q1, q2, q3⟩ := pl.split
  rw [hi] at q1 q2
  rw [images_interlaced h.il] at q1
  obtain ⟨p, hp, hg, hsum⟩ := place_pass (fun g => g.width * bppOf s.imgFmt) (fun g hg => by simp [hg]) q1
  have hrow := pl.ok.row _ _ hi
  rw [hg] at hrow
  have hcc : rowCells s e.1 e.2.1 e.2.2 = scatterCells s.dstAddr.toNat s.imgWidth.toNat (bppOf s.imgFmt) p e.1.row e.2.2 := by
    unfold rowCells; rw [hscat, hsc, hg]; rfl
  rw [hcc] at hc
  obtain ⟨i, k, hi', hk, hr, rfl⟩ := mem_scatterCells hc
  refine ⟨p, e.1.row, i, k, hp, hrow, hi', hk, rfl, ?_⟩
  have hslice := (rowEntries_slice (used := used) h.len n sc prior e he).2 (i * bppOf s.imgFmt + k) hr
  simp only
  rw [← hslice]
  congr 1
  have hso : sc.outOff = 0 := by rw [hsc]; rfl
  simp only at q2
  rw [hso, q2, hsum, hg]
  simp only [passOffset]
  have : ((List.range p).map fun q => passHeight s.imgHeight.toNat q * (passWidth s.imgWidth.toNat q * bppOf s.imgFmt)).sum =
      ((List.range p).map fun q => passWidth s.imgWidth.toNat q * passHeight s.imgHeight.toNat q * bppOf s.imgFmt).sum := by
    congr 1
    refine List.map_congr_left fun q _ => ?_
    ring
  rw [this, Nat.sub_zero]
  ring

/-- Every byte of every pixel is stored. -/
theorem Scattered.mem {s : State} {rowFn used es} (h : Scattered s rowFn used es) {p j i k : Nat} (hp : p < 7)
    (hj : j < passHeight s.imgHeight.toNat p)
    (hi : i < passWidth s.imgWidth.toNat p) (hk : k < bppOf s.imgFmt) :
    ∃ c ∈ (es.flatMap fun e => rowCells s e.1 e.2.1 e.2.2), c.1 = s.dstAddr.toNat + gridOffset s.imgWidth.toNat
        (bppOf s.imgFmt) p j i + k := by
  obtain ⟨n, sc, prior, rfl, hn, hsc⟩ := h.eq
  have hmem : (⟨some p, passWidth s.imgWidth.toNat p, passHeight s.imgHeight.toNat p⟩ : Image) ∈ s.images := by
    rw [images_interlaced h.il, List.mem_filter]
    refine ⟨List.mem_map.mpr ⟨p, List.mem_range.mpr hp, rfl⟩, ?_⟩
    simp only [Bool.and_eq_true, decide_eq_true_eq]
    exact ⟨by omega, by omega⟩
  obtain ⟨pre, rest, hsplit⟩ := List.append_of_mem hmem
  obtain ⟨e, he, e1, e2, e3⟩ := rowEntries_cover (fmt := s.imgFmt) (used := used) h.len n sc prior (hsc ▸ h.ok) hn.symm pre _ rest j
    (by rw [hsc]; exact hsplit) hj (fun _ => by rw [hsc]; exact Nat.zero_le _)
  have hpl : Placed s.images used (fun g => g.width * bppOf s.imgFmt) sc := by
    refine ⟨⟨[], ?_⟩, hsc ▸ h.ok⟩
    rw [hsc]; refine ⟨rfl, ?_, ?_⟩ <;> simp [Scan.start]
  obtain ⟨pl, _, hlen, hscat, _⟩ := rowEntries_placed h.len n sc prior hpl e he
  have hcc : rowCells s e.1 e.2.1 e.2.2 = scatterCells s.dstAddr.toNat s.imgWidth.toNat (bppOf s.imgFmt) p j e.2.2 := by
    unfold rowCells; rw [hscat, hsc, e2, e3]; rfl
  have hl : i * bppOf s.imgFmt + k < e.2.2.length := by
    rw [hlen, e2]
    simp only
    have : (i + 1) * bppOf s.imgFmt ≤ passWidth s.imgWidth.toNat p * bppOf s.imgFmt := Nat.mul_le_mul_right _ hi
    rw [Nat.add_mul] at this
    omega
  refine ⟨(s.dstAddr.toNat + gridOffset s.imgWidth.toNat (bppOf s.imgFmt) p j i + k, e.2.2.getD (i * bppOf s.imgFmt + k) 0#8), List.mem_flatMap.mpr ⟨e, he, ?_⟩, rfl⟩
  rw [hcc]
  exact mem_scatterCells_of hi hk hl

/-- What the grid holds after the rows are scattered, and that nothing else changes. -/
theorem Scattered.reads {s : State} {rowFn used es} (h : Scattered s rowFn used es) (hw : Memory.wf s.mem = true)
    (hd : s.dstAddr.toNat + s.gridBytes ≤ 0x100000000) :
    (∀ p j i k, p < 7 → j < passHeight s.imgHeight.toNat p → i < passWidth s.imgWidth.toNat p → k < bppOf s.imgFmt →
      Memory.read (Memory.writeAll s.mem (es.flatMap fun e => rowCells s e.1 e.2.1 e.2.2))
          (s.dstAddr.toNat + gridOffset s.imgWidth.toNat (bppOf s.imgFmt) p j i + k) =
        (entryBytes es).getD (passOffset s.imgWidth.toNat s.imgHeight.toNat (bppOf s.imgFmt) p +
            (j * passWidth s.imgWidth.toNat p + i) * bppOf s.imgFmt + k) 0#8) ∧
    (∀ a, OutsideOutput s s.gridBytes a → Memory.read (Memory.writeAll s.mem
        (es.flatMap fun e => rowCells s e.1 e.2.1 e.2.2)) a = Memory.read s.mem a) := by
  have hb : ∀ c ∈ (es.flatMap fun e => rowCells s e.1 e.2.1 e.2.2), s.dstAddr.toNat ≤ c.1 ∧ c.1 < s.dstAddr.toNat + s.gridBytes := by
    intro c hc
    obtain ⟨p, j, i, k, hp, hj, hi, hk, h1, _⟩ := Scattered.cell h c hc
    have := gridOffset_lt hj hi hk
    have hg : s.gridBytes = s.imgWidth.toNat * s.imgHeight.toNat * bppOf s.imgFmt := rfl
    omega
  refine ⟨fun p j i k hp hj hi hk => ?_, fun a ha => ?_⟩
  · refine read_writeAll_of hw (fun c hc => by have := hb c hc; omega) (Scattered.mem h hp hj hi hk) fun c hc hx => ?_
    obtain ⟨p', j', i', k', hp', hj', hi', hk', h1, h2⟩ := Scattered.cell h c hc
    rw [h1] at hx
    obtain ⟨rfl, rfl, rfl, rfl⟩ := gridOffset_inj (w := s.imgWidth.toNat) (h := s.imgHeight.toNat) hp' hp hj' hj hi' hi hk' hk (by omega)
    exact h2
  · refine Memory.read_writeAll_of_not_mem fun c hc hx => ha ?_
    have := hb c hc
    omega

theorem scattered_filterEntries {s : State} (hc : s.checkReconstruction .reconstruct = none)
    (hi : interlace s.imgFmt = 1) :
    Scattered s (filteredRow s.imgFmt (srcByte s)) (filterUsed s.imgFmt) (filterEntries s .reconstruct true) := by
  have f := check_facts hc
  have hn : s.needOut .reconstruct = s.gridBytes := by simp [State.needOut, hi]
  refine ⟨⟨_, _, _, by unfold filterEntries; rw [hn], rfl, rfl⟩, fun sc g p => ?_, hi, scanOk_start hc _ _⟩
  rw [filtRow_length, rowBytes_deep f.dLegal (f.depth (.inr ⟨rfl, hi⟩))]

theorem scattered_copyEntries {s : State} (hc : s.checkReconstruction .deinterlace = none) : Scattered s
    (copiedRow s.imgFmt (srcByte s)) (copyUsed s.imgFmt) (copyEntries s) := by
  have f := check_facts hc
  refine ⟨⟨_, _, _, rfl, rfl, rfl⟩, copiedRow_length _ _, f.deint rfl, scanOk_start hc _ _⟩

theorem copied_bytes (n : Nat) : ∀ (fmt : Word) (rd : Nat → Byte) (sc : Scan) (prior : List Byte), ScanOk sc →
    sc.rowsLeft = n →
    entryBytes (rowEntries fmt (copiedRow fmt rd) (copyUsed fmt) n sc prior) =
        (List.range (bytesLeft (copyUsed fmt) sc)).map fun i => rd (sc.inOff + i) := by
  induction n with
  | zero =>
    intro fmt rd sc prior ho h0
    simp [rowEntries, entryBytes, bytesLeft, images_of_rowsLeft ho h0]
  | succ k ih =>
    intro fmt rd sc prior ho hn
    cases hi : sc.images with
    | nil => rw [rowsLeft_of_nil hi] at hn; omega
    | cons g rest =>
      have hlen : (copiedRow fmt rd sc g prior).length = copyUsed fmt g := copiedRow_length _ _ _ _ _
      rw [rowEntries_succ hi, hlen]
      have h1 := leftOf_next (copyUsed fmt) ho hi (copyUsed fmt g) (copyUsed fmt g)
      have h2 := rowsLeft_next ho (by rw [hi]; simp) (copyUsed fmt g) (copyUsed fmt g)
      have h3 := ih fmt rd (sc.next (copyUsed fmt g) (copyUsed fmt g)) (if (sc.next (copyUsed fmt g) (copyUsed fmt g)).row = 0 then
          freshPrior fmt (sc.next (copyUsed fmt g) (copyUsed fmt g)).images else copiedRow fmt rd sc g prior) (ho.next _ _) (by omega)
      unfold entryBytes at h3 ⊢
      rw [List.flatMap_cons, h3, ← h1, (next_offs hi _ _).1, Nat.add_comm (bytesLeft _ _), List.range_add, List.map_append, List.map_map]
      refine congrArg₂ _ rfl ?_
      refine List.map_congr_left fun i _ => ?_
      simp only [Function.comp]
      congr 1
      omega

theorem copyEntries_bytes {s : State} (hc : s.checkReconstruction .deinterlace = none) : entryBytes (copyEntries s) =
    s.engineBytes s.srcAddr.toNat s.needUnf := by
  have f := check_facts hc
  unfold copyEntries
  rw [copied_bytes _ _ _ _ _ (scanOk_start hc _ _) rfl]
  have := copyNeed_eq f.dLegal (f.depth (.inl rfl)) (s.needOut .deinterlace) true
  unfold copyUsed
  rw [this, engineBytes_eq]
  simp [Scan.start]

end Sys2Proof.Machine
end

