-- ==== Sys2Proof/Laws/Outcomes.lean ====
section
/-! SUPPORT. What a reconstruction command did, read back from how it ended. -/

namespace Sys2Proof.Machine

open Sys2Proof

/-- An iteration that hands on read a legal filter-type byte. -/
theorem rowStep_ok_legal {s t : State} {sc : Scan} (hs : s.scratch.scan = some sc) (h : rowStep s = .ok t) :
    s.reachable (s.srcAddr.toNat + sc.inOff) = true ∧ (s.engineByte (s.srcAddr.toNat + sc.inOff)).toNat < 5 := by
  unfold rowStep at h
  rcases rowHead_cases s with ⟨r, h'⟩ | ⟨sc', g, rest, hs', hi, hr, ⟨j, hd, h'⟩ | ⟨ft, hd, h'⟩⟩
  · rw [h'] at h; cases h
  · rw [hs] at hs'; obtain rfl := Option.some.inj hs'
    refine ⟨hr, ?_⟩
    by_contra hb
    unfold decodeFilter at hd
    split at hd <;> first | omega | cases hd
  · rw [h'] at h; cases h

/-- Everything the row loop did when it did not raise. -/
theorem runRows_ok_eq (n : Nat) : ∀ (s0 s : State) (sc : Scan) (inMax m : Nat) (rd : Nat → Byte) (t : State),
    RowLoop s0 (filterUsed s0.imgFmt) (filterGives s0.imgFmt) inMax m s sc → n ≤ sc.rowsLeft →
    (∀ k x, k < inMax → s0.dstAddr.toNat ≤ x → x < s0.dstAddr.toNat + m → x ≠ s0.srcAddr.toNat + k) →
    (∀ k, k < inMax → s.engineByte (s0.srcAddr.toNat + k) = rd k) →
    runRows n s = .ok t →
    t = { s with scratch := t.scratch, mem := Memory.writeAll s.mem ((rowEntries s0.imgFmt (filteredRow s0.imgFmt rd) (filterUsed s0.imgFmt) n sc s.scratch.prior).flatMap fun e => rowCells s0 e.1 e.2.1 e.2.2) } := by
  induction n with
  | zero => intro s0 s sc im m rd t l _ _ _ h; cases h; rfl
  | succ k ih =>
    intro s0 s sc im m rd t l hn hap hbytes h
    have hne : sc.images ≠ [] := fun hi => by rw [rowsLeft_of_nil hi] at hn; omega
    obtain ⟨g, rest, hi⟩ : ∃ g rest, sc.images = g :: rest := by
      cases h : sc.images with
      | nil => exact absurd h hne
      | cons g r => exact ⟨g, r, rfl⟩
    have lin := leftOf_next (filterUsed s0.imgFmt) l.ok hi (filterUsed s0.imgFmt g) (filterGives s0.imgFmt g)
    have lout := leftOf_next (filterGives s0.imgFmt) l.ok hi (filterUsed s0.imgFmt g) (filterGives s0.imgFmt g)
    have hin := l.inB
    have hu : filterUsed s0.imgFmt g = 1 + rowBytes s0.imgFmt g.width := rfl
    have hfmt : s.imgFmt = s0.imgFmt := l.keep.ops.imgFmt
    have hsrc : s.srcAddr = s0.srcAddr := l.keep.ops.srcAddr
    have hft : s.engineByte (s.srcAddr.toNat + sc.inOff) = rd sc.inOff := by rw [hsrc]; exact hbytes _ (by omega)
    rw [runRows_succ] at h
    rw [rowEntries_succ hi]
    have hraw : s.engineBytes (s.srcAddr.toNat + sc.inOff + 1) (rowBytes s.imgFmt g.width) =
        (List.range (rowBytes s0.imgFmt g.width)).map fun i => rd (sc.inOff + 1 + i) := by
      unfold State.engineBytes
      rw [hfmt, hsrc]
      refine List.map_congr_left fun i hi => ?_
      rw [List.mem_range] at hi
      rw [← hbytes _ (by omega : sc.inOff + 1 + i < im)]
      congr 1; omega
    have hb : ∀ row : List Byte, row.length = filterGives s0.imgFmt g → ∀ c ∈ rowCells s0 sc g row, s0.dstAddr.toNat ≤ c.1 ∧ c.1 < s0.dstAddr.toNat + m := by
      intro row hl
      exact rowCells_bound (n := m) (H := s0.imgHeight.toNat) l.ok hi l.imgs l.grid (fun hs => by have := l.outB hs; omega)
    have hrow := filtRow_length s0.imgFmt rd sc g s.scratch.prior
    have heq : reconRow (predictorOf (rd sc.inOff)) (bppOf s.imgFmt) s.scratch.prior []
            (s.engineBytes (s.srcAddr.toNat + sc.inOff + 1) (rowBytes s.imgFmt g.width)) = filteredRow s0.imgFmt rd sc g s.scratch.prior := by
      rw [hraw, hfmt]; rfl
    cases hst : rowStep s with
    | raised e u => rw [hst] at h; cases h
    | refused r => rw [hst] at h; cases h
    | ok T =>
      obtain ⟨hr1, hlt⟩ := rowStep_ok_legal l.scan hst
      have hst' := hst
      rw [predictor_step l.scan hi hr1 hlt, hft] at hst'
      rcases filterRow_cases (predictorOf (rd sc.inOff)) s with ⟨r, h'⟩ | ⟨sc', g', rest', row, hs', hi', hr2, hrw, hcell, h'⟩
      · rw [h'] at hst'; cases hst'
      rw [l.scan] at hs'; obtain rfl := Option.some.inj hs'
      rw [hi] at hi'
      obtain ⟨rfl, rfl⟩ := List.cons.inj hi'
      rw [heq] at hrw
      subst hrw
      rw [h'] at hst'
      have hT := (Run.ok.inj hst').symm
      rw [rowCells_congr l.keep.ops] at hcell hT
      have : (1 + rowBytes s.imgFmt g.width) = filterUsed s0.imgFmt g := by rw [hfmt]; rfl
      rw [this] at hT
      rw [hst, Run.andThen_ok] at h
      clear hst h' hst' heq hraw
      generalize filteredRow s0.imgFmt rd sc g s.scratch.prior = row at *
      have ho := next_offs hi (filterUsed s0.imgFmt g) row.length
      have hrow' : row.length = filterGives s0.imgFmt g := hrow
      have hTp : T.scratch.prior = (if (sc.next (filterUsed s0.imgFmt g) row.length).row = 0 then
          freshPrior s0.imgFmt (sc.next (filterUsed s0.imgFmt g) row.length).images else row) := by
        rw [hT, ← hfmt]; rfl
      have hTs : T = { s with scratch := T.scratch, mem := Memory.writeAll s.mem (rowCells s0 sc g row) } := by rw [hT]; rfl
      have key := ih s0 T (sc.next (filterUsed s0.imgFmt g) row.length) im m rd t
        ⟨by rw [hT]; rfl, l.ok.next _ _, l.keep.trans (by rw [hT]; exact mid_filter_state hcell), l.imgs.next _ _,
          by rw [ho.1, hrow']; omega, by rw [ho.2, Scan.next_scatter, hrow']; intro hs; have := l.outB hs; omega,
          by rw [Scan.next_scatter]; exact l.grid⟩
        (by have := rowsLeft_next l.ok hne (filterUsed s0.imgFmt g) row.length; omega) hap
        (by
          intro k hk
          rw [hTs]
          have := engineByte_write (s := s) (cells := rowCells s0 sc g row) (a := s0.srcAddr.toNat + k) (fun c hc => by
            have := hb _ hrow' c hc
            exact hap k c.1 hk this.1 this.2)
          rw [← hbytes k hk, ← this]
          rfl) h
      rw [hTp] at key
      rw [List.flatMap_cons, Memory.writeAll_append]
      conv_lhs => rw [key]
      conv_lhs => rw [hTs]

/-- UNFILTER or RECONSTRUCT that ends without error passed its checks and ran its row loop. -/
theorem rows_next_ok {s t : State} {i : Instr} {b : Bool} (hi : (i = .unfilter ∧ b = false) ∨
    (i = .reconstruct ∧ b = decide (interlace s.imgFmt ≠ 0)))
    (h : ((startRows i b s).andThen fun s1 => runRows s1.rowsLeft s1).close = .next t) (hok : t.code = .ok) :
    s.checkReconstruction i = none ∧ RanRows s i b (filterEntries s i b) t := by
  rcases Run.close_eq_next h with ⟨u, hu, h2⟩ | ⟨e, u, hu, h2⟩
  · rcases startRows_cases i b s with ⟨e, _, h'⟩ | ⟨hc, h'⟩
    · rw [h'] at hu; cases hu
    · refine ⟨hc, ?_⟩
      have f := check_facts hc
      have hne : i ≠ .deinterlace := by rcases hi with ⟨rfl, _⟩ | ⟨rfl, _⟩ <;> simp
      have hns : s.needIn ≤ s.srcLen.toNat := by have := f.needSrc; simpa [State.needSrc, hne] using this
      have l := loop_start hi hc
      rw [h', Run.andThen_ok] at hu
      generalize hv : ({ s with scratch := { s.scratch with
            prior := freshPrior s.imgFmt s.images
            scan := some (Scan.start s.images (s.needOut i) b) } } : State) = v at *
      have hrl : v.rowsLeft = (Scan.start s.images (s.needOut i) b).rowsLeft := by unfold State.rowsLeft; rw [l.scan]
      rw [hrl] at hu
      have hup : v.scratch.prior = freshPrior s.imgFmt s.images := by rw [← hv]
      have key := runRows_ok_eq _ s v _ _ _ (srcByte s) u l le_rfl (CheckFacts.apart_src_dst f hns f.needOut) (fun k _ => by rw [← hv]; rfl) hu
      obtain ⟨sc', a, b', c, d⟩ := runRows_counters _ v _ l.scan l.ok le_rfl u hu
      have hnil := images_of_rowsLeft b' (by omega)
      refine ⟨u, h, ?_, ?_⟩
      · rw [h2]
        rcases closeRows_cases u with ⟨sc2, e1, e2, h'⟩ | ⟨hh, _⟩
        · rw [h']
          rw [a] at e1; obtain rfl := Option.some.inj e1
          rw [d]; rfl
        · exact absurd hnil (hh _ a)
      · rw [hup] at key
        conv_lhs => rw [key]
        rw [← hv]
        rfl
  · have hm := (mid_startRows i b s).andThen (k := fun s1 => runRows s1.rowsLeft s1) fun u => mid_runRows _ _
    rw [hu] at hm
    rw [h2] at hok
    exact absurd hok hm.2

/-- Everything the copy loop did when it did not refuse. -/
theorem copyRows_ok_eq (n : Nat) : ∀ (s0 s : State) (sc : Scan) (inMax m : Nat) (rd : Nat → Byte) (prior : List Byte)
    (t : State),
    RowLoop s0 (copyUsed s0.imgFmt) (copyUsed s0.imgFmt) inMax m s sc → n ≤ sc.rowsLeft →
    (∀ k x, k < inMax → s0.dstAddr.toNat ≤ x → x < s0.dstAddr.toNat + m → x ≠ s0.srcAddr.toNat + k) →
    (∀ k, k < inMax → s.engineByte (s0.srcAddr.toNat + k) = rd k) →
    copyRows n s = .ok t →
    t = { s with scratch := t.scratch, mem := Memory.writeAll s.mem ((rowEntries s0.imgFmt (copiedRow s0.imgFmt rd) (copyUsed s0.imgFmt) n sc prior).flatMap fun e => rowCells s0 e.1 e.2.1 e.2.2) } := by
  induction n with
  | zero => intro s0 s sc im m rd prior t l _ _ _ h; cases h; rfl
  | succ k ih =>
    intro s0 s sc im m rd prior t l hn hap hbytes h
    have hne : sc.images ≠ [] := fun hi => by rw [rowsLeft_of_nil hi] at hn; omega
    obtain ⟨g, rest, hi⟩ : ∃ g rest, sc.images = g :: rest := by
      cases h : sc.images with
      | nil => exact absurd h hne
      | cons g r => exact ⟨g, r, rfl⟩
    have lin := leftOf_next (copyUsed s0.imgFmt) l.ok hi (copyUsed s0.imgFmt g) (copyUsed s0.imgFmt g)
    have hin := l.inB
    have hu : copyUsed s0.imgFmt g = g.width * bppOf s0.imgFmt := rfl
    have hfmt : s.imgFmt = s0.imgFmt := l.keep.ops.imgFmt
    have hsrc : s.srcAddr = s0.srcAddr := l.keep.ops.srcAddr
    rw [copyRows_succ] at h
    rw [rowEntries_succ hi]
    have heq : s.engineBytes (s.srcAddr.toNat + sc.inOff) (g.width * bppOf s.imgFmt) = copiedRow s0.imgFmt rd sc g prior := by
      unfold State.engineBytes copiedRow
      rw [hfmt, hsrc]
      refine List.map_congr_left fun i hi => ?_
      rw [List.mem_range] at hi
      rw [← hbytes _ (by omega : sc.inOff + i < im)]
      congr 1; omega
    have hb : ∀ row : List Byte, row.length = copyUsed s0.imgFmt g → ∀ c ∈ rowCells s0 sc g row, s0.dstAddr.toNat ≤ c.1 ∧ c.1 < s0.dstAddr.toNat + m := by
      intro row hl
      exact rowCells_bound (n := m) (H := s0.imgHeight.toNat) l.ok hi l.imgs l.grid (fun hs => by have := l.outB hs; omega)
    have hrow := copiedRow_length s0.imgFmt rd sc g prior
    rcases copyRow_cases s with ⟨r, h'⟩ | ⟨sc', g', rest', row, hs', hi', hr2, hrw, hcell, h'⟩
    · rw [h'] at h; cases h
    rw [l.scan] at hs'; obtain rfl := Option.some.inj hs'
    rw [hi] at hi'
    obtain ⟨rfl, rfl⟩ := List.cons.inj hi'
    rw [heq] at hrw
    subst hrw
    rw [h', Run.andThen_ok] at h
    clear h' heq
    rw [rowCells_congr l.keep.ops] at hcell h
    have hw' : g.width * bppOf s.imgFmt = copyUsed s0.imgFmt g := by rw [hfmt]; rfl
    rw [hw'] at h
    generalize copiedRow s0.imgFmt rd sc g prior = row at *
    have hrow' : row.length = copyUsed s0.imgFmt g := hrow
    rw [hrow']
    have ho := next_offs hi (copyUsed s0.imgFmt g) (copyUsed s0.imgFmt g)
    generalize hT' : (({ s with mem := Memory.writeAll s.mem (rowCells s0 sc g row) } : State).withScan (sc.next (copyUsed s0.imgFmt g) (copyUsed s0.imgFmt g))) = T
    have hT := hT'.symm
    have hTs : T = { s with scratch := T.scratch, mem := Memory.writeAll s.mem (rowCells s0 sc g row) } := by rw [hT]; rfl
    have h2 : copyRows k T = .ok t := by rw [hT]; exact h
    have key := ih s0 T (sc.next (copyUsed s0.imgFmt g) (copyUsed s0.imgFmt g)) im m rd
        (if (sc.next (copyUsed s0.imgFmt g) (copyUsed s0.imgFmt g)).row = 0 then freshPrior s0.imgFmt (sc.next (copyUsed s0.imgFmt g) (copyUsed s0.imgFmt g)).images else row) t
        ⟨by rw [hT]; rfl, l.ok.next _ _, l.keep.trans (by
            rw [hT]
            refine ⟨by constructor <;> rfl, rfl, rfl, rfl, rfl, rfl, rfl, rfl, fun _ h => h, fun hw => ?_, id⟩
            exact Memory.writeAll_wf hw fun c hx => reachable_lt (hcell c hx)), l.imgs.next _ _,
          by rw [ho.1]; omega, by rw [ho.2, Scan.next_scatter]; intro hs; have := l.outB hs; omega,
          by rw [Scan.next_scatter]; exact l.grid⟩
        (by have := rowsLeft_next l.ok hne (copyUsed s0.imgFmt g) (copyUsed s0.imgFmt g); omega) hap
        (by
          intro k hk
          rw [hTs]
          have := engineByte_write (s := s) (cells := rowCells s0 sc g row) (a := s0.srcAddr.toNat + k) (fun c hc => by
            have := hb _ hrow' c hc
            exact hap k c.1 hk this.1 this.2)
          rw [← hbytes k hk, ← this]
          rfl) h2
    rw [List.flatMap_cons, Memory.writeAll_append]
    conv_lhs => rw [key]
    conv_lhs => rw [hTs]

/-- DEINTERLACE that ends without error passed its checks and ran its loop. -/
theorem copy_next_ok {s t : State} (h : execDeinterlace s = .next t) (hok : t.code = .ok) :
    s.checkReconstruction .deinterlace = none ∧
    ∃ u : State, t = u.completeOutput (s.needOut .deinterlace) ∧
      u = { s with scratch := u.scratch, mem := Memory.writeAll s.mem ((copyEntries s).flatMap fun e => rowCells s e.1 e.2.1 e.2.2) } := by
  unfold execDeinterlace at h
  rcases Run.close_eq_next h with ⟨u, hu, h2⟩ | ⟨e, u, hu, h2⟩
  · cases hc : s.checkReconstruction .deinterlace with
    | some e => unfold startDeinterlace at hu; rw [hc] at hu; cases hu
    | none =>
      refine ⟨rfl, ?_⟩
      have f := check_facts hc
      have hns : s.needUnf ≤ s.srcLen.toNat := by have := f.needSrc; simpa [State.needSrc] using this
      have l := loop_start_copy hc
      have hst : startDeinterlace s = .ok (s.withScan (Scan.start s.images (s.needOut .deinterlace) true)) := by
        unfold startDeinterlace; rw [hc]
      rw [hst, Run.andThen_ok] at hu
      generalize hv : s.withScan (Scan.start s.images (s.needOut .deinterlace) true) = v at *
      have hrl : v.rowsLeft = (Scan.start s.images (s.needOut .deinterlace) true).rowsLeft := by unfold State.rowsLeft; rw [l.scan]
      rw [hrl] at hu
      have key := copyRows_ok_eq _ s v _ _ _ (srcByte s) [] u l le_rfl (CheckFacts.apart_src_dst f hns f.needOut) (fun k _ => by rw [← hv]; rfl) hu
      obtain ⟨sc', a, b', c, d⟩ := copyRows_counters _ v _ l.scan l.ok le_rfl u hu
      have hnil := images_of_rowsLeft b' (by omega)
      refine ⟨u, ?_, ?_⟩
      · rw [h2]
        rcases closeRows_cases u with ⟨sc2, e1, e2, h'⟩ | ⟨hh, _⟩
        · rw [h']
          rw [a] at e1; obtain rfl := Option.some.inj e1
          rw [d]; rfl
        · exact absurd hnil (hh _ a)
      · conv_lhs => rw [key]
        rw [← hv]
        rfl
  · have hm := (mid_startDeinterlace s).andThen (k := fun s1 => copyRows s1.rowsLeft s1) fun u => mid_copyRows _ _
    rw [hu] at hm
    rw [h2] at hok
    exact absurd hok hm.2

/-- A row loop that raises ends with UNSUPPORTED_FILTER and has changed no byte outside the DST range. -/
theorem runRows_raised (n : Nat) : ∀ (s0 s : State) (sc : Scan) (inMax m : Nat) (e : Error) (t : State),
    RowLoop s0 (filterUsed s0.imgFmt) (filterGives s0.imgFmt) inMax m s sc → n ≤ sc.rowsLeft → m ≤ s0.dstLen.toNat →
    runRows n s = .raised e t → e.code = .unsupportedFilter ∧ KeepsChunkRegs s t ∧
      t.hostBuf = postedOutside s0.dstAddr.toNat s0.dstLen.toNat s.hostBuf ∧
      ∀ a, OutsideDst s0 a → Memory.read t.mem a = Memory.read s.mem a := by
  induction n with
  | zero => intro s0 s sc im m e t l _ _ h; cases h
  | succ k ih =>
    intro s0 s sc im m e t l hn hm h
    have hne : sc.images ≠ [] := fun hi => by rw [rowsLeft_of_nil hi] at hn; omega
    obtain ⟨g, rest, hi⟩ : ∃ g rest, sc.images = g :: rest := by
      cases h : sc.images with
      | nil => exact absurd h hne
      | cons g r => exact ⟨g, r, rfl⟩
    have lin := leftOf_next (filterUsed s0.imgFmt) l.ok hi (filterUsed s0.imgFmt g) (filterGives s0.imgFmt g)
    have lout := leftOf_next (filterGives s0.imgFmt) l.ok hi (filterUsed s0.imgFmt g) (filterGives s0.imgFmt g)
    have hin := l.inB
    have hu : filterUsed s0.imgFmt g = 1 + rowBytes s0.imgFmt g.width := rfl
    have ho' : filterGives s0.imgFmt g = rowBytes s0.imgFmt g.width := rfl
    have hfmt : s.imgFmt = s0.imgFmt := l.keep.ops.imgFmt
    rw [runRows_succ] at h
    rcases rowStep_cases s with ⟨r, h'⟩ | ⟨sc1, g1, rest1, ft, _, _, _, h'⟩ | ⟨j, p, _, _, h'⟩
    · rw [h'] at h; cases h
    · rw [h'] at h
      simp only [unsupportedFilter, Run.andThen_raised] at h
      cases h
      refine ⟨rfl, by constructor <;> rfl, by rw [State.drawDst_hostBuf, l.keep.ops.dstAddr, l.keep.ops.dstLen],
        fun a ha => drawDst_read_outside ?_⟩
      unfold OutsideDst; rw [l.keep.ops.dstAddr, l.keep.ops.dstLen]; exact ha
    · rw [h'] at h
      rcases filterRow_cases p s with ⟨r, h2⟩ | ⟨sc', g', rest', row, hs', hi', hr2, hrw, hcell, h2⟩
      · rw [h2] at h; cases h
      rw [l.scan] at hs'; obtain rfl := Option.some.inj hs'
      rw [hi] at hi'
      obtain ⟨rfl, rfl⟩ := List.cons.inj hi'
      rw [h2, Run.andThen_ok] at h
      have hl : row.length = filterGives s0.imgFmt g := by rw [hrw, reconRow_length, engineBytes_length, hfmt, ho']; simp
      clear hrw h2 h'
      have hb : ∀ c ∈ rowCells s sc g row, s0.dstAddr.toNat ≤ c.1 ∧ c.1 < s0.dstAddr.toNat + m := by
        rw [rowCells_congr l.keep.ops]
        exact rowCells_bound (n := m) (H := s0.imgHeight.toNat) l.ok hi l.imgs l.grid (fun hs => by have := l.outB hs; omega)
      have ho := next_offs hi (1 + rowBytes s.imgFmt g.width) row.length
      obtain ⟨h1, h2, h4, h3⟩ := ih s0 _ (sc.next (1 + rowBytes s.imgFmt g.width) row.length) im m e t
        ⟨rfl, l.ok.next _ _, l.keep.trans (mid_filter_state hcell), l.imgs.next _ _,
          by
            rw [ho.1, hl, hfmt]; rw [hu] at lin; omega,
          by rw [ho.2, Scan.next_scatter, hl, hfmt]; rw [hu] at lout; intro hs; have := l.outB hs; omega,
          by rw [Scan.next_scatter]; exact l.grid⟩
        (by have := rowsLeft_next l.ok hne (1 + rowBytes s.imgFmt g.width) row.length; omega) hm h
      refine ⟨h1, ?_, h4, fun a ha => ?_⟩
      · exact ⟨h2.1, h2.2, h2.3, h2.4, h2.5, h2.6, h2.7, h2.8⟩
      · rw [h3 a ha]
        refine Memory.read_writeAll_of_not_mem fun c hc => ?_
        rintro rfl
        have := hb c hc
        exact ha ⟨this.1, by omega⟩

/-- DEINTERLACE raises nothing after its checks. -/
theorem copyRows_not_raised (n : Nat) : ∀ (s : State) (e : Error) (t : State), copyRows n s ≠ .raised e t := by
  induction n with
  | zero => intro s e t h; cases h
  | succ k ih =>
    intro s e t h
    rw [copyRows_succ] at h
    rcases copyRow_cases s with ⟨r, h'⟩ | ⟨_, _, _, _, _, _, _, _, _, h'⟩ <;> rw [h'] at h
    · cases h
    · exact ih _ _ _ h

end Sys2Proof.Machine
end

