-- ==== Sys2Proof/Laws/PerInstr.lean ====
section
/-! SUPPORT. Per-instruction families: `Format`, the format of each instruction's code (spec/30_encoding.md R80, R84). -/

namespace Sys2Proof.Laws

open Sys2Proof

/-- An instruction's code is a CMD32 word whose MBZ field is zero, or a FILTER8 byte of the table. -/
def Format.Statement (i : Instr) : Prop :=
  (∃ w, encode i = .cmd32 w ∧ mbzField w = 0#28 ∧ (opField w).toNat < 8) ∨ ∃ b, encode i = .filter8 b ∧ b.toNat < 5

theorem Format.nop : Format.Statement .nop := .inl ⟨_, rfl, by decide, by decide⟩
theorem Format.sig : Format.Statement .sig := .inl ⟨_, rfl, by decide, by decide⟩
theorem Format.chunk : Format.Statement .chunk := .inl ⟨_, rfl, by decide, by decide⟩
theorem Format.walk : Format.Statement .walk := .inl ⟨_, rfl, by decide, by decide⟩
theorem Format.crc : Format.Statement .crc := .inl ⟨_, rfl, by decide, by decide⟩
theorem Format.unfilter : Format.Statement .unfilter := .inl ⟨_, rfl, by decide, by decide⟩
theorem Format.deinterlace : Format.Statement .deinterlace := .inl ⟨_, rfl, by decide, by decide⟩
theorem Format.reconstruct : Format.Statement .reconstruct := .inl ⟨_, rfl, by decide, by decide⟩
theorem Format.filterNone : Format.Statement .filterNone := .inr ⟨_, rfl, by decide⟩
theorem Format.filterSub : Format.Statement .filterSub := .inr ⟨_, rfl, by decide⟩
theorem Format.filterUp : Format.Statement .filterUp := .inr ⟨_, rfl, by decide⟩
theorem Format.filterAverage : Format.Statement .filterAverage := .inr ⟨_, rfl, by decide⟩
theorem Format.filterPaeth : Format.Statement .filterPaeth := .inr ⟨_, rfl, by decide⟩

end Sys2Proof.Laws
end

