-- ==== Sys2Proof/Laws/Walk.lean ====
section
/-! SUPPORT. The chunk validator over bytes that are there: a signature, a tag, a whole chunk, an encoded chunk. -/

namespace Sys2Proof.Machine

open Sys2Proof

theorem srcRangeCheck_ok {s : State} (h : s.srcAddr.toNat + s.srcLen.toNat ≤ 0x100000000) : srcRangeCheck s = .ok s
    := by
  unfold srcRangeCheck
  rw [if_pos (by simpa [State.srcRangeOk] using h)]

theorem srcRangeCheck_raised {s : State} (h : 0x100000000 < s.srcAddr.toNat + s.srcLen.toNat) : srcRangeCheck s =
    .raised (configError 9) s := by
  unfold srcRangeCheck
  rw [if_neg (by simpa [State.srcRangeOk] using h)]

@[simp] theorem word_toNat (w : Word) : word w.toNat = w := by unfold word; simp

theorem word_add (a : Word) (n : Nat) : word (a.toNat + n) = a + word n := by
  unfold word; apply BitVec.eq_of_toNat_eq; simp

theorem Reachable.sub {s : State} {a n b m : Nat} (h : Reachable s a n) (h1 : a ≤ b) (h2 : b + m ≤ a + n) : Reachable
    s b m := by
  intro i hi
  have := h (b - a + i) (by omega)
  rwa [show a + (b - a + i) = b + i by omega] at this

theorem engineBytes_take {s : State} {a n m : Nat} (h : m ≤ n) : s.engineBytes a m = (s.engineBytes a n).take m := by
  unfold State.engineBytes; rw [← List.map_take, List.take_range, min_eq_left h]

theorem engineBytes_drop_take {s : State} {a n k m : Nat} (h : k + m ≤ n) : s.engineBytes (a + k) m =
    ((s.engineBytes a n).drop k).take m := by
  unfold State.engineBytes
  refine List.ext_getElem (by simp; omega) ?_
  intro i h1 h2
  simp [Nat.add_assoc]

theorem engineBytes_add (s : State) (a m n : Nat) : s.engineBytes a (m + n) = s.engineBytes a m ++ s.engineBytes
    (a + m) n := by
  refine List.ext_getElem (by simp) ?_
  intro i h1 h2
  simp at h1
  by_cases c : i < m
  · rw [List.getElem_append_left (by simpa using c)]; simp [engineBytes_getElem]
  · rw [List.getElem_append_right (by simpa using c)]; simp [engineBytes_getElem]; congr 1; omega

/-- The first byte that differs. -/
theorem firstDiff_at (bs want : List Byte) : ∀ (k i : Nat), bs.length = want.length → i < bs.length →
    bs.getD i 0#8 ≠ want.getD i 0#8 → (∀ j, j < i → bs.getD j 0#8 = want.getD j 0#8) → firstDiff k bs want = some
        (k + i) := by
  induction bs generalizing want with
  | nil => intro k i _ h; simp at h
  | cons b bs ih =>
    intro k i hl hi hd hj
    cases want with
    | nil => simp at hl
    | cons w ws =>
      cases i with
      | zero => simp at hd; simp [firstDiff, hd]
      | succ i =>
        have h0 := hj 0 (by omega)
        simp at h0 hl hi hd
        simp only [firstDiff, h0, if_true]
        rw [ih ws (k+1) i hl hi hd (fun j h => by simpa using hj (j+1) (by omega))]
        congr 1; omega

/-- The first byte that is not ASCII. -/
theorem firstNA_at (bs : List Byte) : ∀ (k i : Nat), i < bs.length → ascii (bs.getD i 0#8) = false →
    (∀ j, j < i → ascii (bs.getD j 0#8) = true) → firstNonAscii k bs = some (k + i) := by
  induction bs with
  | nil => intro k i h; simp at h
  | cons b bs ih =>
    intro k i hi hd hj
    cases i with
    | zero => simp at hd; simp [firstNonAscii, hd]
    | succ i =>
      have h0 := hj 0 (by omega)
      simp at h0 hi hd
      simp only [firstNonAscii, h0, if_true]
      rw [ih (k+1) i hi (by simpa using hd) (fun j h => by simpa using hj (j+1) (by omega))]
      congr 1; omega

theorem readSrc_of_short {n : Nat} {s : State} (h : s.remaining < n) (k : List Byte → State → Run) :
    readSrc n s k = .raised ⟨.outOfBounds, word n, word s.remaining, word s.scratch.pos⟩ s := by
  unfold readSrc; rw [if_pos h]

/-- A chunk step as far as the tag. -/
theorem chunkStep_of_tag {s : State} (hrem : 8 ≤ s.remaining) (hr : Reachable s (s.srcAddr.toNat + s.scratch.pos) 8) :
    chunkStep s = chunkTag s.scratch.pos (s.engineBytes (s.srcAddr.toNat + s.scratch.pos) 4)
        (s.engineBytes (s.srcAddr.toNat + s.scratch.pos + 4) 4)
      (s.withPos (s.scratch.pos + 8)) := by
  unfold chunkStep
  rw [if_neg (by omega), readSrc_of_reachable (by omega) (Reachable.sub hr (by omega) (by omega))]
  rw [readSrc_of_reachable (by rw [withPos_remaining]; rw [remaining_eq] at hrem; omega)
    (by simp only [State.withPos_srcAddr, State.withPos_scratch]
        exact Reachable.sub (s := s) hr (by omega) (by omega))]
  simp only [State.withPos_srcAddr, State.withPos_scratch, withPos_withPos, withPos_engineBytes, ← Nat.add_assoc]

/-- A chunk step over a whole chunk records it and compares. -/
theorem chunkStep_of_whole {s : State} {lf tag data cf : List Byte} (hl : lf.length = 4) (ht : tag.length = 4)
    (hc : cf.length = 4)
    (hn : beNat lf = data.length) (ha : tag.all ascii = true) (hrem : 12 + data.length ≤ s.remaining)
    (hr : Reachable s (s.srcAddr.toNat + s.scratch.pos) (12 + data.length))
    (hb : s.engineBytes (s.srcAddr.toNat + s.scratch.pos) (12 + data.length) = lf ++ tag ++ data ++ cf) :
    chunkStep s = compareCrc s.scratch.pos (chunkRecorded s lf tag data cf) := by
  have g1 : s.engineBytes (s.srcAddr.toNat + s.scratch.pos) 4 = lf := by
    rw [engineBytes_take (n := 12 + data.length) (by omega), hb]; simp [hl]
  have g2 : s.engineBytes (s.srcAddr.toNat + s.scratch.pos + 4) 4 = tag := by
    rw [engineBytes_drop_take (n := 12 + data.length) (by omega), hb]; simp [hl, ht]
  have g3 : s.engineBytes (s.srcAddr.toNat + s.scratch.pos + 8) data.length = data := by
    rw [engineBytes_drop_take (n := 12 + data.length) (by omega), hb]
    rw [List.append_assoc, List.append_assoc, ← List.append_assoc lf, List.drop_left' (by simp [hl, ht])]
    simp
  have g4 : s.engineBytes (s.srcAddr.toNat + s.scratch.pos + (8 + data.length)) 4 = cf := by
    rw [engineBytes_drop_take (n := 12 + data.length) (by omega), hb]
    rw [List.drop_left' (by simp [hl, ht]; omega)]
    simp [hc]
  unfold chunkStep
  rw [if_neg (by omega), readSrc_of_reachable (by omega) (Reachable.sub hr (by omega) (by omega)), g1]
  rw [readSrc_of_reachable (by rw [withPos_remaining]; rw [remaining_eq] at hrem; omega)
    (by simp only [State.withPos_srcAddr, State.withPos_scratch]
        exact Reachable.sub (s := s) hr (by omega) (by omega))]
  simp only [State.withPos_srcAddr, State.withPos_scratch, withPos_withPos, withPos_engineBytes, ← Nat.add_assoc]
  rw [g2]
  unfold chunkTag
  rw [firstNonAscii_eq_none.mpr ha]
  simp only
  rw [if_pos (by rw [withPos_remaining]; rw [remaining_eq] at hrem; omega)]
  unfold chunkBody
  rw [hn, readSrc_of_reachable (by rw [withPos_remaining]; rw [remaining_eq] at hrem; omega)
    (by simp only [State.withPos_srcAddr, State.withPos_scratch]
        exact Reachable.sub (s := s) hr (by omega) (by omega))]
  simp only [State.withPos_srcAddr, State.withPos_scratch, withPos_withPos, withPos_engineBytes]
  rw [show s.srcAddr.toNat + (s.scratch.pos + 4 + 4) = s.srcAddr.toNat + s.scratch.pos + 8 by omega, g3]
  rw [readSrc_of_reachable (by rw [withPos_remaining]; rw [remaining_eq] at hrem; omega)
    (by simp only [State.withPos_srcAddr, State.withPos_scratch]
        exact Reachable.sub (s := s) hr (by omega) (by omega))]
  simp only [State.withPos_srcAddr, State.withPos_scratch, withPos_withPos, withPos_engineBytes]
  rw [show s.srcAddr.toNat + (s.scratch.pos + 4 + 4 + data.length) = s.srcAddr.toNat + s.scratch.pos + (8 + data.length) by omega, g4]
  unfold chunkRecorded
  rw [hn, show s.scratch.pos + 12 + data.length = s.scratch.pos + 4 + 4 + data.length + 4 by omega]

theorem be32_word {l : List Byte} : be32 l = word (beNat l) := rfl

theorem beBytes_length (n : Nat) : (beBytes n).length = 4 := by simp [beBytes]

theorem beNat_beBytes {n : Nat} (h : n < 0x100000000) : beNat (beBytes n) = n := by
  simp [beBytes, beNat]; omega

theorem be32_beBytes (w : Word) : be32 (beBytes w.toNat) = w := by
  rw [be32_word, beNat_beBytes w.isLt, word_toNat]

theorem ChunkText.ok_facts {c : ChunkText} (h : c.ok = true) : c.tag.length = 4 ∧ c.tag.all ascii = true ∧
    c.data.length < 0x100000000 := by
  simpa [ChunkText.ok, and_assoc] using h

theorem ChunkText.bytes_length {c : ChunkText} (h : c.ok = true) : c.bytes.length = 12 + c.data.length := by
  simp [ChunkText.bytes, beBytes_length, (ChunkText.ok_facts h).1]; omega

/-- A chunk step over an encoded chunk records it. -/
theorem chunkStep_of_text {s : State} {c : ChunkText} (h : c.ok = true) (hrem : 12 + c.data.length ≤ s.remaining)
    (hr : Reachable s (s.srcAddr.toNat + s.scratch.pos) (12 + c.data.length))
    (hb : s.engineBytes (s.srcAddr.toNat + s.scratch.pos) (12 + c.data.length) = c.bytes) (hp : c.passesCrc s.ctrl) :
    chunkStep s = .ok (chunkRecorded s (beBytes c.data.length) c.tag c.data (beBytes c.crc.toNat)) := by
  have f := ChunkText.ok_facts h
  rw [chunkStep_of_whole (beBytes_length _) f.1 (beBytes_length _) (beNat_beBytes f.2.2) f.2.1 hrem hr hb]
  unfold compareCrc
  rw [if_neg]
  rintro ⟨h1, h2⟩
  refine h2 ?_
  show be32 _ = crc32 _
  rw [be32_beBytes]
  exact hp h1

theorem chunkRecorded_ihdrFirstEn (s : State) (a b c d : List Byte) : (chunkRecorded s a b c d).ihdrFirstEn =
    s.ihdrFirstEn := rfl

theorem chunkRecorded_chkType (s : State) (a b c d : List Byte) : (chunkRecorded s a b c d).chkType = be32 b := rfl

theorem chunkRecorded_chkDataOff (s : State) (a b c d : List Byte) : (chunkRecorded s a b c d).chkDataOff = word
    (s.scratch.pos + 8) := rfl

/-- The bytes of a list of chunks are at least 12 for each. -/
theorem length_flatMap_bytes {l : List ChunkText} (h : ∀ c ∈ l, c.ok = true) :
    12 * l.length ≤ (l.flatMap ChunkText.bytes).length := by
  induction l with
  | nil => simp
  | cons a l ih =>
    have := ih fun c hc => h c (List.mem_cons_of_mem _ hc)
    rw [List.flatMap_cons, List.length_append, ChunkText.bytes_length (h a List.mem_cons_self), List.length_cons]
    omega

/-- A read of SRC does not see the CRC accumulator. -/
theorem readSrc_crcAcc {n : Nat} {s : State} {c : Word} {k k' : List Byte → State → Run}
    (h : ∀ bs p, (k bs ((s.withPos p).withCrcAcc c)).finish = (k' bs (s.withPos p)).finish) :
    (readSrc n (s.withCrcAcc c) k).finish = (readSrc n s k').finish := by
  unfold readSrc memRead
  show (if s.remaining < n then _
    else match firstBlocked s.params s.memErrors (s.srcAddr.toNat + s.scratch.pos) n with
      | some r => _
      | none => _ : Run).finish = _
  split
  · rfl
  · generalize firstBlocked s.params s.memErrors (s.srcAddr.toNat + s.scratch.pos) n = o
    cases o
    · exact h _ _
    · rfl

/-- How a chunk step ends a command does not depend on the CRC accumulator an earlier chunk left. -/
theorem chunkStep_crcAcc (s : State) (c : Word) : (chunkStep (s.withCrcAcc c)).finish = (chunkStep s).finish := by
  unfold chunkStep
  show (if s.remaining = 0 then _ else _ : Run).finish = _
  split
  · rfl
  refine readSrc_crcAcc fun lenField p => readSrc_crcAcc fun t q => ?_
  unfold chunkTag
  split
  · rfl
  · show (if beNat lenField < ((s.withPos p).withPos q).remaining then _ else _ : Run).finish = _
    split
    · unfold chunkBody
      exact readSrc_crcAcc fun _ _ => readSrc_crcAcc fun _ _ => rfl
    · rfl

/-- Two bounds that are large enough give the same walk (R121). -/
theorem walkLoop_fuel (a : Nat) : ∀ (b : Nat) (s : State) (first : Bool), s.remaining / 12 < a → s.remaining / 12 < b
    → walkLoop a first s = walkLoop b first s := by
  induction a with
  | zero => intro b s f h; omega
  | succ a ih =>
    intro b s first ha hb
    obtain ⟨b, rfl⟩ : ∃ c, b = c + 1 := ⟨b - 1, by omega⟩
    rw [walkLoop_succ, walkLoop_succ]
    rcases chunkStep_cases s with ⟨e, m, h, _⟩ | ⟨r, h⟩ | ⟨lf, t, d, cf, _, _, _, _, _, hr, _, h⟩
    · rw [h]; rfl
    · rw [h]; rfl
    · rw [h]
      rcases compareCrc_cases s.scratch.pos (chunkRecorded s lf t d cf) with ⟨_, h'⟩ | ⟨_, _, h'⟩
      · rw [h', Run.andThen_ok, Run.andThen_ok]
        have hrem : (chunkRecorded s lf t d cf).remaining = s.srcLen.toNat - (s.scratch.pos + 12 + beNat lf) := rfl
        rw [remaining_eq] at *
        generalize chunkRecorded s lf t d cf = u at *
        rw [← remaining_eq] at hrem
        rw [ih b u false (by omega) (by omega)]
      · rw [h']; rfl

/-- A walk from a signature is its loop. -/
theorem execWalk_of_signature {s : State} (h : s.srcAddr.toNat + s.srcLen.toNat ≤ 0x100000000)
    (h8 : s.cursor.toNat + 8 ≤ s.srcLen.toNat)
    (hr : Reachable s (s.srcAddr.toNat + s.cursor.toNat) 8) (hs : s.engineBytes (s.srcAddr.toNat + s.cursor.toNat) 8
        = sigBytes) :
    exec .walk s = (walkLoop (State.walkFuel (({ s with chkCount := 0#32 } : State).withPos (s.cursor.toNat + 8)).withCursor) true
      (({ s with chkCount := 0#32 } : State).withPos (s.cursor.toNat + 8)).withCursor).finish := by
  have e : sigStep ({ s with chkCount := 0#32 } : State).fromCursor = .ok (({ s with chkCount := 0#32 } : State).withPos (s.cursor.toNat + 8)).withCursor := by
    unfold sigStep
    rw [readSrc_of_reachable (by simp [State.fromCursor, remaining_eq]; omega) hr]
    unfold sigCheck
    have : firstDiff 0 (s.engineBytes (s.srcAddr.toNat + s.cursor.toNat) 8) sigBytes = none := (firstDiff_eq_none (by simp [sigBytes])).mpr hs
    show (match firstDiff 0 (s.engineBytes (s.srcAddr.toNat + s.cursor.toNat) 8) sigBytes with | some i => _ | none => _) = _
    rw [this]
    rfl
  simp only [exec, execWalk, srcRangeCheck_ok h, Run.andThen_ok, e]

end Sys2Proof.Machine
end

