-- ==== Sys2Proof/Tests/Slice0.lean ====
section
/-! SUPPORT. Tests against the vectors of spec/95_test_vectors.md and the encodings of spec/30_encoding.md, a smoke test of
each well-formedness check, and for every statement with hypotheses a witness that meets them. -/

namespace Sys2Proof.Tests

open Sys2Proof Sys2Proof.Machine

set_option Elab.async false

/-! ### Helpers -/

/-- A field of the next state, if there is one. -/
def after {α : Type} (o : Host.Outcome State Fault Refusal) (f : State → α) : Option α :=
  match o with
  | .next s => some (f s)
  | .fault _ => none
  | .refused _ => none

def bytes (ns : List Nat) : List Byte := ns.map (BitVec.ofNat 8)

/-- After reset, `ns` stored at 0x1000 and named by SRC, the command word `w` accepted. -/
def src (w : Nat) (ns : List Nat) : State :=
  ({ State.reset with
      mem := Memory.writeAll [] (cellsAt 0x1000 (bytes ns)), srcAddr := 0x1000#32
      srcLen := word ns.length } : State).accept (word w)

/-- The same with an image and `dstLen` bytes of DST at 0x2000. -/
def img (w : Nat) (ns : List Nat) (width height fmt dstLen : Nat) : State :=
  { src w ns with
    dstAddr := 0x2000#32, dstLen := word dstLen, imgWidth := word width, imgHeight := word height, imgFmt := word fmt }

/-- `n` bytes of DST. -/
def dst (n : Nat) (s : State) : List Nat := (List.range n).map fun i => (Memory.read s.mem (0x2000 + i)).toNat

/-- STATUS and ERR_INFO0..2. -/
def result (s : State) : List Nat :=
  [s.statusWord.toNat, s.errInfo0.toNat, s.errInfo1.toNat, s.errInfo2.toNat]

/-- After `n` steps over a list of events. -/
def run (n : Nat) (s : State) : Option State :=
  match n with
  | 0 => some s
  | k + 1 => (after (step s) id).bind (run k)

def sigNats : List Nat := [0x89, 0x50, 0x4E, 0x47, 0x0D, 0x0A, 0x1A, 0x0A]
def iendNats : List Nat := [0, 0, 0, 0, 0x49, 0x45, 0x4E, 0x44, 0xAE, 0x42, 0x60, 0x82]

/-- The 70 bytes of program P2. -/
def png1 : List Nat :=
  sigNats ++ [0, 0, 0, 0x0D, 0x49, 0x48, 0x44, 0x52, 0, 0, 0, 1, 0, 0, 0, 1, 8, 0, 0, 0, 0, 0x3A, 0x7E, 0x9B, 0x55] ++
  [0, 0, 0, 0x0D, 0x49, 0x44, 0x41, 0x54, 0x78, 1, 1, 2, 0, 0xFD, 0xFF, 0, 0, 0, 2, 0, 1, 0x7E, 5, 0x0D, 0xD2] ++
  iendNats

/-- The filtered 3x3 stream of program P3. -/
def p3 : List Nat := [0, 1, 2, 3, 1, 0x15, 2, 0, 2, 2, 0x14, 4, 0x0B, 1, 1]

/-! ### Decoding: every row of the table, its word written out from R81 or its byte from R84 -/

theorem test_decode_nop : decode (.cmd32 0b00000000000000000000000000000000#32) = .instr .nop := by decide
theorem test_decode_sig : decode (.cmd32 0b00000000000000000000000000000001#32) = .instr .sig := by decide
theorem test_decode_chunk : decode (.cmd32 0b00000000000000000000000000000010#32) = .instr .chunk := by decide
theorem test_decode_walk : decode (.cmd32 0b00000000000000000000000000000011#32) = .instr .walk := by decide
theorem test_decode_crc : decode (.cmd32 0b00000000000000000000000000000100#32) = .instr .crc := by decide
theorem test_decode_unfilter : decode (.cmd32 0b00000000000000000000000000000101#32) = .instr .unfilter := by decide
theorem test_decode_deinterlace : decode (.cmd32 0b00000000000000000000000000000110#32) = .instr .deinterlace := by
  decide
theorem test_decode_reconstruct : decode (.cmd32 0b00000000000000000000000000000111#32) = .instr .reconstruct := by
  decide
theorem test_decode_none : decode (.filter8 0b00000000#8) = .instr .filterNone := by decide
theorem test_decode_sub : decode (.filter8 0b00000001#8) = .instr .filterSub := by decide
theorem test_decode_up : decode (.filter8 0b00000010#8) = .instr .filterUp := by decide
theorem test_decode_average : decode (.filter8 0b00000011#8) = .instr .filterAverage := by decide
theorem test_decode_paeth : decode (.filter8 0b00000100#8) = .instr .filterPaeth := by decide
theorem test_decode_mbz_set : decode (.cmd32 0x80000001#32) = .illegalCommand 0x80000001#32 := by decide
theorem test_decode_filter_ff : decode (.filter8 0xFF#8) = .illegalFilter 0xFF#8 := by decide

/-! ### Well-formedness refuses -/

theorem test_wf_no_row_bytes : Params.wf { Config.resetParams with maxRowBytes := 0 } = false := by decide
theorem test_wf_region_past_space : Params.wf { Config.resetParams with backed := [⟨0xFFFFFFFF, 2⟩] } = false := by decide
theorem test_wf_base_unaligned : Params.wf { Config.resetParams with regBase := 2#32 } = false := by decide
theorem test_wf_window_past_bus : Params.wf { Config.resetParams with regBase := 0xFFFFFF84#32 } = false := by decide
theorem test_wf_reset_params : Params.wf Config.resetParams = true := by decide

/-! ### The chunk validator (V-SIG, V-CHK, V-WALK, V-CRC) -/

/-- V-REG-5. -/
theorem test_nop : after (exec .nop (src 0 [])) result = some [0x00000002, 0, 0, 0] := by decide +kernel

/-- V-SIG-1. -/
theorem test_sig_ok : after (exec .sig (src 1 sigNats)) (fun t => (t.cursor, result t)) =
    some (8#32, [2, 0, 0, 0]) := by decide +kernel

/-- V-SIG-3. -/
theorem test_sig_last_byte : after (exec .sig (src 1 (sigNats.take 7 ++ [0]))) (fun t => (t.cursor, result t)) =
    some (0#32, [0x106, 1, 7, 0]) := by decide +kernel

/-- V-CHK-13. -/
theorem test_chunk_srgb :
    after (exec .chunk (src 2 [0, 0, 0, 1, 0x73, 0x52, 0x47, 0x42, 0, 0xAE, 0xCE, 0x1C, 0xE9]))
      (fun t => (t.chkLen, t.chkType, t.chkFlags, t.chkDataOff, t.chkCrcCalc, t.cursor, t.statusWord)) =
    some (1#32, 0x73524742#32, 1#32, 8#32, 0xAECE1CE9#32, 13#32, 2#32) := by decide +kernel

/-- V-CHK-3. -/
theorem test_chunk_mismatch : after (exec .chunk (src 2 (iendNats.take 11 ++ [0x83])))
      (fun t => (t.chkCount, t.cursor, result t)) =
    some (1#32, 12#32, [0x506, 0xAE426083, 0xAE426082, 0]) := by decide +kernel

/-- V-WALK-1. -/
theorem test_walk_png1 : after (exec .walk (src 3 png1)) (fun t => (t.chkCount, t.cursor, t.chkType, t.statusWord)) =
    some (3#32, 70#32, 0x49454E44#32, 2#32) := by decide +kernel

/-- V-WALK-4. -/
theorem test_walk_truncated : after (exec .walk (src 3 (png1.take 33))) (fun t => (t.chkCount, t.cursor, result t)) =
    some (1#32, 33#32, [0x306, 0, 0, 33]) := by decide +kernel

/-- V-CRC-4. -/
theorem test_crc_check_value :
    after (exec .crc (src 4 [0x31, 0x32, 0x33, 0x34, 0x35, 0x36, 0x37, 0x38, 0x39])) (fun t => t.chkCrcCalc) =
    some 0xCBF43926#32 := by decide +kernel

/-- V-CRC-7. -/
theorem test_crc_wraps : after (exec .crc { src 4 [0, 0] with srcAddr := 0xFFFFFFFF#32 }) result =
    some [0x806, 9, 0, 0] := by decide +kernel

/-! ### The filters (V-SUB-4, V-AVG, V-PAETH), by the engine's own scanline turn -/

/-- V-NONE-1. -/
theorem test_row_none : reconRow predNone 1 (bytes [0x10, 0x20]) [] (bytes [0, 0xFF]) = bytes [0, 0xFF] := by decide

/-- V-SUB-4. -/
theorem test_row_sub_bpp2 : reconRow predSub 2 [] [] (bytes [0x12, 0x34, 1, 1]) = bytes [0x12, 0x34, 0x13, 0x35] := by
  decide

/-- V-UP-1. -/
theorem test_row_up_wraps : reconRow predUp 1 (bytes [0x0A, 0x14]) [] (bytes [5, 0xFA]) = bytes [0x0F, 0x0E] := by decide

/-- V-AVG-3. -/
theorem test_row_average_exact : reconRow predAverage 1 (bytes [0, 0xFF]) [] (bytes [0xFF, 0]) = bytes [0xFF, 0xFF] := by
  decide

/-- V-PAETH-8. -/
theorem test_row_paeth_up : reconRow paeth 1 (bytes [0x0A, 0x14, 0x1E]) [] (bytes [1, 1, 1]) =
    bytes [0x0B, 0x15, 0x1F] := by decide

/-- V-PAETH-1 to V-PAETH-6. -/
theorem test_paeth_predictor : [paeth 10 10 10, paeth 5 5 0, paeth 6 0 4, paeth 200 100 0, paeth 1 3 2, paeth 255 0 255] =
    [10, 5, 0, 200, 2, 0] := by decide

/-- V-UNF-2 scanline by scanline: the checks, Sub, then Up, which ends the command. -/
theorem test_scanline_turns :
    (run 3 { img 5 [1, 1, 1, 2, 2, 2] 2 2 8 4 with inputs := [.engine .scanline, .engine .scanline, .engine .scanline] }).map
      (fun t => (dst 4 t, t.outLen, t.statusWord)) = some ([1, 2, 3, 4], 4#32, 2#32) := by decide +kernel

/-! ### The reconstruction commands (V-UNF, V-A7, V-CFG) -/

/-- V-UNF-4. -/
theorem test_unfilter_paeth_rgb :
    after (exec .unfilter (img 5 [4, 0x0A, 0x14, 0x1E, 0x1E, 0x1E, 0x1E, 4, 1, 2, 3, 4, 5, 6] 2 2 0x208 12))
      (fun t => (dst 12 t, t.outLen)) =
    some ([0x0A, 0x14, 0x1E, 0x28, 0x32, 0x3C, 0x0B, 0x16, 0x21, 0x2C, 0x37, 0x42], 12#32) := by decide +kernel

/-- R72, R243: after UNFILTER (the stream of V-UNF-2) the host reads the output, not its own undrained write to a DST byte;
what it posted elsewhere stands. -/
theorem test_unfilter_output_visible :
    after (exec .unfilter { img 5 [1, 1, 1, 2, 2, 2] 2 2 8 4 with hostBuf := [(0x2003, 9#8), (0x2004, 8#8)] })
      (fun t => (t.hostByte 0x2003, t.hostByte 0x2004, t.hostBuf)) = some (4#8, 8#8, [(0x2004, 8#8)]) := by
  decide +kernel

/-- V-UNF-6. -/
theorem test_unfilter_bad_filter : after (exec .unfilter (img 5 [0, 1, 2, 5, 3, 4] 2 2 8 4)) result =
    some [0x706, 5, 1, 0xFFFFFFFF] := by decide +kernel

/-- V-A7-5. -/
theorem test_deinterlace_3x3 :
    after (exec .deinterlace (img 6 [1, 3, 0x15, 0x17, 2, 0x16, 0x0B, 0x0C, 0x0D] 3 3 0x10008 9))
      (fun t => (dst 9 t, t.outLen)) = some ([1, 2, 3, 0x0B, 0x0C, 0x0D, 0x15, 0x16, 0x17], 9#32) := by decide +kernel

/-- V-CFG-8. -/
theorem test_deinterlace_baseline : after (exec .deinterlace (img 6 [1] 1 1 8 1)) result = some [0x806, 8, 0, 0] := by
  decide +kernel

/-- V-A7-6. -/
theorem test_reconstruct_3x3 : after (exec .reconstruct (img 7 p3 3 3 0x10008 9)) (fun t => (dst 9 t, t.outLen)) =
    some ([1, 2, 3, 0x0B, 0x0C, 0x0D, 0x15, 0x16, 0x17], 9#32) := by decide +kernel

/-- V-A7-10. -/
theorem test_reconstruct_short : after (exec .reconstruct (img 7 (p3.take 14) 3 3 0x10008 9)) result =
    some [0x906, 15, 14, 0] := by decide +kernel

/-! ### The host's side (V-REG) -/

/-- V-REG-4. -/
theorem test_reg_fmt :
    (run 3 { State.reset with inputs := hostWr .imgFmt 0xFF010208#32 ++ hostWr .imgWidth 5#32 ++ hostRd .rowBytes }).map
      (fun t => (t.imgFmt, t.response)) = some (0x00010208#32, .word 15#32) := by decide +kernel

/-- V-REG-7. -/
theorem test_reg_illegal :
    (run 4 { State.reset with inputs := hostRun 0x15#32 ++ hostRd .cmd }).map (fun t => (result t, t.response)) =
    some ([0xB06, 0x15, 0, 0], .word 0x15#32) := by decide +kernel

/-- V-REG-8. -/
theorem test_reg_refused :
    (run 1 { src 1 sigNats with inputs := hostWr .srcLen 1#32 }).map (fun t => (t.srcLen, t.statusWord)) =
    some (8#32, 9#32) := by decide +kernel

/-- V-REG-10. -/
theorem test_reg_irq :
    ((run 3 { State.reset with inputs := hostWr .ctrl 7#32 ++ hostRun 0#32 }).map State.irq,
     (run 5 { State.reset with inputs := hostWr .ctrl 7#32 ++ hostRun 0#32 ++ hostAck }).map State.irq) =
    (some true, some false) := by decide +kernel

/-- V-REG-11. -/
theorem test_reg_bus_error :
    (run 1 { State.reset with inputs := [.regRead 0x0E#7 32] }).map State.response =
    some (.busError (.regAccessFault 0x0E 32)) := by decide +kernel

/-- Every row of the table runs as the first instruction after reset. -/
theorem test_fetch_first :
    (List.range 8).all (fun w => (after (step (State.reset.withFetchWord 32 w)) id).isSome) = true ∧
    (List.range 5).all (fun w => after (step (State.reset.withFetchWord 8 w)) (fun t => t.outLen) = some 1#32) = true := by
  decide +kernel

/-! ### Witnesses: the hypotheses of each statement can be met together -/

/-- The scanline `b` of a 1x1 image is next, and nothing else is listed. -/
def oneRow (b : Nat) : State := oneScanline (BitVec.ofNat 8 b) State.reset

/-- The first scanline of a 2x2 grey image is next. -/
def twoRows (ns : List Nat) : State :=
  match startUnfilter (img 5 ns 2 2 8 4) with
  | .ok s => s
  | .raised _ s => s
  | .refused _ => State.reset

theorem witness_EveryCodeHasOneMeaning :
    Instr.walk.wf = true ∧ decode (.cmd32 7#32) = .instr .reconstruct ∧ decode (.filter8 4#8) = .instr .filterPaeth := by
  decide

theorem witness_IllegalCodesAreExact :
    ((8#32 : Word).toNat / 16 ≠ 0 ∨ 8 ≤ (8#32 : Word).toNat % 16) ∧
    ((16#32 : Word).toNat / 16 ≠ 0 ∨ 8 ≤ (16#32 : Word).toNat % 16) ∧ 5 ≤ (5#8 : Byte).toNat := by decide

theorem witness_EngineTurnRunsAcceptedWord :
    ((src 7 []).engine = .busy 7#32 ∧ (src 7 []).scratch.scan = none ∧ (src 7 []).inputs = [] ∧
      decodeCommand 7#32 = .instr .reconstruct) ∧
    ((src 8 []).engine = .busy 8#32 ∧ (src 8 []).scratch.scan = none ∧ (src 8 []).inputs = [] ∧
      decodeCommand 8#32 = .illegalCommand 8#32) ∧
    ({ src 8 [] with inputs := [.engine .command] } : State).inputs = .engine .command :: [] := by decide +kernel

theorem witness_EngineTurnRunsFilterByte :
    (oneRow 1).engine = .busy 5#32 ∧
    (oneRow 1).scratch.scan = some (Scan.start [⟨none, 1, 1⟩] 1 false) ∧
    (oneRow 1).reachable ((oneRow 1).srcAddr.toNat + 0) = true ∧
    decodeFilter ((oneRow 1).engineByte ((oneRow 1).srcAddr.toNat + 0)) = .instr .filterSub ∧ (oneRow 1).inputs = [] := by
  decide +kernel

theorem witness_ScanlineGrainRefinesCommand :
    decodeCommand 5#32 = .instr .unfilter ∧ (img 5 [1, 1, 1, 2, 2, 2] 2 2 8 4).engine = .busy 5#32 ∧
    (img 5 [1, 1, 1, 2, 2, 2] 2 2 8 4).scratch = Scratch.empty := by decide +kernel

theorem witness_EveryCommandCompletes :
    (src 3 png1).engine = .busy 3#32 ∧ (src 3 png1).scratch = Scratch.empty ∧ (src 3 png1).inputs = [] ∧
    ∀ a, a < 0x100000000 → (src 3 png1).reachable a = true := by
  refine ⟨rfl, rfl, rfl, fun a ha => ?_⟩
  have hp : (src 3 png1).params = Config.resetParams := rfl
  have he : (src 3 png1).memErrors = [] := rfl
  simp [State.reachable, blocked, absent, memBacked, inRegions, hp, he, Config.resetParams, ha]

/-- A busy state with a command accepted meets the invariant. -/
theorem witness_StepKeepsInvariant : BlockInv (src 1 []) ∧ ∃ t, step (src 1 []) = .next t := by
  refine ⟨?_, ⟨_, rfl⟩⟩
  constructor <;> simp [src, State.accept, State.reset, bytes, cellsAt, Memory.writeAll, Memory.wf, Memory.wfFrom]

theorem witness_RowsFitLineBuffers :
    LineBuffersFit (oneRow 1) ∧ ∃ t, step (oneRow 1) = .next t := by
  refine ⟨⟨by decide +kernel, by decide +kernel, fun sc h g hg => ?_⟩, ⟨_, rfl⟩⟩
  have hs : (oneRow 1).scratch.scan = some (Scan.start [⟨none, 1, 1⟩] 1 false) := by decide +kernel
  rw [hs] at h
  obtain rfl := Option.some.inj h
  simp only [Scan.start, List.mem_singleton] at hg
  subst hg
  decide +kernel

theorem witness_CanonicalMemoryIsItsReads :
    Memory.wf [(3, 1#8), (5, 2#8)] = true ∧ ∀ a, Memory.read [(3, 1#8), (5, 2#8)] a = Memory.read [(3, 1#8), (5, 2#8)] a :=
  ⟨by decide, fun _ => rfl⟩

theorem witness_CommandWriteAccepts :
    ({ State.reset with inputs := [.regWrite 0x08#7 32 3#32] } : State).rst = false ∧ State.reset.engine = .idle ∧
    (src 3 []).engine ≠ .idle ∧ (src 3 []).rst = false := by decide +kernel

theorem witness_BusyWritesAreRefused :
    (src 3 []).rst = false ∧ (src 3 []).engine ≠ .idle ∧
    (0x2C#7 : BitVec 7) ∈ [0x04#7, 0x08#7, 0x10#7, 0x14#7, 0x18#7, 0x1C#7, 0x20#7, 0x24#7, 0x28#7, 0x2C#7] := by decide +kernel

theorem witness_ReadOnlyWritesAreIgnored :
    (src 3 []).rst = false ∧ (0x7C#7 : BitVec 7).toNat ∈ unmappedOffsets := by decide +kernel

theorem witness_StatusWriteClearsOnlyItsBits :
    ({ src 3 [] with inputs := [.regWrite 0x0C#7 32 8#32] } : State).inputs = .regWrite 0x0C#7 32 8#32 :: [] ∧
    (src 3 []).rst = false := by decide +kernel

theorem witness_IdleWritesTakeTheValue :
    ({ State.reset with inputs := [.regWrite 0x2C#7 32 0xFF010208#32] } : State).inputs =
      .regWrite 0x2C#7 32 0xFF010208#32 :: [] ∧ State.reset.rst = false ∧ State.reset.engine = .idle := by decide +kernel

theorem witness_IdleReadsReturnRegisters :
    (((0x00#7 : BitVec 7).toNat, 0x504E4701#32) ∈ regValues State.reset) ∧
    (((0x70#7 : BitVec 7).toNat, 0#32) ∈ regValues State.reset) ∧ (0x38#7 : BitVec 7).toNat ∈ unmappedOffsets ∧
    State.reset.rst = false ∧ State.reset.engine = .idle := by decide +kernel

theorem witness_BusyReads :
    (src 3 []).rst = false ∧ (src 3 []).engine ≠ .idle ∧
    ((0x34#7 : BitVec 7).toNat, 0#32) ∈ regValues (src 3 []) ∧
    (0x20#7 : BitVec 7).toNat ∈ [0x20, 0x40, 0x44, 0x48, 0x4C, 0x50, 0x54, 0x58, 0x60, 0x64, 0x68, 0x70] := by decide +kernel

theorem witness_BadAccessIsABusError :
    ((16 : Nat) ≠ 32 ∨ (0x0C#7 : BitVec 7).toNat % 4 ≠ 0) ∧ ((32 : Nat) ≠ 32 ∨ (0x0E#7 : BitVec 7).toNat % 4 ≠ 0) := by
  decide

theorem witness_DerivedRegisters :
    ((6, 4) : Nat × Nat) ∈ [(0, 1), (2, 3), (3, 1), (4, 2), (6, 4)] ∧ 16 ∈ [1, 2, 4, 8, 16] ∧ 255 < 256 ∧
    bitDepth 0#32 ∉ [1, 2, 4, 8, 16] ∧ bitDepth 8#32 = 8 ∧ colorType 0x610#32 = 6 := by decide

theorem witness_StatusBits : (State.reset.code, 0x00#8) = (ResultCode.ok, 0x00#8) := by decide

theorem witness_InterruptFollowsCompletion :
    (∃ t, exec .nop State.reset = .next t) ∧ (2#32 : Word).getLsbD 1 = true ∧ State.reset.rst = false ∧
    State.reset.engine = .idle := ⟨⟨_, rfl⟩, by decide, rfl, rfl⟩

theorem witness_HostHazardsAreRefused :
    (img 5 [0, 0] 1 1 8 1).engine ≠ .idle ∧ (img 5 [0, 0] 1 1 8 1).reachable 0x1001 = true ∧
    inRange (img 5 [0, 0] 1 1 8 1).srcAddr (img 5 [0, 0] 1 1 8 1).srcLen 0x1001 = true ∧
    inRange (img 5 [0, 0] 1 1 8 1).dstAddr (img 5 [0, 0] 1 1 8 1).dstLen 0x2000 = true ∧
    inRange (img 5 [0, 0] 1 1 8 1).dstAddr (img 5 [0, 0] 1 1 8 1).dstLen 0x1001 = false := by decide +kernel

theorem witness_HostWritesBecomeVisible :
    State.reset.engine = .idle ∧ Memory.wf State.reset.mem = true ∧ State.reset.reachable (0xFFFFFFFF#32 : Word).toNat = true ∧
    State.reset.hostBuf = [] := by decide +kernel

theorem witness_ResetGivesResetValues :
    ({ src 3 png1 with inputs := [.assertReset] } : State).inputs = .assertReset :: [] ∧
    ({ State.reset with rst := true } : State).rst = true ∧ (0x04#7 : BitVec 7).toNat % 4 = 0 := by decide +kernel

theorem witness_ResetAbandonsTheCommand :
    (img 5 [0, 0] 1 1 8 1).engine ≠ .idle ∧ Memory.wf (img 5 [0, 0] 1 1 8 1).mem = true ∧
    OutsideDst (img 5 [0, 0] 1 1 8 1) 0x2001 ∧ ¬ OutsideDst (img 5 [0, 0] 1 1 8 1) 0x2000 ∧
    (img 5 [0, 0] 1 1 8 1).present 0x2000 = true := by decide +kernel

theorem witness_NopCompletes : State.reset.rejected = false := rfl

theorem witness_SourceRangeIsChecked :
    0x100000000 < (0xFFFFFFFF#32 : Word).toNat + (2#32 : Word).toNat ∧ Instr.walk ∈ [Instr.sig, .chunk, .walk, .crc] := by
  decide

theorem witness_SigOutcome :
    (let s := src 1 sigNats
     s.srcAddr.toNat + s.srcLen.toNat ≤ 0x100000000 ∧ 8 ≤ s.srcLen.toNat - s.cursor.toNat ∧
     Reachable s (s.srcAddr.toNat + s.cursor.toNat) 8 ∧
     s.engineBytes (s.srcAddr.toNat + s.cursor.toNat) 8 =
       [0x89#8, 0x50#8, 0x4E#8, 0x47#8, 0x0D#8, 0x0A#8, 0x1A#8, 0x0A#8]) ∧
    (let s := src 1 (sigNats.take 7)
     s.srcAddr.toNat + s.srcLen.toNat ≤ 0x100000000 ∧ s.srcLen.toNat - s.cursor.toNat < 8) ∧
    (let s := src 1 (sigNats.take 7 ++ [0])
     Reachable s (s.srcAddr.toNat + s.cursor.toNat) 8 ∧
     s.engineByte (s.srcAddr.toNat + s.cursor.toNat + 7) ≠
       [0x89#8, 0x50#8, 0x4E#8, 0x47#8, 0x0D#8, 0x0A#8, 0x1A#8, 0x0A#8].getD 7 0#8 ∧
     ∀ j, j < 7 → s.engineByte (s.srcAddr.toNat + s.cursor.toNat + j) =
       [0x89#8, 0x50#8, 0x4E#8, 0x47#8, 0x0D#8, 0x0A#8, 0x1A#8, 0x0A#8].getD j 0#8) ∧
    0x100000000 < (0xFFFFFFFF#32 : Word).toNat + (2#32 : Word).toNat := by decide +kernel

theorem witness_ChunkRecordsAndCompares :
    (let s := src 2 iendNats
     (bytes [0x49, 0x45, 0x4E, 0x44]).all ascii = true ∧ beNat (bytes [0, 0, 0, 0]) = 0 ∧
     s.srcAddr.toNat + s.srcLen.toNat ≤ 0x100000000 ∧ s.cursor.toNat + 12 + 0 ≤ s.srcLen.toNat ∧
     Reachable s (s.srcAddr.toNat + s.cursor.toNat) (12 + 0) ∧
     s.engineBytes (s.srcAddr.toNat + s.cursor.toNat) (12 + 0) =
       bytes [0, 0, 0, 0] ++ bytes [0x49, 0x45, 0x4E, 0x44] ++ [] ++ bytes [0xAE, 0x42, 0x60, 0x82] ∧
     be32 (bytes [0xAE, 0x42, 0x60, 0x82]) = crc32 (bytes [0x49, 0x45, 0x4E, 0x44] ++ [])) ∧
    (let s := src 2 (iendNats.take 11 ++ [0x83])
     s.ctrl.getLsbD 0 = true ∧
     s.engineBytes (s.srcAddr.toNat + s.cursor.toNat) (12 + 0) =
       bytes [0, 0, 0, 0] ++ bytes [0x49, 0x45, 0x4E, 0x44] ++ [] ++ bytes [0xAE, 0x42, 0x60, 0x83] ∧
     be32 (bytes [0xAE, 0x42, 0x60, 0x83]) ≠ crc32 (bytes [0x49, 0x45, 0x4E, 0x44] ++ [])) := by decide +kernel

/-- V-CHK-6, the boundary `L = avail`. -/
theorem witness_ChunkLengthBound :
    let s := src 2 [0, 0, 0, 4, 0x49, 0x44, 0x41, 0x54, 0, 0, 0, 0]
    s.srcAddr.toNat + s.srcLen.toNat ≤ 0x100000000 ∧ s.cursor.toNat + 8 ≤ s.srcLen.toNat ∧
    Reachable s (s.srcAddr.toNat + s.cursor.toNat) 8 ∧
    (s.engineBytes (s.srcAddr.toNat + s.cursor.toNat + 4) 4).all ascii = true ∧
    s.srcLen.toNat - s.cursor.toNat - 8 ≤ beNat (s.engineBytes (s.srcAddr.toNat + s.cursor.toNat) 4) := by decide +kernel

/-- V-CHK-10, V-CHK-11, V-CHK-12 and V-CHK-7. -/
theorem witness_ChunkShortfalls :
    (src 2 []).srcLen.toNat ≤ (src 2 []).cursor.toNat ∧
    ((src 2 [0, 0, 0]).cursor.toNat < (src 2 [0, 0, 0]).srcLen.toNat ∧
      (src 2 [0, 0, 0]).srcLen.toNat < (src 2 [0, 0, 0]).cursor.toNat + 4) ∧
    (let s := src 2 [0, 0, 0, 0, 0x49]
     s.cursor.toNat + 4 ≤ s.srcLen.toNat ∧ s.srcLen.toNat < s.cursor.toNat + 8 ∧
     Reachable s (s.srcAddr.toNat + s.cursor.toNat) 4) ∧
    (let s := src 2 [0, 0, 0, 1, 0x49, 0x44, 0x41, 0x54, 0xAA, 0xBB]
     beNat (s.engineBytes (s.srcAddr.toNat + s.cursor.toNat) 4) = 1 ∧ s.cursor.toNat + 8 + 1 < s.srcLen.toNat ∧
     s.srcLen.toNat < s.cursor.toNat + 8 + 1 + 4 ∧ Reachable s (s.srcAddr.toNat + s.cursor.toNat) (8 + 1) ∧
     (s.engineBytes (s.srcAddr.toNat + s.cursor.toNat + 4) 4).all ascii = true ∧
     s.srcAddr.toNat + s.srcLen.toNat ≤ 0x100000000) := by decide +kernel

/-- V-CHK-8. -/
theorem witness_ChunkTagMustBeAscii :
    let s := src 2 [0, 0, 0, 0, 0x49, 0xC8, 0x44, 0x52, 0, 0, 0, 0]
    s.srcAddr.toNat + s.srcLen.toNat ≤ 0x100000000 ∧ s.cursor.toNat + 8 ≤ s.srcLen.toNat ∧
    Reachable s (s.srcAddr.toNat + s.cursor.toNat) 8 ∧
    0x80 ≤ (s.engineByte (s.srcAddr.toNat + s.cursor.toNat + 4 + 1)).toNat ∧
    ∀ j, j < 1 → (s.engineByte (s.srcAddr.toNat + s.cursor.toNat + 4 + j)).toNat < 0x80 := by decide +kernel

/-- The IHDR and IDAT chunks of program P2 and its IEND. -/
def p2Ihdr : ChunkText := ⟨bytes [0x49, 0x48, 0x44, 0x52], bytes [0, 0, 0, 1, 0, 0, 0, 1, 8, 0, 0, 0, 0], 0x3A7E9B55#32⟩
def p2Idat : ChunkText :=
  ⟨bytes [0x49, 0x44, 0x41, 0x54], bytes [0x78, 1, 1, 2, 0, 0xFD, 0xFF, 0, 0, 0, 2, 0, 1], 0x7E050DD2#32⟩
def p2Iend : ChunkText := ⟨bytes [0x49, 0x45, 0x4E, 0x44], [], 0xAE426082#32⟩

theorem witness_WalkAcceptsEncodedStream :
    (∀ c ∈ [p2Ihdr, p2Idat], c.ok = true ∧ c.passesCrc (src 3 png1).ctrl ∧ be32 c.tag ≠ 0x49454E44#32) ∧
    p2Iend.ok = true ∧ p2Iend.passesCrc (src 3 png1).ctrl ∧ (src 3 png1).ctrl.getLsbD 0 = true ∧
    be32 p2Iend.tag = 0x49454E44#32 ∧ ([p2Ihdr, p2Idat] ++ [p2Iend]).head? = some p2Ihdr ∧
    be32 p2Ihdr.tag = 0x49484452#32 ∧
    bytes png1 = [0x89#8, 0x50#8, 0x4E#8, 0x47#8, 0x0D#8, 0x0A#8, 0x1A#8, 0x0A#8] ++
      ([p2Ihdr, p2Idat] ++ [p2Iend]).flatMap ChunkText.bytes ∧
    (src 3 png1).srcAddr.toNat + (src 3 png1).srcLen.toNat ≤ 0x100000000 ∧
    (src 3 png1).cursor.toNat + (bytes png1).length ≤ (src 3 png1).srcLen.toNat ∧
    Reachable (src 3 png1) ((src 3 png1).srcAddr.toNat + (src 3 png1).cursor.toNat) (bytes png1).length ∧
    (src 3 png1).engineBytes ((src 3 png1).srcAddr.toNat + (src 3 png1).cursor.toNat) (bytes png1).length = bytes png1 := by
  decide +kernel

/-- A wrong CRC passes while CRC_CHECK_EN = 0. -/
theorem witness_WalkAcceptsEncodedStream_unchecked :
    ({ p2Iend with crc := 0#32 } : ChunkText).passesCrc 0x00000004#32 := by decide +kernel

/-- A signature whose last byte differs (V-SIG-3) ends SIG with an error. -/
theorem witness_WalkEndsAtTheFirstError_signature :
    let s := src 3 (sigNats.take 7 ++ [0])
    s.srcAddr.toNat + s.srcLen.toNat ≤ 0x100000000 ∧
    after (exec .sig s) (fun t => (t.code, decide (t.code ≠ .ok))) = some (.invalidFormat, true) := by decide +kernel

/-- After IHDR the stream ends (V-WALK-4), or the next chunk's CRC is wrong. -/
theorem witness_WalkEndsAtTheFirstError_chunk :
    (∀ c ∈ [p2Ihdr], c.ok = true ∧ c.passesCrc (src 3 png1).ctrl ∧ be32 c.tag ≠ 0x49454E44#32) ∧
    [p2Ihdr].head? = some p2Ihdr ∧ be32 p2Ihdr.tag = 0x49484452#32 ∧
    ∀ e ∈ [(png1.take 33, ResultCode.truncatedStream), (png1.take 33 ++ iendNats.take 11 ++ [0x83], .crcMismatch)],
      let s := src 3 e.1
      let stream := bytes sigNats ++ [p2Ihdr].flatMap ChunkText.bytes
      s.srcAddr.toNat + s.srcLen.toNat ≤ 0x100000000 ∧ s.cursor.toNat + stream.length ≤ s.srcLen.toNat ∧
      Reachable s (s.srcAddr.toNat + s.cursor.toNat) stream.length ∧
      s.engineBytes (s.srcAddr.toNat + s.cursor.toNat) stream.length = stream ∧
      after (exec .chunk ([p2Ihdr].foldl (fun u c => recorded u c.tag c.data c.crc)
        { s with chkCount := 0#32, cursor := s.cursor + 8#32 })) State.code = some e.2 := by decide +kernel

/-- V-WALK-2. -/
theorem witness_WalkEndsAtTheFirstError_ihdr :
    let s := src 3 (sigNats ++ iendNats)
    p2Iend.ok = true ∧ p2Iend.passesCrc s.ctrl ∧ be32 p2Iend.tag ≠ 0x49484452#32 ∧ s.ctrl.getLsbD 2 = true ∧
    s.srcAddr.toNat + s.srcLen.toNat ≤ 0x100000000 ∧ s.cursor.toNat + 20 + p2Iend.data.length ≤ s.srcLen.toNat ∧
    Reachable s (s.srcAddr.toNat + s.cursor.toNat) (20 + p2Iend.data.length) ∧
    s.engineBytes (s.srcAddr.toNat + s.cursor.toNat) (20 + p2Iend.data.length) =
      [0x89#8, 0x50#8, 0x4E#8, 0x47#8, 0x0D#8, 0x0A#8, 0x1A#8, 0x0A#8] ++ p2Iend.bytes := by decide +kernel

theorem witness_CrcOutcome :
    let s := src 4 [0x31]
    s.srcAddr.toNat + s.srcLen.toNat ≤ 0x100000000 ∧ Reachable s s.srcAddr.toNat s.srcLen.toNat ∧
    (src 4 []).srcLen = 0#32 ∧ 0x100000000 < (0xFFFFFFFF#32 : Word).toNat + (2#32 : Word).toNat := by decide +kernel

/-- The second of two SRC bytes fails: answered with an error, or not backed. -/
theorem witness_CrcOutcome_refused :
    (let s := { src 4 [0x31, 0x32] with memErrors := [⟨0x1001, 1⟩] }
     1 < s.srcLen.toNat ∧ Reachable s s.srcAddr.toNat 1 ∧ s.present (s.srcAddr.toNat + 1) = true ∧
     inRegions s.memErrors (s.srcAddr.toNat + 1) = true) ∧
    (let s := { src 4 [0x31, 0x32] with params := { Config.resetParams with backed := [⟨0, 0x1001⟩] } }
     Reachable s s.srcAddr.toNat 1 ∧ memBacked s.params (s.srcAddr.toNat + 1) = false ∧
     inRegWindow s.params (s.srcAddr.toNat + 1) = false) := by decide +kernel

theorem witness_CrcSeesAnyChangedByte : (0#8 : Byte) ≠ 1#8 := by decide

theorem witness_CursorOnlyMovesForward :
    Instr.sig ∈ [Instr.sig, .chunk, .walk] ∧ ∃ t, exec .sig (src 1 sigNats) = .next t := ⟨by decide, ⟨_, rfl⟩⟩

theorem witness_ValidatorFrame :
    Instr.crc ∈ [Instr.nop, .sig, .chunk, .walk, .crc] ∧ ∃ t, exec .crc (src 4 [0x31]) = .next t :=
  ⟨by decide, ⟨_, rfl⟩⟩

theorem witness_ReconstructedByteRule :
    (Instr.filterSub, fun a (_ _ : Nat) => a) ∈ filterTable ∧ 0 < 1 ∧ 0 < (bytes [1]).length :=
  ⟨by simp [filterTable], by decide, by decide⟩

/-- Each tie of R150: V-PAETH-1, V-PAETH-3, V-PAETH-5. -/
theorem witness_PaethTieOrder :
    paeth 10 10 10 = 10 ∧ paeth 6 0 4 = 0 ∧ paeth 1 3 2 = 2 := by decide

theorem witness_PaethAtTheEdges : 2 < 3 ∧ 2 < (bytes [1, 2, 3, 4]).length := by decide

theorem witness_FilterRoundTrip : (Instr.filterPaeth, paeth) ∈ filterTable ∧ 0 < 3 := ⟨by simp [filterTable], by decide⟩

/-- The Sub scanline of V-UNF-2. -/
theorem witness_FilterRunsOneRow :
    let s := twoRows [1, 1, 1, 2, 2, 2]
    s.scratch.scan = some (Scan.start [⟨none, 2, 2⟩] 4 false) ∧ 0 + 1 < 2 ∧
    Reachable s (s.srcAddr.toNat + 0 + 1) (rowBytes s.imgFmt 2) ∧
    bytes [1, 2] = reconRow predSub (bppOf s.imgFmt) s.scratch.prior []
      (s.engineBytes (s.srcAddr.toNat + 0 + 1) (rowBytes s.imgFmt 2)) ∧
    ∀ c ∈ rowCells s (Scan.start [⟨none, 2, 2⟩] 4 false) ⟨none, 2, 2⟩ (bytes [1, 2]), s.reachable c.1 = true := by
  decide +kernel

theorem witness_FilterEndsTheCommand :
    let s := oneRow 4
    s.scratch.scan = some (Scan.start [⟨none, 1, 1⟩] 1 false) ∧ 1 ≤ 0 + 1 ∧
    Reachable s (s.srcAddr.toNat + 0 + 1) (rowBytes s.imgFmt 1) ∧
    bytes [0] = reconRow paeth (bppOf s.imgFmt) s.scratch.prior []
      (s.engineBytes (s.srcAddr.toNat + 0 + 1) (rowBytes s.imgFmt 1)) ∧
    (∀ c ∈ rowCells s (Scan.start [⟨none, 1, 1⟩] 1 false) ⟨none, 1, 1⟩ (bytes [0]), s.reachable c.1 = true) ∧
    Memory.wf s.mem = true ∧ (Scan.start [⟨none, 1, 1⟩] 1 false).scatter = false ∧ 0 < (bytes [0]).length ∧
    (Scan.start [⟨none, 1, 1⟩] 1 false).outOff + 0 < (Scan.start [⟨none, 1, 1⟩] 1 false).needOut := by decide +kernel

theorem witness_UnsupportedFilterByte :
    let s := twoRows [5, 1, 2, 0, 3, 4]
    s.engine = .busy 5#32 ∧ s.inputs = [] ∧ s.scratch.scan = some (Scan.start [⟨none, 2, 2⟩] 4 false) ∧
    Memory.wf s.mem = true ∧ Reachable s (s.srcAddr.toNat + 0) (1 + rowBytes s.imgFmt 2) ∧
    s.engineByte (s.srcAddr.toNat + 0) = 5#8 ∧ 5 ≤ (5#8 : Byte).toNat ∧ ¬ OutsideDst s 0x2003 ∧
    s.present 0x2003 = true := by decide +kernel

/-- V-CFG-2b (the registers at reset) and V-CFG-10. -/
theorem witness_ConfigChecksInOrder :
    (configFails State.reset .unfilter 2 = true ∧ ∀ m, m < 2 → configFails State.reset .unfilter m = false) ∧
    (let s := { img 5 [0, 1, 2, 0, 3, 4] 2 2 8 4 with dstAddr := 0x1004#32 }
     configFails s .unfilter 10 = true ∧ ∀ m, m < 10 → configFails s .unfilter m = false) := by decide +kernel

/-- V-UNF-7 and V-UNF-8; both layouts. -/
theorem witness_LengthChecks :
    interlace (img 5 [] 2 2 8 4).imgFmt = 0 ∧ interlace (img 5 [] 2 2 0x10008 4).imgFmt = 1 ∧
    (let s := img 5 [0, 1, 2, 0, 3] 2 2 8 4
     (∀ n, n < 11 → configFails s .unfilter n = false) ∧ s.srcLen.toNat < s.needSrc .unfilter) ∧
    (let s := img 5 [0, 1, 2, 0, 3, 4] 2 2 8 3
     (∀ n, n < 11 → configFails s .unfilter n = false) ∧ s.needSrc .unfilter ≤ s.srcLen.toNat ∧
     s.dstLen.toNat < s.needOut .unfilter) := by decide +kernel

theorem witness_UnfilterWritesRows :
    let s := img 5 p3 3 3 0x10008 9
    Memory.wf s.mem = true ∧ ChecksPass s .unfilter ∧ ReachesAll s .unfilter ∧ FiltersLegal s := by decide +kernel

theorem witness_DeinterlacePlacesPixels :
    let s := img 6 [1, 3, 0x15, 0x17, 2, 0x16, 0x0B, 0x0C, 0x0D] 3 3 0x10008 9
    Memory.wf s.mem = true ∧ ChecksPass s .deinterlace ∧ ReachesAll s .deinterlace := by decide +kernel

theorem witness_ReconstructWritesGrid :
    (let s := img 7 p3 3 3 0x10008 9
     Memory.wf s.mem = true ∧ ChecksPass s .reconstruct ∧ ReachesAll s .reconstruct ∧ FiltersLegal s ∧
     interlace s.imgFmt = 1) ∧
    (let s := img 7 [1, 1, 1, 2, 2, 2] 2 2 8 4
     Memory.wf s.mem = true ∧ ChecksPass s .reconstruct ∧ ReachesAll s .reconstruct ∧ FiltersLegal s ∧
     interlace s.imgFmt = 0) := by decide +kernel

theorem witness_BaselineReconstructIsUnfilter : interlace (img 7 [0, 0] 1 1 8 1).imgFmt = 0 := by decide +kernel

/-- Program P3: RECONSTRUCT to 0x2000, UNFILTER to 0x3000, DEINTERLACE from there. -/
theorem witness_ReconstructIsUnfilterThenDeinterlace :
    let s := img 7 p3 3 3 0x10008 9
    let o := exec .unfilter { s with dstAddr := 0x3000#32, dstLen := 9#32 }
    Memory.wf s.mem = true ∧ s.hostBuf = [] ∧ interlace s.imgFmt = 1 ∧
    after (exec .reconstruct s) State.code = some .ok ∧ after o State.code = some .ok ∧
    (after o fun u => after (exec .deinterlace { u with
      srcAddr := 0x3000#32, srcLen := 9#32, dstAddr := s.dstAddr, dstLen := s.dstLen }) State.code) = some (some .ok) := by
  decide +kernel

theorem witness_ReconstructionFrame :
    Instr.unfilter ∈ [Instr.unfilter, .deinterlace, .reconstruct] ∧
    ∃ t, exec .unfilter (img 5 [0, 0] 1 1 8 1) = .next t := ⟨by decide, ⟨_, rfl⟩⟩

theorem witness_PassDimensionsCountThePoints : (6 : Nat) < 7 := by decide

theorem witness_PassesPartitionTheGrid : (6 : Nat) < 7 ∧ passHeight 3 6 = 1 ∧ passWidth 3 6 = 3 := by decide

end Sys2Proof.Tests
end

/-! ## SIG, CHUNK and WALK move CURSOR forward (spec/00_scope.md R10, spec/40_chunk_crc.md R105, R106) -/

section

namespace Sys2Proof.Machine

open Sys2Proof

/-- The local cursor is CURSOR, which has not left the SRC range. -/
structure CursorInSrc (s : State) : Prop where
  pos : s.scratch.pos = s.cursor.toNat
  le : s.cursor.toNat ≤ s.srcLen.toNat

/-- What a piece of the chunk validator that starts in `s` does to CURSOR: it is not moved backwards, and only a piece that
raises an error may leave it outside the SRC range. -/
def MovesCursorForward (s : State) (r : Run) : Prop :=
  match r with
  | .ok t => t.srcLen = s.srcLen ∧ s.cursor.toNat ≤ t.cursor.toNat ∧ CursorInSrc t
  | .raised e t => s.cursor.toNat ≤ t.cursor.toNat ∧ e.code ≠ .ok
  | .refused _ => True

/-- Pieces one after another: the second starts where the first left CURSOR. -/
theorem MovesCursorForward.andThen {s : State} {r : Run} {k : State → Run} (h : MovesCursorForward s r)
    (hk : ∀ t, CursorInSrc t → MovesCursorForward t (k t)) : MovesCursorForward s (r.andThen k) := by
  cases r with
  | ok t =>
    obtain ⟨hlen, hle, hin⟩ := h
    have hkt := hk t hin
    rw [Run.andThen_ok]
    cases hr : k t with
    | ok u =>
      rw [hr] at hkt
      obtain ⟨klen, kle, kin⟩ := hkt
      exact ⟨klen.trans hlen, hle.trans kle, kin⟩
    | raised e u =>
      rw [hr] at hkt
      exact ⟨hle.trans hkt.1, hkt.2⟩
    | refused f => trivial
  | raised e t => exact h
  | refused f => trivial

/-- The range check moves nothing, so a command that starts with it does what its body does. -/
theorem MovesCursorForward.afterSrcRangeCheck {s : State} {k : State → Run} (h : MovesCursorForward s (k s)) :
    MovesCursorForward s ((srcRangeCheck s).andThen k) := by
  by_cases hr : s.srcAddr.toNat + s.srcLen.toNat ≤ 0x100000000
  · rwa [srcRangeCheck_ok hr, Run.andThen_ok]
  · rw [srcRangeCheck_raised (by omega), Run.andThen_raised]
    exact ⟨le_rfl, by simp [configError]⟩

/-- How a command ends tells the two cases apart: `complete()` leaves CODE OK, an error does not. -/
theorem MovesCursorForward.finish {s t : State} {r : Run} (h : MovesCursorForward s r) (ht : r.finish = .next t) :
    s.cursor.toNat ≤ t.cursor.toNat ∧ (t.code = .ok → t.cursor.toNat ≤ s.srcLen.toNat) := by
  rcases Run.finish_eq_next ht with ⟨u, rfl, rfl⟩ | ⟨e, u, rfl, rfl⟩
  · obtain ⟨hlen, hle, hin⟩ := h
    exact ⟨hle, fun _ => hlen ▸ hin.le⟩
  · exact ⟨h.1, fun hok => absurd hok h.2⟩

/-- An offset within the SRC range fits a register. -/
theorem toNat_word_of_le {n : Nat} {w : Word} (h : n ≤ w.toNat) : (word n).toNat = n := by
  rw [word, BitVec.toNat_ofNat, Nat.mod_eq_of_lt (h.trans_lt w.isLt)]

/-- CURSOR written from a local cursor further on, still within the SRC range. -/
theorem cursor_forward_of_written {s t : State} (hs : s.scratch.pos = s.cursor.toNat) (hlen : t.srcLen = s.srcLen)
    (hcur : t.cursor = word t.scratch.pos) (hle : s.scratch.pos ≤ t.scratch.pos)
    (hin : t.scratch.pos ≤ s.srcLen.toNat) :
    s.cursor.toNat ≤ t.cursor.toNat ∧ CursorInSrc t := by
  have hpos : t.cursor.toNat = t.scratch.pos := by rw [hcur, toNat_word_of_le hin]
  refine ⟨by omega, hpos.symm, ?_⟩
  rw [hlen]
  omega

theorem movesCursorForward_sigStep {s : State} (hs : s.scratch.pos = s.cursor.toNat) :
    MovesCursorForward s (sigStep s) := by
  rcases sigStep_cases s with ⟨e, n, h, -, hc⟩ | ⟨r, h⟩ | ⟨h8, -, h⟩ <;> rw [h]
  · exact ⟨le_rfl, hc⟩
  · trivial
  · rw [remaining_eq] at h8
    exact ⟨rfl, cursor_forward_of_written hs rfl rfl (Nat.le_add_right _ 8)
      (show s.scratch.pos + 8 ≤ s.srcLen.toNat by omega)⟩

/-- A recorded chunk lies within the SRC range, and CURSOR is past its end, whether or not its CRC agrees (R106, R112). -/
theorem movesCursorForward_chunkStep {s : State} (hs : s.scratch.pos = s.cursor.toNat) :
    MovesCursorForward s (chunkStep s) := by
  rcases chunkStep_cases s with ⟨e, n, h, -, hc⟩ | ⟨r, h⟩ | ⟨lf, tag, data, cf, -, -, -, -, -, hrem, -, h⟩ <;> rw [h]
  · exact ⟨le_rfl, hc⟩
  · trivial
  · rw [remaining_eq] at hrem
    have hpos : (chunkRecorded s lf tag data cf).scratch.pos = s.scratch.pos + 12 + beNat lf := rfl
    have ⟨hle, hin⟩ := cursor_forward_of_written (t := chunkRecorded s lf tag data cf) hs rfl rfl (by omega) (by omega)
    rcases compareCrc_cases s.scratch.pos (chunkRecorded s lf tag data cf) with ⟨-, h⟩ | ⟨-, -, h⟩ <;> rw [h]
    · exact ⟨rfl, hle, hin⟩
    · exact ⟨hle, by simp⟩

theorem movesCursorForward_walkLoop (fuel : Nat) (first : Bool) {s : State} (hs : s.scratch.pos = s.cursor.toNat) :
    MovesCursorForward s (walkLoop fuel first s) := by
  induction fuel generalizing first s with
  | zero => exact ⟨le_rfl, by simp⟩
  | succ k ih =>
    rw [walkLoop_succ]
    refine (movesCursorForward_chunkStep hs).andThen fun t ht => ?_
    split
    · exact ⟨le_rfl, by simp⟩
    · split
      · exact ⟨rfl, le_rfl, ht⟩
      · exact ih false ht.pos

/-- Settles O42: each command is the range check and then pieces that move CURSOR forward from the local cursor, taken from CURSOR. -/
theorem cursorOnlyMovesForward : Obligations.CursorOnlyMovesForward := by
  intro s t i hi h
  simp only [List.mem_cons, List.not_mem_nil, or_false] at hi
  rcases hi with rfl | rfl | rfl
  · refine (MovesCursorForward.afterSrcRangeCheck ?_).finish h
    exact movesCursorForward_sigStep (s := s.fromCursor) rfl
  · refine (MovesCursorForward.afterSrcRangeCheck ?_).finish h
    exact movesCursorForward_chunkStep (s := s.fromCursor) rfl
  · refine (MovesCursorForward.afterSrcRangeCheck ?_).finish h
    have hsig : MovesCursorForward s (sigStep ({ s with chkCount := 0#32 } : State).fromCursor) :=
      movesCursorForward_sigStep (s := ({ s with chkCount := 0#32 } : State).fromCursor) rfl
    exact hsig.andThen fun u hu => movesCursorForward_walkLoop u.walkFuel true hu.pos

end Sys2Proof.Machine
end

/-! ## Every step keeps the machine's invariant (spec/10_state.md R24, R31, R36, R42, R43, R50; spec/60_exceptions.md R200) -/

section

namespace Sys2Proof.Machine

open Sys2Proof

/-! ### The host's side, once for every statement about a delivered event -/

/-- An event that touches no register and nothing of the engine: at most memory, posted writes, where accesses are answered
with an error, the answer to the host and the draw counter change. -/
structure ActsOutside (s t : State) : Prop where
  eq : t = { s with mem := t.mem, hostBuf := t.hostBuf, memErrors := t.memErrors, inputs := t.inputs,
                    response := t.response, draws := t.draws }
  memWf : Memory.wf s.mem = true → Memory.wf t.mem = true
  postedWf : (∀ c ∈ s.hostBuf, c.1 < 0x100000000) → ∀ c ∈ t.hostBuf, c.1 < 0x100000000

theorem actsOutside_respond (s : State) (r : Response) : ActsOutside s (s.respond r) := ⟨rfl, id, id⟩

theorem actsOutside_regRead (s : State) (off : BitVec 7) (width : Nat) : ActsOutside s (s.regRead off width) := by
  rcases regRead_cases s off width with ⟨r, h⟩ | h <;> rw [h] <;> exact ⟨rfl, id, id⟩

theorem actsOutside_hostAccess {s t k : State} {writes : Bool} {a : Nat}
    (hk : s.reachable a = true → ActsOutside s k) (h : hostAccess s writes a k = .next t) : ActsOutside s t := by
  rcases hostAccess_cases s writes a k with ⟨f, h'⟩ | ⟨r, h'⟩ | ⟨hr, -, h'⟩ <;> rw [h'] at h <;> cases h
  · exact actsOutside_respond s _
  · exact hk hr

theorem actsOutside_memWritten {s : State} {a : Nat} (h : s.reachable a = true) (b : Byte) :
    ActsOutside s (s.memWritten a b) :=
  ⟨rfl, fun hw => Memory.write_wf hw (reachable_lt h) b, fun hp c hc => hp c (List.mem_filter.mp hc).1⟩

theorem actsOutside_memPost (s : State) (a : Word) (b : Byte) :
    ActsOutside s { s with hostBuf := s.hostBuf ++ [(a.toNat, b)], response := .done } := by
  refine ⟨rfl, id, fun hp c hc => ?_⟩
  rcases List.mem_append.mp hc with hc | hc
  · exact hp c hc
  · rw [List.mem_singleton.mp hc]
    exact a.isLt

theorem actsOutside_drainOne {s t : State} (h : drainOne s = .next t) : ActsOutside s t := by
  unfold drainOne at h
  split at h
  · cases h
    exact actsOutside_respond s .done
  · next a b rest hb =>
    refine actsOutside_hostAccess (fun hr => ?_) h
    refine ⟨rfl, fun hw => Memory.write_wf hw (reachable_lt hr) b, fun hp c hc => ?_⟩
    exact hp c (by rw [hb]; exact List.mem_cons_of_mem _ hc)

/-- What a delivered event can do. -/
theorem deliver_cases {e : Event} {s t : State} (h : deliver e s = .next t) :
    ActsOutside s t ∨
      (s.isBusy = true ∧ t = ({ s with rejected := true } : State).respond .done) ∨
      (∃ r v, s.rst = false ∧ (s.isBusy = true → r.refusedWhileBusy = false) ∧
        t = (s.writeReg r v).respond .done) ∨
      t = s.assertReset ∨ t = s.releaseReset := by
  cases e with
  | regRead off width => cases h; exact .inl (actsOutside_regRead s off width)
  | regWrite off width v =>
    cases h
    rcases regWrite_cases s off width v with ⟨-, h⟩ | h | ⟨hb, h⟩ | ⟨r, hr, -, hb, h⟩
    · exact .inl (h ▸ actsOutside_respond s _)
    · exact .inl (h ▸ actsOutside_respond s _)
    · exact .inr (.inl ⟨hb, h⟩)
    · exact .inr (.inr (.inl ⟨r, v, hr, hb, h⟩))
  | memRead a => exact .inl (actsOutside_hostAccess (fun _ => actsOutside_respond s _) h)
  | memWrite a b => exact .inl (actsOutside_hostAccess (fun hr => actsOutside_memWritten hr b) h)
  | memPost a b => exact .inl (actsOutside_hostAccess (fun _ => actsOutside_memPost s a b) h)
  | drain => exact .inl (actsOutside_drainOne h)
  | memErrors rs => cases h; exact .inl ⟨rfl, id, id⟩
  | engine g => cases h; exact .inl ⟨rfl, id, id⟩
  | assertReset => cases h; exact .inr (.inr (.inr (.inl rfl)))
  | releaseReset => cases h; exact .inr (.inr (.inr (.inr rfl)))

/-- To take an event off the list is an event outside the registers too. -/
theorem actsOutside_inputs (s : State) (rest : List Event) : ActsOutside s { s with inputs := rest } := ⟨rfl, id, id⟩

/-! ### The invariant under a delivered event -/

theorem BlockInv.actsOutside {s t : State} (h : BlockInv s) (ht : ActsOutside s t) : BlockInv t := by
  have hm := ht.memWf h.memWf
  have hp := ht.postedWf h.postedWf
  rw [ht.eq] at hm hp ⊢
  refine ⟨hm, hp, h.ctrlReserved, h.fmtReserved, h.flagsReserved, fun hr => ?_, h.idleScratch, h.busyStatus, h.okNoInfo,
    h.errorNoOutput⟩
  conv_lhs => rw [h.resetHeld hr]
  rfl

/-- `rst` is not asserted while a command runs. -/
theorem BlockInv.rst_of_busy {s : State} (h : BlockInv s) (hb : s.engine ≠ .idle) : s.rst = false := by
  by_contra hr
  exact hb (congrArg State.engine (h.resetHeld (by simpa using hr)))

/-- The registers no clause but those of their reserved bits speaks of, while `rst` is released. -/
theorem BlockInv.withOperands {s : State} (h : BlockInv s) (hr : s.rst = false) {ctrl fmt : Word}
    (hc : ctrl.toNat < 8) (hf : fmt.toNat < 0x1000000) (rej : Bool) (srcA srcL dstA dstL cur w ht : Word) :
    BlockInv { s with ctrl := ctrl, imgFmt := fmt, rejected := rej, srcAddr := srcA, srcLen := srcL, dstAddr := dstA,
                      dstLen := dstL, cursor := cur, imgWidth := w, imgHeight := ht } :=
  ⟨h.memWf, h.postedWf, hc, hf, h.flagsReserved, fun hr' => absurd (hr.symm.trans hr') (by simp), h.idleScratch,
    h.busyStatus, h.okNoInfo, h.errorNoOutput⟩

theorem BlockInv.accept {s : State} (h : BlockInv s) (hr : s.rst = false) (w : Word) : BlockInv (s.accept w) :=
  ⟨h.memWf, h.postedWf, h.ctrlReserved, h.fmtReserved, h.flagsReserved,
    fun hr' => absurd (hr.symm.trans hr') (by simp), fun _ => rfl, fun _ => ⟨rfl, rfl, rfl⟩, fun _ => ⟨rfl, rfl, rfl⟩,
    fun _ => rfl⟩

theorem BlockInv.ack {s : State} (h : BlockInv s) (hr : s.rst = false) (v : Word) : BlockInv (s.ack v) := by
  refine ⟨h.memWf, h.postedWf, h.ctrlReserved, h.fmtReserved, h.flagsReserved,
    fun hr' => absurd (hr.symm.trans hr') (by simp), h.idleScratch, fun hb => ?_, h.okNoInfo, h.errorNoOutput⟩
  obtain ⟨hd, hc, ho⟩ := h.busyStatus hb
  exact ⟨by simp [hd], hc, ho⟩

theorem ctrlMask_lt (v : Word) : (v &&& ctrlMask).toNat < 8 := by
  rw [BitVec.toNat_and]
  exact Nat.lt_of_le_of_lt Nat.and_le_right (by decide)

theorem imgFmtMask_lt (v : Word) : (v &&& imgFmtMask).toNat < 0x1000000 := by
  rw [BitVec.toNat_and]
  exact Nat.lt_of_le_of_lt Nat.and_le_right (by decide)

theorem BlockInv.writeReg {s : State} (h : BlockInv s) (hr : s.rst = false) (r : Reg) (v : Word) :
    BlockInv (s.writeReg r v) := by
  cases r with
  | cmd => exact h.accept hr v
  | status => exact h.ack hr v
  | ctrl => exact h.withOperands hr (ctrlMask_lt v) h.fmtReserved ..
  | imgFmt => exact h.withOperands hr h.ctrlReserved (imgFmtMask_lt v) ..
  | srcAddr | srcLen | dstAddr | dstLen | cursor | imgWidth | imgHeight =>
    exact h.withOperands hr h.ctrlReserved h.fmtReserved ..
  | id | bpp | rowBytes | chkLen | chkType | chkFlags | chkDataOff | chkCrcRx | chkCrcCalc | chkCount
  | errInfo0 | errInfo1 | errInfo2 | outLen => exact h

/-- Whatever the registers were, a reset leaves a state that meets the invariant. -/
theorem blockInv_resetRegisters {s : State} (hm : Memory.wf s.mem = true) (hp : ∀ c ∈ s.hostBuf, c.1 < 0x100000000) :
    BlockInv { s.resetRegisters with rst := true } :=
  ⟨hm, hp, show State.reset.ctrl.toNat < 8 by decide, show State.reset.imgFmt.toNat < 0x1000000 by decide,
    show State.reset.chkFlags.toNat < 16 by decide, fun _ => rfl, fun _ => rfl, fun hb => absurd rfl hb,
    fun _ => ⟨rfl, rfl, rfl⟩, fun _ => rfl⟩

theorem BlockInv.assertReset {s : State} (h : BlockInv s) : BlockInv s.assertReset := by
  rcases assertReset_cases s with ⟨-, hs⟩ | ⟨-, hs⟩ <;> rw [hs]
  · exact blockInv_resetRegisters h.memWf h.postedWf
  · exact blockInv_resetRegisters (drawDst_wf h.memWf) fun c hc => h.postedWf c (List.mem_filter.mp hc).1

theorem BlockInv.releaseReset {s : State} (h : BlockInv s) : BlockInv s.releaseReset :=
  ⟨h.memWf, h.postedWf, h.ctrlReserved, h.fmtReserved, h.flagsReserved, fun hr => absurd hr (by simp),
    h.idleScratch, h.busyStatus, h.okNoInfo, h.errorNoOutput⟩

theorem BlockInv.deliver {e : Event} {s t : State} (h : BlockInv s) (ht : deliver e s = .next t) : BlockInv t := by
  rcases deliver_cases ht with ha | ⟨hb, rfl⟩ | ⟨r, v, hr, -, rfl⟩ | rfl | rfl
  · exact h.actsOutside ha
  · exact (h.withOperands (h.rst_of_busy (isBusy_eq_true.mp hb)) h.ctrlReserved h.fmtReserved ..).actsOutside
      (actsOutside_respond _ .done)
  · exact (h.writeReg hr r v).actsOutside (actsOutside_respond _ .done)
  · exact h.assertReset
  · exact h.releaseReset

/-! ### The invariant under an engine turn -/

/-- An engine turn that leaves the machine in a next state does nothing (idle), ends at once (an illegal word), or ends like
a command. -/
theorem engineTurn_post {g : Grain} {s t : State} (h : engineTurn g s = .next t) :
    (s.engine = .idle ∧ t = s) ∨ (s.engine ≠ .idle ∧ ClosePost s t) := by
  rcases engineTurn_cases g s with ⟨he, h'⟩ | ⟨w, he, h'⟩
  · rw [h'] at h
    cases h
    exact .inl ⟨he, rfl⟩
  refine .inr ⟨by simp [he], ?_⟩
  rcases h' with ⟨-, ⟨i, -, h'⟩ | h'⟩ | ⟨sc, hs, -⟩
  · rw [h'] at h
    split at h
    · refine close_post ?_ h
      unfold enterRows
      split
      · exact mid_startRows _ _ s
      · exact mid_startRows _ _ s
    · exact exec_post h
  · rw [h'] at h
    cases h
    exact ⟨s, Midway.refl s, .inr (.inr (.inr ⟨_, by simp, rfl⟩))⟩
  · rw [turn_row he hs] at h
    exact close_post (mid_rowStep s) h

/-- Midway through a command nothing the invariant speaks of has changed but memory, posted writes and CHK_FLAGS. -/
theorem BlockInv.midway {s u : State} (h : BlockInv s) (hb : s.engine ≠ .idle) (m : Midway s u) : BlockInv u := by
  have hu : u.engine ≠ .idle := by rwa [m.engine]
  refine ⟨m.wf h.memWf, fun c hc => h.postedWf c (m.posted c hc), ?_, ?_, m.flags h.flagsReserved, fun hr => ?_,
    fun hi => absurd hi hu, fun _ => ?_, fun hc => ?_, fun hc => ?_⟩
  · rw [m.ops.ctrl]; exact h.ctrlReserved
  · rw [m.ops.imgFmt]; exact h.fmtReserved
  · rw [m.ops.rst, h.rst_of_busy hb] at hr; cases hr
  · rw [m.done, m.code, m.outLen]; exact h.busyStatus hb
  · rw [m.e0, m.e1, m.e2]; exact h.okNoInfo (m.code.symm.trans hc)
  · rw [m.outLen]; exact h.errorNoOutput (m.code ▸ hc)

/-- The end of a command without error, with or without OUT_LEN and fewer posted writes. -/
theorem BlockInv.completed {s : State} (h : BlockInv s) (hb : s.engine ≠ .idle) (out : Word) {buf : List Host.Cell}
    (hp : ∀ c ∈ buf, c ∈ s.hostBuf) : BlockInv ({ s with outLen := out, hostBuf := buf } : State).complete :=
  ⟨h.memWf, fun c hc => h.postedWf c (hp c hc), h.ctrlReserved, h.fmtReserved, h.flagsReserved,
    fun hr => absurd ((h.rst_of_busy hb).symm.trans hr) (by simp), fun _ => rfl, fun hb' => absurd rfl hb',
    fun _ => h.okNoInfo (h.busyStatus hb).2.1, fun hc => absurd rfl hc⟩

/-- OUT_LEN is 0 after an error, for it was 0 since acceptance (R43, R200). -/
theorem BlockInv.raise {s : State} (h : BlockInv s) (hb : s.engine ≠ .idle) {e : Error} (he : e.code ≠ .ok) :
    BlockInv (s.raise e) :=
  ⟨h.memWf, h.postedWf, h.ctrlReserved, h.fmtReserved, h.flagsReserved,
    fun hr => absurd ((h.rst_of_busy hb).symm.trans hr) (by simp), fun _ => rfl, fun hb' => absurd rfl hb',
    fun hc => absurd hc he, fun _ => (h.busyStatus hb).2.2⟩

theorem BlockInv.closePost {s t : State} (h : BlockInv s) (hb : s.engine ≠ .idle) (ht : ClosePost s t) :
    BlockInv t := by
  obtain ⟨u, m, hu⟩ := ht
  have hmid := h.midway hb m
  have hub : u.engine ≠ .idle := by rwa [m.engine]
  rcases hu with ⟨sc, -, rfl⟩ | rfl | rfl | ⟨e, he, rfl⟩
  · exact hmid.completed hub (word sc.needOut) fun c hc => (List.mem_filter.mp hc).1
  · exact hmid.completed hub u.outLen fun _ hc => hc
  · exact hmid
  · exact hmid.raise hub he

theorem BlockInv.engineTurn {g : Grain} {s t : State} (h : BlockInv s) (ht : engineTurn g s = .next t) : BlockInv t := by
  rcases engineTurn_post ht with ⟨-, rfl⟩ | ⟨hb, hc⟩
  · exact h
  · exact h.closePost hb hc

/-- Settles O10: a delivered event keeps each clause, and every engine turn of a command ends in one of the ways of
`ClosePost`, each of which keeps it. -/
theorem stepKeepsInvariant : Obligations.StepKeepsInvariant := by
  intro s t h ht
  rcases step_cases s with ⟨-, hs⟩ | ⟨g, rest, -, hs⟩ | ⟨e, rest, -, -, hs⟩ <;> rw [hs] at ht
  · exact h.engineTurn ht
  · exact (h.actsOutside (actsOutside_inputs s rest)).engineTurn ht
  · exact (h.actsOutside (actsOutside_inputs s rest)).deliver ht

end Sys2Proof.Machine
end

/-! ## No step needs more of a line buffer than `MAX_ROW_BYTES` bytes (spec/10_state.md R49, spec/41_scanline_filter.md R145) -/

section

namespace Sys2Proof.Machine

open Sys2Proof

/-! ### What the bound depends on -/

/-- Between commands the line buffers are empty and no row is pending. -/
theorem lineBuffersFit_of_empty {t : State} (h : t.scratch = Scratch.empty) : LineBuffersFit t := by
  refine ⟨?_, ?_, fun sc hs => ?_⟩
  · rw [h]; exact Nat.zero_le _
  · rw [h]; exact Nat.zero_le _
  · rw [h] at hs; cases hs

/-- Only the hidden state, the parameter and IMG_FMT matter. -/
theorem LineBuffersFit.congr {s t : State} (h : LineBuffersFit s) (hs : t.scratch = s.scratch)
    (hp : t.params = s.params) (hf : t.imgFmt = s.imgFmt) : LineBuffersFit t := by
  refine ⟨?_, ?_, fun sc hsc => ?_⟩
  · rw [hs, hp]; exact h.prior
  · rw [hs, hp]; exact h.cur
  · rw [hp, hf]; exact h.images sc (hs ▸ hsc)

/-- PRIOR at the start of the next image is a row of that image, or empty (R153). -/
theorem freshPrior_length_le {fmt : Word} {images : List Image} {n : Nat}
    (h : ∀ g ∈ images, rowBytes fmt g.width ≤ n) : (freshPrior fmt images).length ≤ n := by
  cases images with
  | nil => exact Nat.zero_le n
  | cons g rest =>
    rw [freshPrior, zeroRow, List.length_replicate]
    exact h g (List.mem_cons_self ..)

/-! ### One row -/

/-- What a piece of a command's pseudocode that goes on hands on fits the line buffers. -/
def RunFits (r : Run) : Prop := ∀ t, r = .ok t → LineBuffersFit t

theorem RunFits.andThen {r : Run} {k : State → Run} (h : RunFits r) (hk : ∀ u, LineBuffersFit u → RunFits (k u)) :
    RunFits (r.andThen k) := by
  cases r with
  | ok u => exact hk u (h u rfl)
  | raised e u => intro t ht; cases ht
  | refused f => intro t ht; cases ht

/-- After a row the counters move on to a row of an image that was pending, and PRIOR is the row or zeros (R153). -/
theorem LineBuffersFit.endRow {s : State} {sc : Scan} {row : List Byte} (h : LineBuffersFit s)
    (hs : s.scratch.scan = some sc) (hr : row.length ≤ s.params.maxRowBytes) (used : Nat) :
    LineBuffersFit (s.endRow sc used row) := by
  have hnext : ∀ g ∈ (sc.next used row.length).images, rowBytes s.imgFmt g.width ≤ s.params.maxRowBytes :=
    fun g hg => h.images sc hs g (Scan.mem_next_images hg)
  refine ⟨?_, hr, fun sc' hs' => ?_⟩
  · simp only [State.endRow]
    split
    · exact freshPrior_length_le hnext
    · exact hr
  · obtain rfl := Option.some.inj hs'
    exact hnext

theorem LineBuffersFit.filterRow {s : State} (h : LineBuffersFit s) (pred : Predictor) : RunFits (filterRow pred s) := by
  intro t ht
  rcases filterRow_cases pred s with ⟨r, h'⟩ | ⟨sc, g, rest, row, hs, hi, -, hrow, -, h'⟩ <;> rw [h'] at ht <;> cases ht
  have hlen : row.length ≤ s.params.maxRowBytes := by
    rw [hrow, reconRow_length, engineBytes_length, List.length_nil, Nat.zero_add]
    exact h.images sc hs g (by rw [hi]; exact List.mem_cons_self ..)
  exact (h.congr (t := { s with mem := Memory.writeAll s.mem (rowCells s sc g row) }) rfl rfl rfl).endRow hs hlen _

theorem LineBuffersFit.rowStep {s : State} (h : LineBuffersFit s) : RunFits (rowStep s) := by
  rcases rowStep_cases s with ⟨r, h'⟩ | ⟨sc, g, rest, ft, -, -, -, h'⟩ | ⟨i, pred, -, -, h'⟩ <;> rw [h']
  · intro t ht; cases ht
  · intro t ht; cases ht
  · exact h.filterRow pred

theorem LineBuffersFit.runRows (n : Nat) {s : State} (h : LineBuffersFit s) : RunFits (runRows n s) := by
  induction n generalizing s with
  | zero => intro t ht; cases ht; exact h
  | succ k ih =>
    rw [runRows_succ]
    exact h.rowStep.andThen fun u hu => ih hu

/-! ### A command -/

/-- Check 6 bounds the rows of the whole image, and no pass is wider than the image. -/
theorem rowBytes_images_le {s : State} {i : Instr} (hc : s.checkReconstruction i = none)
    (hi : i = .unfilter ∨ i = .reconstruct) : ∀ g ∈ s.images, rowBytes s.imgFmt g.width ≤ s.params.maxRowBytes :=
  fun g hg => (rowBytes_mono s.imgFmt (images_width g hg)).trans (check_max hc hi)

theorem LineBuffersFit.startRows {s : State} (h : LineBuffersFit s) {i : Instr} (hi : i = .unfilter ∨ i = .reconstruct)
    (scatter : Bool) : RunFits (startRows i scatter s) := by
  intro t ht
  rcases startRows_cases i scatter s with ⟨e, -, h'⟩ | ⟨hc, h'⟩ <;> rw [h'] at ht <;> cases ht
  have himg := rowBytes_images_le hc hi
  refine ⟨freshPrior_length_le himg, h.cur, fun sc hs => ?_⟩
  obtain rfl := Option.some.inj hs
  exact himg

/-- A row loop that stops between rows fits, and a command that ends leaves the line buffers empty. -/
theorem RunFits.close {r : Run} {t : State} (h : RunFits r) (ht : r.close = .next t) : LineBuffersFit t := by
  rcases Run.close_eq_next ht with ⟨u, hu, rfl⟩ | ⟨e, u, -, rfl⟩
  · rcases closeRows_cases u with ⟨sc, -, -, hc⟩ | ⟨-, hc⟩ <;> rw [hc]
    · exact lineBuffersFit_of_empty rfl
    · exact h u hu
  · exact lineBuffersFit_of_empty rfl

theorem lineBuffersFit_finish {r : Run} {t : State} (ht : r.finish = .next t) : LineBuffersFit t := by
  rcases Run.finish_eq_next ht with ⟨u, -, rfl⟩ | ⟨e, u, -, rfl⟩
  · exact lineBuffersFit_of_empty rfl
  · exact lineBuffersFit_of_empty rfl

/-- DEINTERLACE is not bound by check 6 and needs no line buffer: it never stops between rows, so none is left pending. -/
theorem scratch_empty_of_execDeinterlace {s t : State} (hok : s.code = .ok) (ht : execDeinterlace s = .next t) :
    t.scratch = Scratch.empty := by
  obtain ⟨u, m, hu⟩ := exec_post (i := .deinterlace) ht
  rcases hu with ⟨sc, -, rfl⟩ | rfl | rfl | ⟨e, -, rfl⟩
  · rfl
  · rfl
  · obtain ⟨-, v, rfl, -⟩ := copy_next_ok ht (m.code.trans hok)
    rfl
  · rfl

theorem LineBuffersFit.exec {s t : State} {i : Instr} (h : LineBuffersFit s) (hok : s.code = .ok)
    (ht : exec i s = .next t) : LineBuffersFit t := by
  cases i with
  | nop => exact lineBuffersFit_finish (r := .ok s) ht
  | sig | chunk | walk | crc => exact lineBuffersFit_finish ht
  | unfilter => exact RunFits.close ((h.startRows (.inl rfl) _).andThen fun u hu => hu.runRows _) ht
  | reconstruct => exact RunFits.close ((h.startRows (.inr rfl) _).andThen fun u hu => hu.runRows _) ht
  | deinterlace => exact lineBuffersFit_of_empty (scratch_empty_of_execDeinterlace hok ht)
  | filterNone | filterSub | filterUp | filterAverage | filterPaeth => exact (h.filterRow _).close ht

/-! ### A step -/

theorem LineBuffersFit.engineTurn {g : Grain} {s t : State} (hinv : BlockInv s) (h : LineBuffersFit s)
    (ht : engineTurn g s = .next t) : LineBuffersFit t := by
  rcases engineTurn_cases g s with ⟨-, h'⟩ | ⟨w, he, ⟨-, ⟨i, -, h'⟩ | h'⟩ | ⟨sc, hs, -⟩⟩
  · rw [h'] at ht
    cases ht
    exact h
  · rw [h'] at ht
    split at ht
    · unfold enterRows at ht
      split at ht
      · exact (h.startRows (.inr rfl) _).close ht
      · exact (h.startRows (.inl rfl) _).close ht
    · exact h.exec (hinv.busyStatus (by simp [he])).2.1 ht
  · rw [h'] at ht
    cases ht
    exact lineBuffersFit_of_empty rfl
  · rw [turn_row he hs] at ht
    exact h.rowStep.close ht

/-- A register write leaves the parameter and, but for acceptance, the hidden state alone. -/
theorem writeReg_scratch (s : State) (r : Reg) (v : Word) :
    (s.writeReg r v).scratch = s.scratch ∨ (s.writeReg r v).scratch = Scratch.empty := by
  cases r with
  | cmd => exact .inr rfl
  | _ => exact .inl rfl

/-- IMG_FMT changes only between commands, when no row is pending (R46). -/
theorem LineBuffersFit.writeReg {s : State} (hinv : BlockInv s) (h : LineBuffersFit s) {r : Reg}
    (hr : s.isBusy = true → r.refusedWhileBusy = false) (v : Word) : LineBuffersFit (s.writeReg r v) := by
  by_cases hi : s.engine = .idle
  · refine lineBuffersFit_of_empty ?_
    rcases writeReg_scratch s r v with hs | hs
    · exact hs.trans (hinv.idleScratch hi)
    · exact hs
  · have hopen := hr (isBusy_eq_true.mpr hi)
    cases r with
    | ctrl | cmd | srcAddr | srcLen | dstAddr | dstLen | cursor | imgWidth | imgHeight | imgFmt => cases hopen
    | _ => exact h.congr rfl rfl rfl

theorem LineBuffersFit.deliver {e : Event} {s t : State} (hinv : BlockInv s) (h : LineBuffersFit s)
    (ht : deliver e s = .next t) : LineBuffersFit t := by
  rcases deliver_cases ht with ha | ⟨-, rfl⟩ | ⟨r, v, -, hr, rfl⟩ | rfl | rfl
  · exact h.congr (by rw [ha.eq]) (by rw [ha.eq]) (by rw [ha.eq])
  · exact h.congr rfl rfl rfl
  · exact (h.writeReg hinv hr v).congr rfl rfl rfl
  · refine lineBuffersFit_of_empty ?_
    rcases assertReset_cases s with ⟨-, hs⟩ | ⟨-, hs⟩ <;> rw [hs] <;> rfl
  · exact h.congr rfl rfl rfl

/-- Settles O11: check 6 admits every row of the image or of a pass when a row loop is entered, and a row carried forward is
as long as a pending one. -/
theorem rowsFitLineBuffers : Obligations.RowsFitLineBuffers := by
  intro s t hinv h ht
  rcases step_cases s with ⟨-, hs⟩ | ⟨g, rest, -, hs⟩ | ⟨e, rest, -, -, hs⟩ <;> rw [hs] at ht
  · exact h.engineTurn hinv ht
  · exact (h.congr (t := { s with inputs := rest }) rfl rfl rfl).engineTurn
      (hinv.actsOutside (actsOutside_inputs s rest)) ht
  · exact (h.congr (t := { s with inputs := rest }) rfl rfl rfl).deliver
      (hinv.actsOutside (actsOutside_inputs s rest)) ht

end Sys2Proof.Machine
end

/-! ## The fields of STATUS, of the derived registers and of a packed tag (spec/10_state.md R26, R32, R33, R36, R41) -/

section

namespace Sys2Proof.Machine

open Sys2Proof

/-! ### Bits of a word written as a sum -/

theorem bit_le (b : Bool) : bit b ≤ 1 := by cases b <;> decide

/-- A flag is read back from the bit it was packed into. -/
theorem getLsbD_eq_of_div {w : Word} {i : Nat} {b : Bool} (h : w.toNat / 2 ^ i % 2 = bit b) : w.getLsbD i = b := by
  rw [BitVec.getLsbD, Nat.testBit_eq_decide_div_mod_eq, h]
  cases b <;> decide

/-- A field is read back from the bits it was packed into. -/
theorem extractLsb'_eq_of_div {w : Word} {i n : Nat} {v : BitVec n} (h : w.toNat / 2 ^ i % 2 ^ n = v.toNat) :
    w.extractLsb' i n = v := by
  refine BitVec.eq_of_toNat_eq ?_
  rw [BitVec.extractLsb'_toNat, Nat.shiftRight_eq_div_pow, h]

/-! ### STATUS (R26, R90) -/

theorem statusWord_toNat (s : State) :
    s.statusWord.toNat =
      s.code.byte.toNat * 256 + bit s.rejected * 8 + bit s.isError * 4 + bit s.done * 2 + bit s.isBusy := by
  have := bit_le s.rejected
  have := bit_le s.isError
  have := bit_le s.done
  have := bit_le s.isBusy
  have := s.code.byte.isLt
  rw [State.statusWord, word, BitVec.toNat_ofNat]
  omega

/-- OK is the only code numbered 0 (R90). -/
theorem ResultCode.byte_eq_zero (c : ResultCode) : c.byte = 0#8 ↔ c = .ok := by cases c <;> decide

theorem isError_eq (s : State) : s.isError = decide (s.code ≠ .ok) := by
  simp [State.isError, ResultCode.byte_eq_zero]

/-- Every code with its number, as the table of R90 writes it. -/
def codeTable : List (ResultCode × Byte) :=
  [(.ok, 0x00#8), (.invalidFormat, 0x01#8), (.bufferOverflow, 0x02#8), (.truncatedStream, 0x03#8),
   (.outOfBounds, 0x04#8), (.crcMismatch, 0x05#8), (.ihdrNotFirst, 0x06#8), (.unsupportedFilter, 0x07#8),
   (.configError, 0x08#8), (.inputShort, 0x09#8), (.outputShort, 0x0A#8), (.illegalCommand, 0x0B#8)]

theorem byte_of_mem_codeTable : ∀ p ∈ codeTable, p.1.byte = p.2 := by decide

/-- Settles O21: STATUS is the sum of its fields, none of which carries into the next. -/
theorem statusBits : Obligations.StatusBits := by
  intro s
  have hsum := statusWord_toNat s
  have hrej := bit_le s.rejected
  have herr := bit_le s.isError
  have hdone := bit_le s.done
  have hbusy := bit_le s.isBusy
  have hcode := s.code.byte.isLt
  refine ⟨?_, ?_, ?_, ?_, ?_, ?_, isBusy_eq_true, fun code value hmem hc => ?_⟩
  · exact getLsbD_eq_of_div (by omega)
  · exact getLsbD_eq_of_div (by omega)
  · exact isError_eq s ▸ getLsbD_eq_of_div (by omega)
  · exact getLsbD_eq_of_div (by omega)
  · exact extractLsb'_eq_of_div (by rw [BitVec.toNat_ofNat]; omega)
  · exact extractLsb'_eq_of_div (by rw [BitVec.toNat_ofNat]; omega)
  · have hbyte : code.byte = value := byte_of_mem_codeTable (code, value) hmem
    rw [← hbyte, ← hc]
    exact extractLsb'_eq_of_div (by omega)

/-! ### BPP and ROW_BYTES (R32, R33, R140, R141) -/

/-- The three fields of IMG_FMT one above the other (R31). -/
theorem imgFmtOf_eq (d ct il : Nat) : imgFmtOf d ct il = word (d + 256 * (ct + 256 * il)) :=
  congrArg word (by ring)

theorem bitDepth_imgFmtOf {d : Nat} (hd : d < 256) (ct il : Nat) : bitDepth (imgFmtOf d ct il) = d := by
  rw [bitDepth, imgFmtOf_eq, BitVec.extractLsb'_toNat, word, BitVec.toNat_ofNat, Nat.shiftRight_eq_div_pow]
  omega

theorem colorType_imgFmtOf {d ct : Nat} (hd : d < 256) (hct : ct < 256) (il : Nat) :
    colorType (imgFmtOf d ct il) = ct := by
  rw [colorType, imgFmtOf_eq, BitVec.extractLsb'_toNat, word, BitVec.toNat_ofNat, Nat.shiftRight_eq_div_pow]
  omega

theorem colorTypeLegal_iff {ct : Nat} : colorTypeLegal ct = true ↔ ct ∈ [0, 2, 3, 4, 6] := by
  simp [colorTypeLegal, or_assoc]

theorem bitDepthLegal_iff {d : Nat} : bitDepthLegal d = true ↔ d ∈ [1, 2, 4, 8, 16] := by
  simp [bitDepthLegal, or_assoc]

/-- The legal colour types with their channel counts (R140). -/
def channelTable : List (Nat × Nat) := [(0, 1), (2, 3), (3, 1), (4, 2), (6, 4)]

theorem facts_of_mem_channelTable {ct ch : Nat} (h : (ct, ch) ∈ channelTable) :
    colorTypeLegal ct = true ∧ channels ct = ch ∧ ct < 256 ∧ 0 < ch ∧ ch ≤ 4 := by
  have table : ∀ p ∈ channelTable,
      colorTypeLegal p.1 = true ∧ channels p.1 = p.2 ∧ p.1 < 256 ∧ 0 < p.2 ∧ p.2 ≤ 4 := by decide
  exact table (ct, ch) h

theorem ceilDiv_eight (n : Nat) : ceilDiv n 8 = (n + 7) / 8 := rfl

/-- BPP is not 0 for a legal format, so ROW_BYTES is the row's length (R33). -/
theorem rowBytesRead_of_bppRead_ne_zero {fmt w : Word} (h : bppRead fmt ≠ 0#32) :
    rowBytesRead fmt w = word (min (rowBytes fmt w.toNat) 0xFFFFFFFF) := if_neg h

theorem bppRead_of_legal {fmt : Word} (hct : colorTypeLegal (colorType fmt) = true)
    (hd : bitDepthLegal (bitDepth fmt) = true) : bppRead fmt = word (bppOf fmt) := by
  simp [bppRead, hct, hd]

theorem bppRead_of_illegal {fmt : Word} (h : colorType fmt ∉ [0, 2, 3, 4, 6] ∨ bitDepth fmt ∉ [1, 2, 4, 8, 16]) :
    bppRead fmt = 0#32 := by
  rw [← colorTypeLegal_iff, ← bitDepthLegal_iff] at h
  rcases h with h | h <;> simp [bppRead, h]

theorem word_ne_zero {n : Nat} (h0 : 0 < n) (h : n < 0x100000000) : word n ≠ 0#32 := by
  intro hw
  have := congrArg BitVec.toNat hw
  rw [word, BitVec.toNat_ofNat, BitVec.toNat_ofNat] at this
  omega

theorem rowBytes_of_channels {fmt : Word} {ch : Nat} (h : channels (colorType fmt) = ch) (w : Nat) :
    rowBytes fmt w = (w * ch * bitDepth fmt + 7) / 8 ∧ bppOf fmt = ch * ((bitDepth fmt + 7) / 8) := by
  rw [rowBytes, bppOf, h, ceilDiv_eight, ceilDiv_eight]
  exact ⟨rfl, rfl⟩

/-- Settles O22: the two registers read what R140 and R141 give for a legal format, 0 for any other. -/
theorem derivedRegisters : Obligations.DerivedRegisters := by
  refine ⟨fun ct ch d il hmem hd _ w => ?_, fun fmt w h => ?_, fun fmt ct ch w hmem hct => ?_, fun fmt w h => ?_⟩
  · obtain ⟨hlegal, hch, hct, h0, h4⟩ := facts_of_mem_channelTable hmem
    have hd' : 0 < d ∧ d ≤ 16 := by
      simp only [List.mem_cons, List.not_mem_nil, or_false] at hd
      omega
    have hdepth := bitDepth_imgFmtOf (show d < 256 by omega) ct il
    have htype := colorType_imgFmtOf (show d < 256 by omega) hct il
    obtain ⟨hrow, hbpp⟩ := rowBytes_of_channels (fmt := imgFmtOf d ct il) (ch := ch) (by rw [htype, hch]) w.toNat
    rw [hdepth] at hrow hbpp
    have hread : bppRead (imgFmtOf d ct il) = word (ch * ((d + 7) / 8)) := by
      rw [← hbpp]
      exact bppRead_of_legal (by rw [htype]; exact hlegal) (by rw [hdepth]; exact bitDepthLegal_iff.mpr hd)
    have hne : bppRead (imgFmtOf d ct il) ≠ 0#32 := by
      rw [hread]
      refine word_ne_zero (Nat.mul_pos h0 (by omega)) ?_
      exact lt_of_le_of_lt (Nat.mul_le_mul h4 (show (d + 7) / 8 ≤ 2 by omega)) (by decide)
    exact ⟨hread, by rw [rowBytesRead_of_bppRead_ne_zero hne, hrow]⟩
  · have hzero := bppRead_of_illegal h
    exact ⟨hzero, if_pos hzero⟩
  · obtain ⟨-, hch, -⟩ := facts_of_mem_channelTable hmem
    exact rowBytes_of_channels (by rw [hct, hch]) w
  · rcases h with h | h
    · exact rowBytes_deep (by rw [h]; rfl) (by omega) w
    · exact rowBytes_deep (by rw [h]; rfl) (by omega) w

/-! ### A packed tag and its flags (R41, R103) -/

theorem be32_toNat (a b c d : Byte) :
    (be32 [a, b, c, d]).toNat = ((a.toNat * 256 + b.toNat) * 256 + c.toNat) * 256 + d.toNat := by
  have := a.isLt
  have := b.isLt
  have := c.isLt
  have := d.isLt
  simp only [be32, beNat, List.foldl_cons, List.foldl_nil, BitVec.toNat_ofNat]
  omega

/-- A byte string one byte longer, most significant byte first. -/
theorem toNat_append_byte {n : Nat} (x : BitVec n) (b : Byte) : (x ++ b).toNat = x.toNat * 256 + b.toNat := by
  rw [BitVec.toNat_append, ← Nat.shiftLeft_add_eq_or_of_lt b.isLt, Nat.shiftLeft_eq]

theorem tagFlags_toNat (a b c d : Byte) :
    (tagFlags [a, b, c, d]).toNat =
      bit (a.getLsbD 5) + 2 * bit (b.getLsbD 5) + 4 * bit (c.getLsbD 5) + 8 * bit (d.getLsbD 5) := by
  have := bit_le (a.getLsbD 5)
  have := bit_le (b.getLsbD 5)
  have := bit_le (c.getLsbD 5)
  have := bit_le (d.getLsbD 5)
  simp only [tagFlags, word, List.getD_cons_zero, List.getD_cons_succ, BitVec.toNat_ofNat]
  omega

/-- Settles O35: both words are sums of fields that do not overlap. -/
theorem tagPackingAndFlags : Obligations.TagPackingAndFlags := by
  intro a b c d
  have hflags := tagFlags_toNat a b c d
  have ha := bit_le (a.getLsbD 5)
  have hb := bit_le (b.getLsbD 5)
  have hc := bit_le (c.getLsbD 5)
  have hd := bit_le (d.getLsbD 5)
  refine ⟨?_, ?_, ?_, ?_, ?_, ?_⟩
  · refine BitVec.eq_of_toNat_eq ?_
    rw [be32_toNat, toNat_append_byte, toNat_append_byte, toNat_append_byte]
  · exact getLsbD_eq_of_div (by omega)
  · exact getLsbD_eq_of_div (by omega)
  · exact getLsbD_eq_of_div (by omega)
  · exact getLsbD_eq_of_div (by omega)
  · exact extractLsb'_eq_of_div (by rw [BitVec.toNat_ofNat]; omega)

end Sys2Proof.Machine
end

/-! ## The register port (spec/10_state.md R22 to R31, R44 to R47) -/

section

namespace Sys2Proof.Machine

open Sys2Proof

/-! ### The register map -/

/-- No two registers share an offset. -/
@[simp] theorem regAt_offset (r : Reg) : regAt r.offset = some r := by cases r <;> rfl

theorem offset_mod_four (r : Reg) : r.offset % 4 = 0 := by cases r <;> rfl

theorem unmappedOffsets_facts : ∀ n ∈ unmappedOffsets, n % 4 = 0 ∧ regAt n = none := by decide

theorem accessAdmitted_of_aligned {off : BitVec 7} (h : off.toNat % 4 = 0) : accessAdmitted off 32 = true := by
  simp [accessAdmitted, h]

theorem accessAdmitted_of_mapped {r : Reg} {off : BitVec 7} (h : r.offset = off.toNat) :
    accessAdmitted off 32 = true :=
  accessAdmitted_of_aligned (h ▸ offset_mod_four r)

/-- The values the register map lists are those of its registers. -/
theorem regValues_eq (s : State) : regValues s = allRegs.map fun r => (r.offset, s.readReg r) := rfl

theorem mem_regValues {s : State} {n : Nat} {v : Word} (h : (n, v) ∈ regValues s) :
    ∃ r : Reg, r.offset = n ∧ s.readReg r = v := by
  rw [regValues_eq] at h
  obtain ⟨r, -, hr⟩ := List.mem_map.mp h
  exact ⟨r, congrArg Prod.fst hr, congrArg Prod.snd hr⟩

/-! ### A register access -/

theorem step_regWrite {s t : State} {off : BitVec 7} {width : Nat} {v : Word} {rest : List Event}
    (hi : s.inputs = .regWrite off width v :: rest)
    (ht : ({ s with inputs := rest } : State).regWrite off width v = t) : step s = .next t := by
  simp only [step, hi, deliver, ht]

theorem step_regRead {s t : State} {off : BitVec 7} {width : Nat} {rest : List Event}
    (hi : s.inputs = .regRead off width :: rest)
    (ht : ({ s with inputs := rest } : State).regRead off width = t) : step s = .next t := by
  simp only [step, hi, deliver, ht]

section
variable {s : State} {off : BitVec 7} {r : Reg}

theorem regWrite_of_unmapped (hr : s.rst = false) (ho : off.toNat % 4 = 0) (hn : regAt off.toNat = none) (v : Word) :
    s.regWrite off 32 v = s.respond .done := by
  simp [State.regWrite, accessAdmitted_of_aligned ho, hr, hn]

theorem regWrite_of_mapped (hr : s.rst = false) (ho : r.offset = off.toNat)
    (hb : (s.isBusy && r.refusedWhileBusy) = false) (v : Word) :
    s.regWrite off 32 v = (s.writeReg r v).respond .done := by
  simp only [State.regWrite, accessAdmitted_of_mapped ho, hr, ← ho, regAt_offset, hb, Bool.not_true,
    Bool.false_eq_true, if_false]

theorem regWrite_of_refused (hr : s.rst = false) (ho : r.offset = off.toNat)
    (hb : (s.isBusy && r.refusedWhileBusy) = true) (v : Word) :
    s.regWrite off 32 v = ({ s with rejected := true } : State).respond .done := by
  simp only [State.regWrite, accessAdmitted_of_mapped ho, hr, ← ho, regAt_offset, hb, Bool.not_true,
    Bool.false_eq_true, if_false, if_true]

theorem regRead_of_unmapped (hr : s.rst = false) (ho : off.toNat % 4 = 0) (hn : regAt off.toNat = none) :
    s.regRead off 32 = s.respond (.word 0#32) := by
  simp [State.regRead, accessAdmitted_of_aligned ho, hr, hn]

theorem regRead_of_mapped (hr : s.rst = false) (ho : r.offset = off.toNat)
    (hb : (s.isBusy && r.openWhileBusy) = false) : s.regRead off 32 = s.respond (.word (s.readReg r)) := by
  simp only [State.regRead, accessAdmitted_of_mapped ho, hr, ← ho, regAt_offset, hb, Bool.not_true,
    Bool.false_eq_true, if_false]

theorem regRead_of_open (hr : s.rst = false) (ho : r.offset = off.toNat)
    (hb : (s.isBusy && r.openWhileBusy) = true) : s.regRead off 32 = s.respondFree := by
  simp only [State.regRead, accessAdmitted_of_mapped ho, hr, ← ho, regAt_offset, hb, Bool.not_true,
    Bool.false_eq_true, if_false, if_true]

end

/-- Between commands no access is refused and none is answered by a free value. -/
theorem isBusy_and_of_idle {s : State} (h : s.engine = .idle) (b : Bool) : (s.isBusy && b) = false := by
  simp [State.isBusy, h]

/-! ### Writes -/

/-- The offsets of the ten registers of R46. -/
theorem refused_of_mem :
    ∀ off ∈ [0x04#7, 0x08#7, 0x10#7, 0x14#7, 0x18#7, 0x1C#7, 0x20#7, 0x24#7, 0x28#7, 0x2C#7],
      ∃ r ∈ allRegs, r.offset = off.toNat ∧ r.refusedWhileBusy = true := by decide

/-- Settles O14: each of the ten offsets is that of a register refused while BUSY = 1. -/
theorem busyWritesAreRefused : Obligations.BusyWritesAreRefused := by
  intro s off v rest hr hb hmem hi
  obtain ⟨r, -, ho, href⟩ := refused_of_mem off hmem
  have hbusy := Bool.and_eq_true_iff.mpr ⟨isBusy_eq_true.mpr hb, href⟩
  exact step_regWrite hi (regWrite_of_refused (s := { s with inputs := rest }) hr ho hbusy v)

/-- The registers that ignore a write (R45). -/
def readOnlyRegs : List Reg :=
  [.id, .bpp, .rowBytes, .chkLen, .chkType, .chkFlags, .chkDataOff, .chkCrcRx, .chkCrcCalc, .chkCount, .errInfo0,
   .errInfo1, .errInfo2, .outLen]

theorem readOnly_of_mem : ∀ n ∈ [0x00, 0x30, 0x34, 0x40, 0x44, 0x48, 0x4C, 0x50, 0x54, 0x58, 0x60, 0x64, 0x68, 0x70],
    ∃ r ∈ readOnlyRegs, r.offset = n := by decide

theorem readOnly_not_refused : ∀ r ∈ readOnlyRegs, r.refusedWhileBusy = false := by decide

theorem writeReg_readOnly {r : Reg} (h : r ∈ readOnlyRegs) (s : State) (v : Word) : s.writeReg r v = s := by
  cases r with
  | ctrl | cmd | status | srcAddr | srcLen | dstAddr | dstLen | cursor | imgWidth | imgHeight | imgFmt =>
    exact absurd h (by decide)
  | _ => rfl

/-- Settles O15: no register there has a write of its own, and none is refused. -/
theorem readOnlyWritesAreIgnored : Obligations.ReadOnlyWritesAreIgnored := by
  intro s off v rest hr hmem hi
  rcases List.mem_append.mp hmem with hmem | hmem
  · obtain ⟨r, hro, ho⟩ := readOnly_of_mem off.toNat hmem
    have hw := regWrite_of_mapped (s := { s with inputs := rest }) hr ho
      (by rw [readOnly_not_refused r hro, Bool.and_false]) v
    rw [writeReg_readOnly hro] at hw
    exact step_regWrite hi hw
  · obtain ⟨ho, hn⟩ := unmappedOffsets_facts off.toNat hmem
    exact step_regWrite hi (regWrite_of_unmapped (s := { s with inputs := rest }) hr ho hn v)

theorem and_not_eq_ite (b c : Bool) : (b && !c) = if c then false else b := by cases c <;> simp

/-- Settles O16: STATUS takes a write whether or not a command runs, and only by its W1C bits. -/
theorem statusWriteClearsOnlyItsBits : Obligations.StatusWriteClearsOnlyItsBits := by
  intro s v rest hr hi
  rw [step_regWrite hi (regWrite_of_mapped (s := { s with inputs := rest }) (r := .status) hr rfl (Bool.and_false _) v)]
  simp only [State.writeReg, State.ack, State.respond, and_not_eq_ite]

/-- A write to a mapped register between commands. -/
theorem step_idleWrite {s : State} {r : Reg} {off : BitVec 7} {v : Word} {rest : List Event} (hr : s.rst = false)
    (he : s.engine = .idle) (ho : r.offset = off.toNat) (hi : s.inputs = .regWrite off 32 v :: rest) :
    step s = .next ((({ s with inputs := rest } : State).writeReg r v).respond .done) :=
  step_regWrite hi (regWrite_of_mapped (s := { s with inputs := rest }) hr ho (isBusy_and_of_idle he _) v)

theorem and_ctrlMask (v : Word) : v &&& ctrlMask = word (v.toNat % 8) := by
  refine BitVec.eq_of_toNat_eq ?_
  rw [BitVec.toNat_and, word, BitVec.toNat_ofNat, show ctrlMask.toNat = 2 ^ 3 - 1 from rfl, Nat.and_two_pow_sub_one_eq_mod]
  omega

theorem and_imgFmtMask (v : Word) : v &&& imgFmtMask = word (v.toNat % 0x1000000) := by
  refine BitVec.eq_of_toNat_eq ?_
  rw [BitVec.toNat_and, word, BitVec.toNat_ofNat, show imgFmtMask.toNat = 2 ^ 24 - 1 from rfl,
    Nat.and_two_pow_sub_one_eq_mod]
  omega

/-- Settles O17: between commands a write is the register's own, and the masks cut the reserved bits. -/
theorem idleWritesTakeTheValue : Obligations.IdleWritesTakeTheValue := by
  intro s v rest hr he
  refine ⟨fun hi => ?_, fun hi => ?_, fun hi => ?_, fun hi => ?_, fun hi => ?_, fun hi => ?_, fun hi => ?_, fun hi => ?_,
    fun hi => ?_⟩
  · rw [← and_ctrlMask]
    exact step_idleWrite (r := .ctrl) hr he rfl hi
  · exact step_idleWrite (r := .srcAddr) hr he rfl hi
  · exact step_idleWrite (r := .srcLen) hr he rfl hi
  · exact step_idleWrite (r := .dstAddr) hr he rfl hi
  · exact step_idleWrite (r := .dstLen) hr he rfl hi
  · exact step_idleWrite (r := .cursor) hr he rfl hi
  · exact step_idleWrite (r := .imgWidth) hr he rfl hi
  · exact step_idleWrite (r := .imgHeight) hr he rfl hi
  · rw [← and_imgFmtMask]
    exact step_idleWrite (r := .imgFmt) hr he rfl hi

/-! ### Reads -/

theorem readReg_inputs (s : State) (rest : List Event) (r : Reg) :
    ({ s with inputs := rest } : State).readReg r = s.readReg r := by cases r <;> rfl

/-- Settles O18: the offset is that of a register, whose value answers, or of none. -/
theorem idleReadsReturnRegisters : Obligations.IdleReadsReturnRegisters := by
  intro s off rest hr he hi
  refine ⟨fun v hv => ?_, fun hn => ?_⟩
  · obtain ⟨r, ho, rfl⟩ := mem_regValues hv
    rw [← readReg_inputs s rest]
    exact step_regRead hi (regRead_of_mapped (s := { s with inputs := rest }) hr ho (isBusy_and_of_idle he _))
  · obtain ⟨ho, hnone⟩ := unmappedOffsets_facts off.toNat hn
    exact step_regRead hi (regRead_of_unmapped (s := { s with inputs := rest }) hr ho hnone)

/-- The offsets of the registers that stay readable while a command runs (R47). -/
theorem stable_of_mem {r : Reg}
    (h : r.offset ∈ [0x00, 0x04, 0x08, 0x0C, 0x10, 0x14, 0x18, 0x1C, 0x24, 0x28, 0x2C, 0x30, 0x34]) :
    r.openWhileBusy = false := by
  revert h
  cases r <;> decide

theorem open_of_mem : ∀ n ∈ [0x20, 0x40, 0x44, 0x48, 0x4C, 0x50, 0x54, 0x58, 0x60, 0x64, 0x68, 0x70],
    ∃ r ∈ allRegs, r.offset = n ∧ r.openWhileBusy = true := by decide

/-- Settles O19: the two lists of offsets are those of the registers R47 keeps readable and of those it leaves open. -/
theorem busyReads : Obligations.BusyReads := by
  intro s off rest hr hb hi
  refine ⟨fun v hmem hv => ?_, fun hmem => ?_⟩
  · obtain ⟨r, ho, rfl⟩ := mem_regValues hv
    have hstable : r.openWhileBusy = false := stable_of_mem (ho ▸ hmem)
    rw [← readReg_inputs s rest]
    exact step_regRead hi (regRead_of_mapped (s := { s with inputs := rest }) hr ho (by rw [hstable, Bool.and_false]))
  · obtain ⟨r, -, ho, hopen⟩ := open_of_mem off.toNat hmem
    have hbusy := Bool.and_eq_true_iff.mpr ⟨isBusy_eq_true.mpr hb, hopen⟩
    exact step_regRead hi (regRead_of_open (s := { s with inputs := rest }) hr ho hbusy)

end Sys2Proof.Machine
end

/-! ## Register accesses that are not admitted, and that no step faults (spec/20_memory.md R62) -/

section

namespace Sys2Proof.Machine

open Sys2Proof

/-- What R62 excludes: another width, or an offset that is no multiple of 4. -/
theorem accessAdmitted_of_bad {off : BitVec 7} {width : Nat} (h : width ≠ 32 ∨ off.toNat % 4 ≠ 0) :
    accessAdmitted off width = false := by
  rcases h with h | h <;> simp [accessAdmitted, h]

theorem regWrite_of_not_admitted {off : BitVec 7} {width : Nat} (h : accessAdmitted off width = false) (s : State)
    (v : Word) : s.regWrite off width v = s.regAccessFault off width := by
  simp [State.regWrite, h]

theorem regRead_of_not_admitted {off : BitVec 7} {width : Nat} (h : accessAdmitted off width = false) (s : State) :
    s.regRead off width = s.regAccessFault off width := by
  simp [State.regRead, h]

/-- Settles O20: an access that is not admitted is answered before the register map or `rst` is looked at. -/
theorem badAccessIsABusError : Obligations.BadAccessIsABusError := by
  intro s off width v rest hbad hi
  have hna := accessAdmitted_of_bad hbad
  rcases hi with hi | hi
  · exact step_regRead hi (regRead_of_not_admitted hna _)
  · exact step_regWrite hi (regWrite_of_not_admitted hna _ v)

/-- Every instruction ends the way a piece of pseudocode does, in a next state or a refusal. -/
theorem exec_ne_fault (i : Instr) (s : State) (f : Fault) : exec i s ≠ .fault f := by
  cases i with
  | nop => exact Run.finish_ne_fault (.ok s) f
  | sig | chunk | walk | crc => exact Run.finish_ne_fault _ f
  | unfilter | deinterlace | reconstruct | filterNone | filterSub | filterUp | filterAverage | filterPaeth =>
    exact Run.close_ne_fault _ f

theorem engineTurn_ne_fault (g : Grain) (s : State) (f : Fault) : engineTurn g s ≠ .fault f := by
  rcases engineTurn_cases g s with ⟨-, h⟩ | ⟨w, -, ⟨-, ⟨i, -, h⟩ | h⟩ | ⟨sc, -, ⟨i, -, h⟩ | ⟨r, -, h⟩⟩⟩ <;> rw [h]
  · simp
  · split
    · exact Run.close_ne_fault _ f
    · exact exec_ne_fault i s f
  · simp
  · exact exec_ne_fault i s f
  · exact Run.close_ne_fault _ f

theorem hostAccess_ne_fault (s : State) (writes : Bool) (a : Nat) (k : State) (f : Fault) :
    hostAccess s writes a k ≠ .fault f := by
  rcases hostAccess_cases s writes a k with ⟨e, h⟩ | ⟨r, h⟩ | ⟨-, -, h⟩ <;> simp [h]

theorem drainOne_ne_fault (s : State) (f : Fault) : drainOne s ≠ .fault f := by
  unfold drainOne
  split
  · simp
  · exact hostAccess_ne_fault _ _ _ _ f

theorem deliver_ne_fault (e : Event) (s : State) (f : Fault) : deliver e s ≠ .fault f := by
  cases e with
  | regRead | regWrite | memErrors | engine | assertReset | releaseReset => simp [deliver]
  | memRead | memWrite | memPost => exact hostAccess_ne_fault _ _ _ _ f
  | drain => exact drainOne_ne_fault s f

/-- Settles O8: a delivered event answers a bus error in `response`, and an engine turn has no fault to end in. -/
theorem noStepFaults : Obligations.NoStepFaults := by
  intro s f
  rcases step_cases s with ⟨-, hs⟩ | ⟨g, rest, -, hs⟩ | ⟨e, rest, -, -, hs⟩ <;> rw [hs]
  · exact engineTurn_ne_fault .command s f
  · exact engineTurn_ne_fault g _ f
  · exact deliver_ne_fault e _ f

end Sys2Proof.Machine
end

/-! ## System memory and the host's writes (spec/20_memory.md R60, R71; spec/70_reset_and_hazards.md R242) -/

section

namespace Sys2Proof.Machine

open Sys2Proof

/-! ### The canonical form -/

theorem Memory.wfFrom_cons {lo a : Nat} {b : Byte} {m : Memory} :
    Memory.wfFrom lo ((a, b) :: m) = true ↔
      lo ≤ a ∧ a < 0x100000000 ∧ b ≠ Memory.unlisted ∧ Memory.wfFrom (a + 1) m = true := by
  simp [Memory.wfFrom, and_assoc]

/-- A memory whose first listed address is `a` differs at `a` from one that lists only addresses above it. -/
theorem Memory.read_head_ne {lo a : Nat} {b : Byte} {m m' : Memory} (h : Memory.wfFrom lo ((a, b) :: m) = true)
    (h' : Memory.wfFrom (a + 1) m' = true) : Memory.read ((a, b) :: m) a ≠ Memory.read m' a := by
  obtain ⟨-, -, hb, -⟩ := Memory.wfFrom_cons.mp h
  rwa [Memory.read_cons, if_pos rfl, Memory.read_of_lt h' (Nat.lt_succ_self a)]

/-- Canonical memories that read alike list the same first cell, and so on through the list. -/
theorem Memory.eq_of_read_eq {lo : Nat} {m m' : Memory} (h : Memory.wfFrom lo m = true)
    (h' : Memory.wfFrom lo m' = true) (hr : ∀ a, Memory.read m a = Memory.read m' a) : m = m' := by
  induction m generalizing lo m' with
  | nil =>
    cases m' with
    | nil => rfl
    | cons c' rest' => exact absurd (hr c'.1).symm (Memory.read_head_ne h' rfl)
  | cons c rest ih =>
    obtain ⟨a, b⟩ := c
    cases m' with
    | nil => exact absurd (hr a) (Memory.read_head_ne h rfl)
    | cons c' rest' =>
      obtain ⟨a', b'⟩ := c'
      obtain ⟨hlo, ha, hb, hrest⟩ := Memory.wfFrom_cons.mp h
      obtain ⟨hlo', ha', hb', hrest'⟩ := Memory.wfFrom_cons.mp h'
      rcases Nat.lt_trichotomy a a' with hlt | rfl | hgt
      · exact absurd (hr a) (Memory.read_head_ne h (Memory.wfFrom_cons.mpr ⟨hlt, ha', hb', hrest'⟩))
      · have hbb : b = b' := by simpa [Memory.read_cons] using hr a
        have htail : ∀ x, Memory.read rest x = Memory.read rest' x := by
          intro x
          by_cases hx : x ≤ a
          · rw [Memory.read_of_lt hrest (by omega), Memory.read_of_lt hrest' (by omega)]
          · have hne : x ≠ a := by omega
            simpa [Memory.read_cons, hne] using hr x
        rw [hbb, ih hrest hrest' htail]
      · exact absurd (hr a').symm (Memory.read_head_ne h' (Memory.wfFrom_cons.mpr ⟨hgt, ha, hb, hrest⟩))

/-- Settles O12: the canonical form lists exactly the addresses that read as something, in rising order. -/
theorem canonicalMemoryIsItsReads : Obligations.CanonicalMemoryIsItsReads :=
  fun _ _ h h' hr => Memory.eq_of_read_eq h h' hr

/-! ### A host write -/

/-- The posted writes to other addresses than `a` are those outside the one byte at `a`. -/
theorem withoutPosted_eq (s : State) (a : Nat) : s.withoutPosted a = postedOutside a 1 s.hostBuf :=
  List.filter_congr fun c _ => decide_eq_decide.mpr (by omega)

/-- A byte the host wrote with completion is what host and engine read; the host reads every other byte as before. -/
theorem memWritten_reads {s : State} (hw : Memory.wf s.mem = true) (a : Nat) (b : Byte) :
    (s.memWritten a b).engineByte a = b ∧ (s.memWritten a b).hostByte a = b ∧
      ∀ x, x ≠ a → Memory.read (s.memWritten a b).mem x = Memory.read s.mem x ∧
        (s.memWritten a b).hostByte x = s.hostByte x := by
  have hbuf : (s.memWritten a b).hostBuf = postedOutside a 1 s.hostBuf := withoutPosted_eq s a
  have hnp : (s.memWritten a b).posted a = false := not_posted_inside hbuf (by omega) (by omega)
  have hread : Memory.read (s.memWritten a b).mem a = b := (Memory.read_write hw a a b).trans (if_pos rfl)
  refine ⟨?_, ?_, fun x hx => ?_⟩
  · rw [engineByte_of_not_posted hnp, hread]
  · rw [hostByte_of_not_posted hnp, hread]
  · have hother : Memory.read (s.memWritten a b).mem x = Memory.read s.mem x := Memory.read_write_ne s.mem b hx
    exact ⟨hother, hostByte_postedOutside hbuf hother (by omega)⟩

/-- What a posted host write leaves, memory being untouched (R242). -/
def State.memPosted (s : State) (a : Nat) (b : Byte) : State :=
  { s with hostBuf := s.hostBuf ++ [(a, b)], response := .done }

/-- What the completion of the only posted write leaves. -/
def State.memDrained (s : State) (a : Nat) (b : Byte) : State :=
  { s with mem := Memory.write s.mem a b, hostBuf := [], response := .done }

theorem drainOne_of_reachable {s : State} {a : Nat} {b : Byte} (he : s.engine = .idle) (hr : s.reachable a = true)
    (hb : s.hostBuf = [(a, b)]) : drainOne s = .next (s.memDrained a b) := by
  unfold drainOne
  split
  · next h => rw [hb] at h; cases h
  · next h =>
    rw [hb] at h
    cases h
    exact hostAccess_of_reachable hr (hostMayNot_idle he true _) _

section
variable {s : State} {a : Word} {b : Byte} {rest : List Event}

/-! Between commands no host access to a byte that can be reached is refused (R240). -/

theorem step_memWrite (he : s.engine = .idle) (hr : s.reachable a.toNat = true)
    (hi : s.inputs = .memWrite a b :: rest) :
    step s = .next (({ s with inputs := rest } : State).memWritten a.toNat b) := by
  simp only [step, hi, deliver]
  exact hostAccess_of_reachable (s := { s with inputs := rest }) hr (hostMayNot_idle he true _) _

theorem step_memPost (he : s.engine = .idle) (hr : s.reachable a.toNat = true)
    (hi : s.inputs = .memPost a b :: rest) :
    step s = .next (({ s with inputs := rest } : State).memPosted a.toNat b) := by
  simp only [step, hi, deliver]
  exact hostAccess_of_reachable (s := { s with inputs := rest }) hr (hostMayNot_idle he true _) _

theorem step_drain (he : s.engine = .idle) (hr : s.reachable a.toNat = true) (hb : s.hostBuf = [(a.toNat, b)])
    (hi : s.inputs = .drain :: rest) :
    step s = .next (({ s with inputs := rest } : State).memDrained a.toNat b) := by
  simp only [step, hi, deliver]
  exact drainOne_of_reachable (s := { s with inputs := rest }) he hr hb

end

/-- The engine's byte is free while a write to it is posted; the host reads what it posted. -/
theorem memPosted_reads (s : State) (a : Nat) (b : Byte) :
    (s.memPosted a b).engineByte a = Config.freeByte s.draws a ∧ (s.memPosted a b).hostByte a = b := by
  simp [State.memPosted, State.engineByte, State.posted, State.hostByte]

theorem memDrained_engineByte {s : State} (hw : Memory.wf s.mem = true) (a : Nat) (b : Byte) :
    (s.memDrained a b).engineByte a = b := by
  rw [engineByte_of_not_posted rfl]
  exact (Memory.read_write hw a a b).trans (if_pos rfl)

/-- Settles O25: a completed write leaves nothing posted at its address, and a posted one stands alone in the write buffer
until it drains. -/
theorem hostWritesBecomeVisible : Obligations.HostWritesBecomeVisible := by
  intro s a b rest he hw hr
  refine ⟨fun hi => ⟨_, step_memWrite he hr hi, memWritten_reads hw a.toNat b⟩, fun hbuf hi => ?_⟩
  obtain ⟨hengine, hhost⟩ := memPosted_reads { s with inputs := .drain :: rest } a.toNat b
  have halone : (({ s with inputs := .drain :: rest } : State).memPosted a.toNat b).hostBuf = [(a.toNat, b)] := by
    simp [State.memPosted, hbuf]
  exact ⟨_, _, step_memPost he hr hi, step_drain he hr halone rfl, rfl, hengine, hhost, memDrained_engineByte hw _ b, rfl⟩

end Sys2Proof.Machine
end

/-! ## What NOP and the chunk validator leave alone (spec/20_memory.md R68, spec/30_encoding.md R82,
spec/60_exceptions.md R202, R203) -/

section

namespace Sys2Proof.Machine

open Sys2Proof

/-! ### How a command ends -/

/-- The command in progress in `u` ends in `t`, by `complete()` (R202) or `raise` (R203). -/
structure EndsIn (u t : State) : Prop where
  eq : t = { u with code := t.code, engine := .idle, done := true, scratch := Scratch.empty,
                    errInfo0 := t.errInfo0, errInfo1 := t.errInfo1, errInfo2 := t.errInfo2 }
  errInfo : t.code = .ok → KeepsErrInfo u t

theorem endsIn_complete (u : State) : EndsIn u u.complete := ⟨rfl, fun _ => ⟨rfl, rfl, rfl⟩⟩

theorem endsIn_raise {e : Error} (he : e.code ≠ .ok) (u : State) : EndsIn u (u.raise e) :=
  ⟨rfl, fun hok => absurd hok he⟩

/-- Every state that the piece hands on, or raises an error in, satisfies `P`. -/
def Run.Leaves (P : State → Prop) (r : Run) : Prop :=
  match r with
  | .ok t => P t
  | .raised e t => P t ∧ e.code ≠ .ok
  | .refused _ => True

theorem Run.Leaves.mono {P Q : State → Prop} {r : Run} (h : r.Leaves P) (hPQ : ∀ t, P t → Q t) : r.Leaves Q := by
  cases r with
  | ok t => exact hPQ t h
  | raised e t => exact ⟨hPQ t h.1, h.2⟩
  | refused f => trivial

theorem Run.Leaves.andThen {P : State → Prop} {r : Run} {k : State → Run} (h : r.Leaves P)
    (hk : ∀ t, P t → (k t).Leaves P) : (r.andThen k).Leaves P := by
  cases r with
  | ok t => exact hk t h
  | raised e t => exact h
  | refused f => trivial

theorem Run.Leaves.finish {P : State → Prop} {r : Run} {t : State} (h : r.Leaves P) (ht : r.finish = .next t) :
    ∃ u, P u ∧ EndsIn u t := by
  rcases Run.finish_eq_next ht with ⟨u, rfl, rfl⟩ | ⟨e, u, rfl, rfl⟩
  · exact ⟨u, h, endsIn_complete u⟩
  · exact ⟨u, h.1, endsIn_raise h.2 u⟩

/-- The range check changes nothing, so a command that starts with it leaves what its body leaves. -/
theorem Run.Leaves.afterSrcRangeCheck {P : State → Prop} {s : State} {k : State → Run} (h : (k s).Leaves P)
    (hs : P s) : ((srcRangeCheck s).andThen k).Leaves P := by
  by_cases hr : s.srcAddr.toNat + s.srcLen.toNat ≤ 0x100000000
  · rwa [srcRangeCheck_ok hr, Run.andThen_ok]
  · rw [srcRangeCheck_raised (by omega), Run.andThen_raised]
    exact ⟨hs, by simp [configError]⟩

theorem leaves_memRead {P : State → Prop} {s : State} {a n : Nat} {k : List Byte → Run} (h : ∀ bs, (k bs).Leaves P) :
    (memRead s a n k).Leaves P := by
  rcases memRead_cases s a n k with ⟨r, hr⟩ | ⟨-, hr⟩ <;> rw [hr]
  · trivial
  · exact h _

/-! ### What each command writes -/

/-- At most CURSOR and the hidden state differ. -/
def WritesCursor (s t : State) : Prop := t = { s with cursor := t.cursor, scratch := t.scratch }

/-- At most CHK_CRC_CALC and the hidden state differ. -/
def WritesCrcCalc (s t : State) : Prop := t = { s with chkCrcCalc := t.chkCrcCalc, scratch := t.scratch }

/-- At most CURSOR, the chunk result registers and the hidden state differ. -/
def WritesChunkRegs (s t : State) : Prop :=
  t = { s with
    cursor := t.cursor, chkLen := t.chkLen, chkType := t.chkType, chkFlags := t.chkFlags, chkDataOff := t.chkDataOff
    chkCrcRx := t.chkCrcRx, chkCrcCalc := t.chkCrcCalc, chkCount := t.chkCount, scratch := t.scratch }

theorem WritesCursor.chunkRegs {s t : State} (h : WritesCursor s t) : WritesChunkRegs s t := by
  unfold WritesChunkRegs
  rw [h]

theorem WritesCrcCalc.chunkRegs {s t : State} (h : WritesCrcCalc s t) : WritesChunkRegs s t := by
  unfold WritesChunkRegs
  rw [h]

theorem WritesChunkRegs.trans {s t u : State} (h : WritesChunkRegs s t) (k : WritesChunkRegs t u) :
    WritesChunkRegs s u := by
  refine Eq.trans k ?_
  rw [h]

theorem leaves_sigStep (s : State) : (sigStep s).Leaves (WritesCursor s) := by
  rcases sigStep_cases s with ⟨e, n, h, -, hc⟩ | ⟨r, h⟩ | ⟨-, -, h⟩ <;> rw [h]
  · exact ⟨rfl, hc⟩
  · trivial
  · exact rfl

theorem leaves_chunkStep (s : State) : (chunkStep s).Leaves (WritesChunkRegs s) := by
  rcases chunkStep_cases s with ⟨e, n, h, -, hc⟩ | ⟨r, h⟩ | ⟨lf, tag, data, cf, -, -, -, -, -, -, -, h⟩ <;> rw [h]
  · exact ⟨rfl, hc⟩
  · trivial
  · rcases compareCrc_cases s.scratch.pos (chunkRecorded s lf tag data cf) with ⟨-, h⟩ | ⟨-, -, h⟩ <;> rw [h]
    · exact rfl
    · exact ⟨rfl, by simp⟩

theorem leaves_walkLoop (fuel : Nat) (first : Bool) (s : State) :
    (walkLoop fuel first s).Leaves (WritesChunkRegs s) := by
  induction fuel generalizing first s with
  | zero => exact ⟨rfl, by simp⟩
  | succ k ih =>
    rw [walkLoop_succ]
    refine (leaves_chunkStep s).andThen fun t ht => ?_
    split
    · exact ⟨ht, by simp⟩
    · split
      · exact ht
      · exact (ih false t).mono fun u hu => ht.trans hu

/-- What each of the five commands may write before it ends. -/
def ValidatorWrites (i : Instr) (s t : State) : Prop :=
  match i with
  | .nop => t = s
  | .sig => WritesCursor s t
  | .crc => WritesCrcCalc s t
  | _ => WritesChunkRegs s t

theorem ValidatorWrites.chunkRegs {i : Instr} {s t : State} (h : ValidatorWrites i s t) : WritesChunkRegs s t := by
  cases i with
  | nop => exact h ▸ rfl
  | sig => exact WritesCursor.chunkRegs h
  | crc => exact WritesCrcCalc.chunkRegs h
  | _ => exact h

/-- Each command is the range check and then its pieces, from the local cursor taken from CURSOR or over the SRC range. -/
theorem exec_validator {i : Instr} {s t : State} (hi : i ∈ [Instr.nop, .sig, .chunk, .walk, .crc])
    (h : exec i s = .next t) : ∃ u, ValidatorWrites i s u ∧ EndsIn u t := by
  simp only [List.mem_cons, List.not_mem_nil, or_false] at hi
  rcases hi with rfl | rfl | rfl | rfl | rfl
  · exact Run.Leaves.finish (r := .ok s) (P := ValidatorWrites .nop s) rfl h
  · have hsig : (sigStep s.fromCursor).Leaves (WritesCursor s) := leaves_sigStep s.fromCursor
    exact (hsig.afterSrcRangeCheck (k := fun u => sigStep u.fromCursor) rfl).finish h
  · have hchunk : (chunkStep s.fromCursor).Leaves (WritesChunkRegs s) := leaves_chunkStep s.fromCursor
    exact (hchunk.afterSrcRangeCheck (k := fun u => chunkStep u.fromCursor) rfl).finish h
  · have hsig : (sigStep ({ s with chkCount := 0#32 } : State).fromCursor).Leaves (WritesChunkRegs s) :=
      (leaves_sigStep _).mono fun _ hu => hu.chunkRegs
    have hwalk := hsig.andThen fun u hu => (leaves_walkLoop u.walkFuel true u).mono fun _ hv => hu.trans hv
    exact (Run.Leaves.afterSrcRangeCheck (P := WritesChunkRegs s) (s := s) hwalk rfl).finish h
  · refine (Run.Leaves.afterSrcRangeCheck (P := WritesCrcCalc s) (s := s) ?_ rfl).finish h
    exact leaves_memRead fun bs => rfl

/-- Settles O43: the pieces of a command write only chunk registers and hidden state, and its end only the status fields and
the error information. -/
theorem validatorFrame : Obligations.ValidatorFrame := by
  intro s t i hi h
  obtain ⟨u, hu, ht⟩ := exec_validator hi h
  have hall := hu.chunkRegs
  refine ⟨?_, ?_, fun a => ?_, ?_, ?_, ?_, ?_, fun hok => ?_, ?_, ?_, ?_⟩
  · rw [ht.eq, hall]; constructor <;> rfl
  · rw [ht.eq, hall]
  · rw [ht.eq, hall]
  · rw [ht.eq, hall]
  · rw [ht.eq, hall]
  · rw [ht.eq]
  · rw [ht.eq]
  · obtain ⟨h0, h1, h2⟩ := ht.errInfo hok
    rw [hall] at h0 h1 h2
    exact ⟨h0, h1, h2⟩
  · rintro rfl
    rw [ht.eq, show u = s from hu]; constructor <;> rfl
  · rintro rfl
    rw [ht.eq, show WritesCursor s u from hu]; constructor <;> rfl
  · rintro rfl
    rw [ht.eq, show WritesCrcCalc s u from hu]; constructor <;> rfl

end Sys2Proof.Machine
end

/-! ## UNFILTER, DEINTERLACE and RECONSTRUCT: the finer grain, and what they leave alone (spec/20_memory.md R68, R73;
spec/60_exceptions.md R203, R207) -/

section

namespace Sys2Proof.Machine

open Sys2Proof

/-! ### The commands with filtered rows -/

/-- `i` is UNFILTER or RECONSTRUCT, and `b` says whether it scatters its rows (R160, R185). -/
def RowCommand (s : State) (i : Instr) (b : Bool) : Prop :=
  (i = .unfilter ∧ b = false) ∨ (i = .reconstruct ∧ b = decide (interlace s.imgFmt ≠ 0))

theorem exists_rowCommand (s : State) {i : Instr} (hi : i = .unfilter ∨ i = .reconstruct) : ∃ b, RowCommand s i b := by
  rcases hi with rfl | rfl
  · exact ⟨_, .inl ⟨rfl, rfl⟩⟩
  · exact ⟨_, .inr ⟨rfl, rfl⟩⟩

theorem RowCommand.enterRows_eq {s : State} {i : Instr} {b : Bool} (h : RowCommand s i b) :
    enterRows i s = startRows i b s := by
  rcases h with ⟨rfl, rfl⟩ | ⟨rfl, rfl⟩ <;> rfl

theorem RowCommand.exec_eq {s : State} {i : Instr} {b : Bool} (h : RowCommand s i b) :
    exec i s = ((startRows i b s).andThen fun s1 => runRows s1.rowsLeft s1).close := by
  rcases h with ⟨rfl, rfl⟩ | ⟨rfl, rfl⟩ <;> rfl

theorem rowsLeft_of_scan {s : State} {sc : Scan} (h : s.scratch.scan = some sc) : s.rowsLeft = sc.rowsLeft := by
  simp [State.rowsLeft, h]

theorem closeRows_of_images {s : State} {sc : Scan} (hs : s.scratch.scan = some sc) (hi : sc.images ≠ []) :
    closeRows s = s := by
  rcases closeRows_cases s with ⟨sc', hs', hi', -⟩ | ⟨-, h⟩
  · rw [hs] at hs'
    cases hs'
    exact absurd hi' hi
  · exact h

theorem closeRows_of_done {s : State} {sc : Scan} (hs : s.scratch.scan = some sc) (hi : sc.images = []) :
    closeRows s = s.completeOutput sc.needOut := by
  simp [closeRows, hs, hi]

/-- At scanline grain the turn that runs an accepted UNFILTER or RECONSTRUCT only enters its row loop (log 5). -/
theorem engineTurn_scanline {s : State} {w : Word} {i : Instr} (hi : i = .unfilter ∨ i = .reconstruct)
    (hd : decodeCommand w = .instr i) (he : s.engine = .busy w) (hs : s.scratch.scan = none) :
    engineTurn .scanline s = (enterRows i s).close := by
  have henters : entersRows .scanline i = true := by rcases hi with rfl | rfl <;> rfl
  simp [engineTurn, fetch, he, hs, fetchCommand, hd, henters]

/-- Settles O6: the checks raise in both grains alike, and after them the turns left run the loop's rows one by one. -/
theorem scanlineGrainRefinesCommand : Obligations.ScanlineGrainRefinesCommand := by
  intro s w i hi hd he hscratch
  obtain ⟨b, hb⟩ := exists_rowCommand s hi
  rw [engineTurn_scanline hi hd he (by rw [hscratch]; rfl), hb.enterRows_eq, hb.exec_eq]
  rcases startRows_cases i b s with ⟨e, -, hstart⟩ | ⟨hc, hstart⟩ <;> rw [hstart]
  · exact ⟨s.raise e, rfl, turns_idle _ _ rfl⟩
  · have l := loop_start hb hc
    have himages : (Scan.start s.images (s.needOut i) b).images ≠ [] := images_ne_nil hc
    obtain ⟨n, hn⟩ := Nat.exists_eq_succ_of_ne_zero fun h0 => himages (images_of_rowsLeft l.ok h0)
    refine ⟨_, congrArg Host.Outcome.next (closeRows_of_images l.scan himages), ?_⟩
    rw [Run.andThen_ok, rowsLeft_of_scan l.scan, hn]
    exact turns_rows n _ w _ he l.scan l.ok hn

/-! ### How a reconstruction command ends -/

/-- The command stored rows, all of them within the first `n` bytes of the DST range, and completed in `t`. -/
structure StoredRows (s : State) (n : Nat) (t : State) (es : List RowEntry) (u : State) : Prop where
  ends : t = u.completeOutput n
  stores : u = { s with
    scratch := u.scratch, mem := Memory.writeAll s.mem (es.flatMap fun e => rowCells s e.1 e.2.1 e.2.2) }
  inside : ∀ c ∈ es.flatMap fun e => rowCells s e.1 e.2.1 e.2.2, s.dstAddr.toNat ≤ c.1 ∧ c.1 < s.dstAddr.toNat + n
  fits : n ≤ s.dstLen.toNat

theorem KeepsChunkRegs.trans {a b c : State} (h : KeepsChunkRegs a b) (k : KeepsChunkRegs b c) : KeepsChunkRegs a c :=
  ⟨k.cursor.trans h.cursor, k.chkLen.trans h.chkLen, k.chkType.trans h.chkType, k.chkFlags.trans h.chkFlags,
    k.chkDataOff.trans h.chkDataOff, k.chkCrcRx.trans h.chkCrcRx, k.chkCrcCalc.trans h.chkCrcCalc,
    k.chkCount.trans h.chkCount⟩

/-- The command raised `e` in `u`, having changed at most hidden state, and for UNSUPPORTED_FILTER the DST range (R207). -/
structure RaisedIn (s : State) (e : Error) (u : State) : Prop where
  code : e.code ≠ .ok
  ops : KeepsOperands s u
  chunkRegs : KeepsChunkRegs s u
  outLen : u.outLen = s.outLen
  outside : ∀ a, OutsideDst s a → Memory.read u.mem a = Memory.read s.mem a
  posted : e.code = .unsupportedFilter → PostedOutsideOutput s s.dstLen.toNat u
  mem : e.code ≠ .unsupportedFilter → u.mem = s.mem ∧ u.hostBuf = s.hostBuf

theorem raisedIn_check {s : State} {i : Instr} {e : Error} (h : s.checkReconstruction i = some e) : RaisedIn s e s := by
  have hcode : e.code ≠ .unsupportedFilter := by
    rcases checkReconstruction_code h with h | h | h <;> simp [h]
  exact ⟨check_ne_ok h, KeepsOperands.refl s, by constructor <;> rfl, rfl, fun _ _ => rfl, fun hu => absurd hu hcode,
    fun _ => ⟨rfl, rfl⟩⟩

/-- A row loop entered in `v` that raises. -/
theorem raisedIn_runRows {s v u : State} {sc : Scan} {inMax m : Nat} {e : Error}
    (l : RowLoop s (filterUsed s.imgFmt) (filterGives s.imgFmt) inMax m v sc) (hm : m ≤ s.dstLen.toNat)
    (hv : v = { s with scratch := v.scratch }) (h : runRows v.rowsLeft v = .raised e u) : RaisedIn s e u := by
  have hmid := mid_runRows v.rowsLeft v
  rw [h] at hmid
  rw [rowsLeft_of_scan l.scan] at h
  obtain ⟨hcode, hregs, hposted, houtside⟩ := runRows_raised _ s v sc inMax m e u l le_rfl hm h
  have hentry : KeepsChunkRegs s v := by rw [hv]; constructor <;> rfl
  rw [hv] at hposted houtside
  exact ⟨by simp [hcode], l.keep.ops.trans hmid.1.ops, hentry.trans hregs, hmid.1.outLen.trans l.keep.outLen, houtside,
    fun _ => hposted, fun hne => absurd hcode hne⟩

/-- A row loop that raises nothing has no row left. -/
theorem runRows_closes {v u : State} {sc : Scan} (hs : v.scratch.scan = some sc) (ho : ScanOk sc)
    (h : runRows v.rowsLeft v = .ok u) : closeRows u = u.completeOutput sc.needOut := by
  rw [rowsLeft_of_scan hs] at h
  obtain ⟨sc', hs', ho', hleft, hneed⟩ := runRows_counters _ v sc hs ho le_rfl u h
  rw [closeRows_of_done hs' (images_of_rowsLeft ho' (by omega)), hneed]

theorem copyRows_closes {v u : State} {sc : Scan} (hs : v.scratch.scan = some sc) (ho : ScanOk sc)
    (h : copyRows v.rowsLeft v = .ok u) : closeRows u = u.completeOutput sc.needOut := by
  rw [rowsLeft_of_scan hs] at h
  obtain ⟨sc', hs', ho', hleft, hneed⟩ := copyRows_counters _ v sc hs ho le_rfl u h
  rw [closeRows_of_done hs' (images_of_rowsLeft ho' (by omega)), hneed]

/-- Scattered rows lie in the grid (R174). -/
theorem Scattered.inside {s : State} {rowFn used es} (h : Scattered s rowFn used es) :
    ∀ c ∈ es.flatMap fun e => rowCells s e.1 e.2.1 e.2.2,
      s.dstAddr.toNat ≤ c.1 ∧ c.1 < s.dstAddr.toNat + s.gridBytes := by
  intro c hc
  obtain ⟨p, j, i, k, -, hj, hi, hk, haddr, -⟩ := h.cell c hc
  have hlt : _ < s.gridBytes := gridOffset_lt hj hi hk
  omega

/-- Rows stored one after another take `need_unf` bytes (R160). -/
theorem unscattered_inside {s : State} {i : Instr} (hc : s.checkReconstruction i = none) :
    ∀ c ∈ (filterEntries s i false).flatMap fun e => rowCells s e.1 e.2.1 e.2.2,
      s.dstAddr.toNat ≤ c.1 ∧ c.1 < s.dstAddr.toNat + s.needUnf := by
  intro c hmem
  rw [filterEntries, rowEntries_cells _ _ _ rfl] at hmem
  have hbound := mem_cellsAt hmem
  rw [← filterEntries, filterEntries_length hc] at hbound
  exact hbound

theorem RowCommand.inside {s : State} {i : Instr} {b : Bool} (h : RowCommand s i b)
    (hc : s.checkReconstruction i = none) :
    ∀ c ∈ (filterEntries s i b).flatMap fun e => rowCells s e.1 e.2.1 e.2.2,
      s.dstAddr.toNat ≤ c.1 ∧ c.1 < s.dstAddr.toNat + s.needOut i := by
  rcases h with ⟨rfl, rfl⟩ | ⟨rfl, rfl⟩
  · have hn : s.needOut .unfilter = s.needUnf := by simp [State.needOut]
    rw [hn]
    exact unscattered_inside hc
  · rcases (check_facts hc).il with h0 | h1
    · have hn : s.needOut .reconstruct = s.needUnf := by simp [State.needOut, h0]
      have hb : decide (interlace s.imgFmt ≠ 0) = false := by simp [h0]
      rw [hn, hb]
      exact unscattered_inside hc
    · have hn : s.needOut .reconstruct = s.gridBytes := by simp [State.needOut, h1]
      have hb : decide (interlace s.imgFmt ≠ 0) = true := by simp [h1]
      rw [hn, hb]
      exact (scattered_filterEntries hc h1).inside

/-- UNFILTER and RECONSTRUCT end with all rows stored, in an error of the checks, or in one of the row loop. -/
theorem RowCommand.ends {s t : State} {i : Instr} {b : Bool} (hb : RowCommand s i b) (h : exec i s = .next t) :
    (∃ es u, StoredRows s (s.needOut i) t es u) ∨ ∃ e u, RaisedIn s e u ∧ t = u.raise e := by
  have hexec := hb.exec_eq ▸ h
  rw [hb.exec_eq] at h
  rcases startRows_cases i b s with ⟨e, he, hstart⟩ | ⟨hc, hstart⟩ <;> rw [hstart] at h
  · exact .inr ⟨e, s, raisedIn_check he, by simpa using h.symm⟩
  · have l := loop_start hb hc
    have hfits := (check_facts hc).needOut
    rw [Run.andThen_ok] at h
    rcases Run.close_eq_next h with ⟨u, hrun, ht⟩ | ⟨e, u, hrun, rfl⟩
    · rw [runRows_closes l.scan l.ok hrun] at ht
      obtain ⟨-, v, -, hends, hstores⟩ := rows_next_ok hb hexec (by rw [ht]; rfl)
      exact .inl ⟨_, v, hends, hstores, hb.inside hc, hfits⟩
    · exact .inr ⟨e, u, raisedIn_runRows l hfits rfl hrun, rfl⟩

/-- DEINTERLACE ends with all rows stored or in an error of the checks. -/
theorem execDeinterlace_ends {s t : State} (h : execDeinterlace s = .next t) :
    (∃ es u, StoredRows s (s.needOut .deinterlace) t es u) ∨ ∃ e u, RaisedIn s e u ∧ t = u.raise e := by
  have hexec := h
  unfold execDeinterlace startDeinterlace at h
  cases hc : s.checkReconstruction .deinterlace with
  | some e =>
    rw [hc] at h
    exact .inr ⟨e, s, raisedIn_check hc, by simpa using h.symm⟩
  | none =>
    rw [hc] at h
    have l := loop_start_copy hc
    rcases Run.close_eq_next h with ⟨u, hrun, ht⟩ | ⟨e, u, hrun, -⟩
    · rw [copyRows_closes l.scan l.ok hrun] at ht
      obtain ⟨-, v, hends, hstores⟩ := copy_next_ok hexec (by rw [ht]; rfl)
      have hn : s.needOut .deinterlace = s.gridBytes := by simp [State.needOut]
      exact .inl ⟨_, v, hends, hstores, hn ▸ (scattered_copyEntries hc).inside, (check_facts hc).needOut⟩
    · exact absurd hrun (copyRows_not_raised _ _ e u)

theorem exec_reconstruction_ends {s t : State} {i : Instr} (hi : i ∈ [Instr.unfilter, .deinterlace, .reconstruct])
    (h : exec i s = .next t) :
    (∃ es u, StoredRows s (s.needOut i) t es u) ∨ ∃ e u, RaisedIn s e u ∧ t = u.raise e := by
  simp only [List.mem_cons, List.not_mem_nil, or_false] at hi
  rcases hi with rfl | rfl | rfl
  · exact RowCommand.ends (.inl ⟨rfl, rfl⟩) h
  · exact execDeinterlace_ends h
  · exact RowCommand.ends (.inr ⟨rfl, rfl⟩) h

/-- Settles O58: a command that completes stored within its output, and one that raises changed at most the DST range. -/
theorem reconstructionFrame : Obligations.ReconstructionFrame := by
  intro s t i hi h
  rcases exec_reconstruction_ends hi h with ⟨es, u, hst⟩ | ⟨e, u, hr, rfl⟩
  · obtain ⟨hops, hregs, herr, hok, hposted, hmem⟩ := complete_keeps (n := s.needOut i) hst.stores
    have hout : ∀ a, OutsideOutput s (s.needOut i) a → Memory.read t.mem a = Memory.read s.mem a := by
      intro a ha
      rw [hst.ends, hmem]
      exact Memory.read_writeAll_of_not_mem fun c hc hca => ha (hca ▸ hst.inside c hc)
    rw [hst.ends] at hout ⊢
    have hfits := hst.fits
    exact ⟨hops, hregs, hok.idle, hok.done, fun a ha => hout a fun hin => ha ⟨hin.1, by omega⟩,
      fun _ => ⟨herr, hposted, hout⟩, fun hne => absurd hok.code hne⟩
  · have hops : KeepsOperands u (u.raise e) := by constructor <;> rfl
    have hregs : KeepsChunkRegs u (u.raise e) := by constructor <;> rfl
    exact ⟨hr.ops.trans hops, hr.chunkRegs.trans hregs, rfl, rfl, hr.outside, fun hok => absurd hok hr.code,
      fun _ => ⟨hr.outLen, hr.posted, hr.mem⟩⟩

end Sys2Proof.Machine
end

/-! ## Decode and encode agree, and the illegal codes are the rest (spec/30_encoding.md R80, R81, R83, R84) -/

section

namespace Sys2Proof

/-- The codes with a row in the tables of R81 and R84: OP below 8 under a zero MBZ field, or a filter-type byte up to 4. -/
def Code.Legal : Code → Prop
  | .cmd32 w => w.toNat < 8
  | .filter8 b => b.toNat < 5

/-- The name the decoder rejects a code by, with the code in it (R83, R84). -/
def Code.rejected : Code → Decoded
  | .cmd32 w => .illegalCommand w
  | .filter8 b => .illegalFilter b

theorem opField_toNat (w : Word) : (opField w).toNat = w.toNat % 16 := by simp [opField]

/-- The word is below 16 when its upper field is zero: MBZ takes up all the bits above OP. -/
theorem toNat_lt_of_mbzField_zero {w : Word} (h : mbzField w = 0#28) : w.toNat < 16 := by
  have hdiv : w.toNat >>> 4 % 2 ^ 28 = 0 := by simpa [mbzField] using congrArg BitVec.toNat h
  rw [Nat.shiftRight_eq_div_pow] at hdiv
  omega

/-- From OP 8 on, and under a nonzero MBZ field, no row of R81's table matches. -/
theorem decodeCommand_of_ge {w : Word} (h : 8 ≤ w.toNat) : decodeCommand w = .illegalCommand w := by
  unfold decodeCommand
  by_cases hm : mbzField w = 0#28
  · obtain ⟨k, hk⟩ : ∃ k, (opField w).toNat = k + 8 := by
      have hlt := toNat_lt_of_mbzField_zero hm
      rw [opField_toNat, Nat.mod_eq_of_lt hlt]
      exact Nat.exists_eq_add_of_le' h
    rw [if_pos hm, hk]
    rfl
  · rw [if_neg hm]

theorem decodeFilter_of_ge {b : Byte} (h : 5 ≤ b.toNat) : decodeFilter b = .illegalFilter b := by
  obtain ⟨k, hk⟩ := Nat.exists_eq_add_of_le' h
  rw [decodeFilter, hk]
  rfl

theorem decode_of_not_legal {c : Code} (h : ¬ c.Legal) : decode c = c.rejected := by
  cases c with
  | cmd32 w => exact decodeCommand_of_ge (Nat.le_of_not_lt h)
  | filter8 b => exact decodeFilter_of_ge (Nat.le_of_not_lt h)

/-- Each row of the two tables is some instruction's. -/
theorem exists_encode_of_legal {c : Code} (h : c.Legal) : ∃ i, encode i = c := by
  cases c with
  | cmd32 w =>
    obtain ⟨n, hn, rfl⟩ : ∃ n < 8, w = BitVec.ofNat 32 n := ⟨w.toNat, h, by simp⟩
    clear h
    interval_cases n
    · exact ⟨.nop, rfl⟩
    · exact ⟨.sig, rfl⟩
    · exact ⟨.chunk, rfl⟩
    · exact ⟨.walk, rfl⟩
    · exact ⟨.crc, rfl⟩
    · exact ⟨.unfilter, rfl⟩
    · exact ⟨.deinterlace, rfl⟩
    · exact ⟨.reconstruct, rfl⟩
  | filter8 b =>
    obtain ⟨n, hn, rfl⟩ : ∃ n < 5, b = BitVec.ofNat 8 n := ⟨b.toNat, h, by simp⟩
    clear h
    interval_cases n
    · exact ⟨.filterNone, rfl⟩
    · exact ⟨.filterSub, rfl⟩
    · exact ⟨.filterUp, rfl⟩
    · exact ⟨.filterAverage, rfl⟩
    · exact ⟨.filterPaeth, rfl⟩

@[simp] theorem decode_encode (i : Instr) : decode (encode i) = .instr i := by
  cases i <;> rfl

theorem Code.rejected_ne_instr (c : Code) (i : Instr) : c.rejected ≠ .instr i := by
  cases c <;> exact Decoded.noConfusion

/-- A code that decodes is legal, so it is some instruction's encoding, and that decodes to the instruction alone. -/
theorem decode_eq_instr_iff {c : Code} {i : Instr} : decode c = .instr i ↔ c = encode i := by
  constructor
  · intro h
    by_cases hl : c.Legal
    · obtain ⟨j, rfl⟩ := exists_encode_of_legal hl
      rw [decode_encode, Decoded.instr.injEq] at h
      rw [h]
    · exact absurd (decode_of_not_legal hl ▸ h) (c.rejected_ne_instr i)
  · rintro rfl
    exact decode_encode i

theorem exists_decode_eq_instr_iff (c : Code) : (∃ i, decode c = .instr i) ↔ c.Legal := by
  constructor
  · rintro ⟨i, h⟩
    by_contra hl
    exact c.rejected_ne_instr i (decode_of_not_legal hl ▸ h)
  · intro hl
    obtain ⟨i, rfl⟩ := exists_encode_of_legal hl
    exact ⟨i, decode_encode i⟩

/-- Settles O2: the encodings are all the legal codes, and the decoder rejects the rest. -/
theorem everyCodeHasOneMeaning : Obligations.EveryCodeHasOneMeaning :=
  ⟨fun i _ => decode_encode i, fun _ _ => decode_eq_instr_iff.mp⟩

/-- Settles O3: bits 31:4 are zero and OP is below 8 exactly when the word is below 8. -/
theorem illegalCodesAreExact : Obligations.IllegalCodesAreExact := by
  refine ⟨fun w => ?_, fun w h => ?_, fun b => ?_, fun b h => decodeFilter_of_ge h⟩
  · calc (∃ i, decodeCommand w = .instr i)
      _ ↔ w.toNat < 8 := exists_decode_eq_instr_iff (.cmd32 w)
      _ ↔ w.toNat / 16 = 0 ∧ w.toNat % 16 < 8 := by omega
  · exact decodeCommand_of_ge (by omega)
  · calc (∃ i, decodeFilter b = .instr i)
      _ ↔ b.toNat < 5 := exists_decode_eq_instr_iff (.filter8 b)
      _ ↔ b.toNat ≤ 4 := Nat.lt_succ_iff

/-- Settles O1: five rows of the tables, and the first word and byte past their ends. -/
theorem tableWordsDecode : Obligations.TableWordsDecode := by
  unfold Obligations.TableWordsDecode
  decide

end Sys2Proof
end

/-! ## CRC-32 (spec/40_chunk_crc.md R100) -/

section

namespace Sys2Proof.Machine

open Sys2Proof

/-- The bit shifted out is what bit 31 shows afterwards: the polynomial has bit 31, a shifted word has not. -/
theorem crcShift_getLsbD_top (c : Word) : (crcShift c).getLsbD 31 = c.getLsbD 0 := by
  have htop : (c >>> 1).getLsbD 31 = false := by simp
  have hpoly : crcPoly.getLsbD 31 = true := by decide
  unfold crcShift
  split
  · next h => rw [BitVec.getLsbD_xor, htop, hpoly, h]; rfl
  · next h => rw [htop, Bool.eq_false_of_not_eq_true h]

/-- A shift loses nothing, for the bit that leaves decides whether the polynomial is added. -/
theorem crcShift_injective : Function.Injective crcShift := by
  intro c d h
  have hout : c.getLsbD 0 = d.getLsbD 0 := by rw [← crcShift_getLsbD_top, h, crcShift_getLsbD_top]
  have hrest : c >>> 1 = d >>> 1 := by
    unfold crcShift at h
    rw [hout] at h
    split at h
    · exact (BitVec.xor_left_inj _).mp h
    · exact h
  refine BitVec.eq_of_getLsbD_eq fun i _ => ?_
  cases i with
  | zero => exact hout
  | succ i => simpa [Nat.add_comm] using congrArg (BitVec.getLsbD · i) hrest

theorem crcShifts_injective (n : Nat) : Function.Injective (crcShifts n) := by
  induction n with
  | zero => exact Function.injective_id
  | succ k ih => exact ih.comp crcShift_injective

theorem crcByte_injective_acc (b : Byte) : Function.Injective (crcByte · b) := fun _ _ h =>
  (BitVec.xor_left_inj _).mp (crcShifts_injective 8 h)

theorem crcByte_injective_byte (c : Word) : Function.Injective (crcByte c) := by
  intro b b' h
  have hw : b.setWidth 32 = b'.setWidth 32 := (BitVec.xor_right_inj _).mp (crcShifts_injective 8 h)
  simpa using congrArg (BitVec.setWidth 8) hw

theorem crcBytes_injective_acc (bs : List Byte) : Function.Injective (crcBytes · bs) := by
  induction bs with
  | nil => exact Function.injective_id
  | cons b rest ih => exact ih.comp (crcByte_injective_acc b)

theorem crcBytes_append (c : Word) (xs ys : List Byte) : crcBytes c (xs ++ ys) = crcBytes (crcBytes c xs) ys :=
  List.foldl_append

/-- Settles O41: the bytes before give one accumulator, the changed byte makes two of it, the bytes after keep them
apart. -/
theorem crcSeesAnyChangedByte : Obligations.CrcSeesAnyChangedByte := by
  intro before after b b' hb h
  have hacc : crcBytes crcOnes (before ++ b :: after) = crcBytes crcOnes (before ++ b' :: after) :=
    (BitVec.xor_left_inj _).mp h
  rw [crcBytes_append, crcBytes_append] at hacc
  exact hb (crcByte_injective_byte _ (crcBytes_injective_acc after hacc))

/-- Settles O40: three short strings, evaluated. -/
theorem crcCheckValues : Obligations.CrcCheckValues := by
  unfold Obligations.CrcCheckValues
  decide +kernel

end Sys2Proof.Machine
end

/-! ## SIG, CHUNK, WALK and CRC check the SRC range, and no other configuration (spec/40_chunk_crc.md R104) -/

section

namespace Sys2Proof.Machine

open Sys2Proof

/-! ### A command is the range check and a body -/

/-- What SIG, CHUNK, WALK and CRC run once the SRC range is checked (R110, R111, R120, R130). -/
def validatorBody (i : Instr) (s : State) : Run :=
  match i with
  | .sig => sigStep s.fromCursor
  | .chunk => chunkStep s.fromCursor
  | .walk => (sigStep ({ s with chkCount := 0#32 } : State).fromCursor).andThen fun u => walkLoop u.walkFuel true u
  | .crc => memRead s s.srcAddr.toNat s.srcLen.toNat fun bs =>
      .ok { s.withCrcAcc (crcBytes crcOnes bs) with chkCrcCalc := crc32 bs }
  | _ => .ok s

theorem exec_eq_validatorBody {i : Instr} (hi : i ∈ [Instr.sig, .chunk, .walk, .crc]) (s : State) :
    exec i s = ((srcRangeCheck s).andThen (validatorBody i)).finish := by
  simp only [List.mem_cons, List.not_mem_nil, or_false] at hi
  rcases hi with rfl | rfl | rfl | rfl <;> rfl

theorem exec_of_srcRange {i : Instr} (hi : i ∈ [Instr.sig, .chunk, .walk, .crc]) {s : State}
    (h : s.srcAddr.toNat + s.srcLen.toNat ≤ 0x100000000) : exec i s = (validatorBody i s).finish := by
  rw [exec_eq_validatorBody hi, srcRangeCheck_ok h, Run.andThen_ok]

theorem exec_of_srcRange_wraps {i : Instr} (hi : i ∈ [Instr.sig, .chunk, .walk, .crc]) {s : State}
    (h : 0x100000000 < s.srcAddr.toNat + s.srcLen.toNat) :
    exec i s = .next (endsWith s .configError 9#32 0#32 0#32) := by
  rw [exec_eq_validatorBody hi, srcRangeCheck_raised h]
  rfl

/-! ### No error of a body is CONFIG_ERROR -/

/-- The piece raises no CONFIG_ERROR. -/
def Run.NoConfigError (r : Run) : Prop :=
  match r with
  | .raised e _ => e.code ≠ .configError
  | .ok _ | .refused _ => True

theorem Run.NoConfigError.andThen {r : Run} {k : State → Run} (h : r.NoConfigError) (hk : ∀ u, (k u).NoConfigError) :
    (r.andThen k).NoConfigError := by
  cases r with
  | ok u => exact hk u
  | raised e u => exact h
  | refused f => trivial

theorem Run.NoConfigError.finish {r : Run} {t : State} (h : r.NoConfigError) (ht : r.finish = .next t) :
    t.code ≠ .configError := by
  rcases Run.finish_eq_next ht with ⟨u, rfl, rfl⟩ | ⟨e, u, rfl, rfl⟩
  · simp
  · exact h

theorem noConfigError_readSrc {n : Nat} {s : State} {k : List Byte → State → Run}
    (hk : ∀ bs u, (k bs u).NoConfigError) : (readSrc n s k).NoConfigError := by
  rcases readSrc_cases n s k with ⟨-, h⟩ | ⟨r, h⟩ | ⟨-, -, h⟩ <;> rw [h]
  · exact ResultCode.noConfusion
  · trivial
  · exact hk _ _

theorem noConfigError_sigStep (s : State) : (sigStep s).NoConfigError :=
  noConfigError_readSrc fun bs u => by
    unfold sigCheck
    split
    · exact ResultCode.noConfusion
    · trivial

theorem noConfigError_compareCrc (start : Nat) (s : State) : (compareCrc start s).NoConfigError := by
  rcases compareCrc_cases start s with ⟨-, h⟩ | ⟨-, -, h⟩ <;> rw [h]
  · trivial
  · exact ResultCode.noConfusion

theorem noConfigError_chunkTag (start : Nat) (lenField t : List Byte) (s : State) :
    (chunkTag start lenField t s).NoConfigError := by
  unfold chunkTag
  split
  · exact ResultCode.noConfusion
  · split
    · exact noConfigError_readSrc fun _ _ => noConfigError_readSrc fun _ _ => noConfigError_compareCrc _ _
    · exact ResultCode.noConfusion

theorem noConfigError_chunkStep (s : State) : (chunkStep s).NoConfigError := by
  unfold chunkStep
  split
  · exact ResultCode.noConfusion
  · exact noConfigError_readSrc fun _ _ => noConfigError_readSrc fun _ _ => noConfigError_chunkTag _ _ _ _

theorem noConfigError_walkLoop (fuel : Nat) (first : Bool) (s : State) : (walkLoop fuel first s).NoConfigError := by
  induction fuel generalizing first s with
  | zero => exact ResultCode.noConfusion
  | succ k ih =>
    rw [walkLoop_succ]
    refine (noConfigError_chunkStep s).andThen fun u => ?_
    split
    · exact ResultCode.noConfusion
    · split
      · trivial
      · exact ih false u

theorem noConfigError_validatorBody (i : Instr) (s : State) : (validatorBody i s).NoConfigError := by
  cases i with
  | sig => exact noConfigError_sigStep _
  | chunk => exact noConfigError_chunkStep _
  | walk => exact (noConfigError_sigStep _).andThen fun u => noConfigError_walkLoop _ _ _
  | crc =>
    unfold validatorBody
    rcases memRead_cases s s.srcAddr.toNat s.srcLen.toNat
      (fun bs => .ok { s.withCrcAcc (crcBytes crcOnes bs) with chkCrcCalc := crc32 bs }) with ⟨r, h⟩ | ⟨-, h⟩ <;>
    · rw [h]
      trivial
  | _ => trivial

/-! ### State that a body does not read -/

/-- The piece with `g` applied to the state it ends in. -/
def Run.mapState (g : State → State) (r : Run) : Run :=
  match r with
  | .ok s => .ok (g s)
  | .raised e s => .raised e (g s)
  | .refused f => .refused f

theorem Run.andThen_mapState {g : State → State} (r : Run) {k : State → Run}
    (hk : ∀ u, k (g u) = (k u).mapState g) : (r.mapState g).andThen k = (r.andThen k).mapState g := by
  cases r with
  | ok u => exact hk u
  | raised e u => rfl
  | refused f => rfl

/-- `g` changes nothing that a read of SRC looks at, and neither the local cursor nor CURSOR. -/
structure ReadsAlike (g : State → State) : Prop where
  srcAddr : ∀ s, (g s).srcAddr = s.srcAddr
  remaining : ∀ s, (g s).remaining = s.remaining
  pos : ∀ s, (g s).scratch.pos = s.scratch.pos
  params : ∀ s, (g s).params = s.params
  memErrors : ∀ s, (g s).memErrors = s.memErrors
  engineBytes : ∀ s a n, (g s).engineBytes a n = s.engineBytes a n
  withPos : ∀ s n, (g s).withPos n = g (s.withPos n)
  withCursor : ∀ s, (g s).withCursor = g s.withCursor

theorem ReadsAlike.memRead {g : State → State} (hg : ReadsAlike g) {s : State} {a n : Nat} {k k' : List Byte → Run}
    (hk : ∀ bs, k bs = (k' bs).mapState g) : memRead (g s) a n k = (memRead s a n k').mapState g := by
  unfold Machine.memRead
  rw [hg.params, hg.memErrors, hg.engineBytes]
  split
  · rfl
  · exact hk _

theorem ReadsAlike.readSrc {g : State → State} (hg : ReadsAlike g) {n : Nat} {s : State}
    {k k' : List Byte → State → Run} (hk : ∀ bs u, k bs (g u) = (k' bs u).mapState g) :
    readSrc n (g s) k = (readSrc n s k').mapState g := by
  unfold Machine.readSrc
  rw [hg.remaining, hg.pos, hg.srcAddr, hg.withPos]
  split
  · rfl
  · exact hg.memRead fun bs => hk bs _

theorem ReadsAlike.sigStep {g : State → State} (hg : ReadsAlike g) (s : State) :
    sigStep (g s) = (sigStep s).mapState g := by
  unfold Machine.sigStep
  rw [hg.pos]
  refine hg.readSrc fun bs u => ?_
  unfold sigCheck
  split
  · rfl
  · rw [hg.withCursor]
    rfl

/-- `s` with the IMG_* and DST_* registers of `r`. -/
def State.imgDstOf (r s : State) : State :=
  { s with
    imgWidth := r.imgWidth, imgHeight := r.imgHeight, imgFmt := r.imgFmt
    dstAddr := r.dstAddr, dstLen := r.dstLen }

theorem readsAlike_imgDstOf (r : State) : ReadsAlike r.imgDstOf := by
  constructor <;> intros <;> rfl

theorem compareCrc_imgDstOf (r : State) (start : Nat) (s : State) :
    compareCrc start (r.imgDstOf s) = (compareCrc start s).mapState r.imgDstOf := by
  unfold compareCrc
  rw [apply_ite (Run.mapState r.imgDstOf)]
  rfl

theorem chunkBody_imgDstOf (r : State) (start len : Nat) (t : List Byte) (s : State) :
    chunkBody start len t (r.imgDstOf s) = (chunkBody start len t s).mapState r.imgDstOf :=
  (readsAlike_imgDstOf r).readSrc fun _ _ => (readsAlike_imgDstOf r).readSrc fun crcField u =>
    compareCrc_imgDstOf r start ((u.withCrcAcc _).recordChunk start len t (be32 crcField))

theorem chunkTag_imgDstOf (r : State) (start : Nat) (lenField t : List Byte) (s : State) :
    chunkTag start lenField t (r.imgDstOf s) = (chunkTag start lenField t s).mapState r.imgDstOf := by
  unfold chunkTag
  rw [(readsAlike_imgDstOf r).remaining]
  split
  · rfl
  · split
    · exact chunkBody_imgDstOf r _ _ _ _
    · rfl

theorem chunkStep_imgDstOf (r s : State) : chunkStep (r.imgDstOf s) = (chunkStep s).mapState r.imgDstOf := by
  unfold chunkStep
  rw [(readsAlike_imgDstOf r).remaining, (readsAlike_imgDstOf r).pos]
  split
  · rfl
  · exact (readsAlike_imgDstOf r).readSrc fun _ _ => (readsAlike_imgDstOf r).readSrc fun _ _ =>
      chunkTag_imgDstOf r _ _ _ _

theorem walkLoop_imgDstOf (r : State) (fuel : Nat) (first : Bool) (s : State) :
    walkLoop fuel first (r.imgDstOf s) = (walkLoop fuel first s).mapState r.imgDstOf := by
  induction fuel generalizing first s with
  | zero => rfl
  | succ k ih =>
    rw [walkLoop_succ, walkLoop_succ, chunkStep_imgDstOf]
    refine Run.andThen_mapState _ fun u => ?_
    rw [apply_ite (Run.mapState r.imgDstOf), apply_ite (Run.mapState r.imgDstOf), ← ih]
    rfl

theorem validatorBody_imgDstOf (r : State) (i : Instr) (s : State) :
    validatorBody i (r.imgDstOf s) = (validatorBody i s).mapState r.imgDstOf := by
  cases i with
  | sig => exact (readsAlike_imgDstOf r).sigStep s.fromCursor
  | chunk => exact chunkStep_imgDstOf r s.fromCursor
  | walk =>
    have hsig := (readsAlike_imgDstOf r).sigStep ({ s with chkCount := 0#32 } : State).fromCursor
    have hloop := Run.andThen_mapState (sigStep ({ s with chkCount := 0#32 } : State).fromCursor)
      (k := fun u => walkLoop u.walkFuel true u) fun u => walkLoop_imgDstOf r u.walkFuel true u
    rwa [← hsig] at hloop
  | crc =>
    unfold validatorBody
    refine (readsAlike_imgDstOf r).memRead fun bs => ?_
    rfl
  | _ => rfl

theorem exec_imgDstOf {i : Instr} (hi : i ∈ [Instr.sig, .chunk, .walk, .crc]) (r : State) {s t : State}
    (h : exec i s = .next t) : exec i (r.imgDstOf s) = .next (r.imgDstOf t) := by
  have hcheck : srcRangeCheck (r.imgDstOf s) = (srcRangeCheck s).mapState r.imgDstOf := by
    unfold srcRangeCheck
    rw [apply_ite (Run.mapState r.imgDstOf)]
    rfl
  rw [exec_eq_validatorBody hi] at h ⊢
  rw [hcheck, Run.andThen_mapState _ (validatorBody_imgDstOf r i)]
  rcases Run.finish_eq_next h with ⟨u, hu, rfl⟩ | ⟨e, u, hu, rfl⟩ <;>
  · rw [hu]
    rfl

/-- Settles O29: the range check comes first, and no piece after it raises CONFIG_ERROR or reads IMG_* or DST_*. -/
theorem sourceRangeIsChecked : Obligations.SourceRangeIsChecked := by
  intro s i hi
  refine ⟨exec_of_srcRange_wraps hi, fun h t ht => ?_, fun t width height fmt dstAddr dstLen ht => ?_⟩
  · rw [exec_of_srcRange hi h] at ht
    exact (noConfigError_validatorBody i s).finish ht
  · exact exec_imgDstOf hi
      { s with imgWidth := width, imgHeight := height, imgFmt := fmt, dstAddr := dstAddr, dstLen := dstLen } ht

end Sys2Proof.Machine
end

/-! ## SIG and CRC (spec/40_chunk_crc.md R105, R110, R130) -/

section

namespace Sys2Proof.Machine

open Sys2Proof

/-! ### The local cursor at the start of a command -/

@[simp] theorem fromCursor_pos (s : State) : s.fromCursor.scratch.pos = s.cursor.toNat := rfl
@[simp] theorem fromCursor_withPos (s : State) (n : Nat) : s.fromCursor.withPos n = s.withPos n := rfl
@[simp] theorem fromCursor_remaining (s : State) : s.fromCursor.remaining = s.srcLen.toNat - s.cursor.toNat := rfl

/-- An error ends the command with the local cursor forgotten. -/
@[simp] theorem raise_withPos (s : State) (n : Nat) (code : ResultCode) (i0 i1 i2 : Word) :
    (s.withPos n).raise ⟨code, i0, i1, i2⟩ = endsWith s code i0 i1 i2 := rfl

@[simp] theorem raise_fromCursor (s : State) (code : ResultCode) (i0 i1 i2 : Word) :
    s.fromCursor.raise ⟨code, i0, i1, i2⟩ = endsWith s code i0 i1 i2 := rfl

theorem engineBytes_getD (s : State) (a : Nat) {n i : Nat} (h : i < n) :
    (s.engineBytes a n).getD i 0#8 = s.engineByte (a + i) := by
  rw [List.getD_eq_getElem _ _ (by simpa using h), engineBytes_getElem]

/-! ### SIG -/

/-- A signature step with 8 bytes to read. -/
theorem sigStep_of_reachable {s : State} (h8 : 8 ≤ s.remaining)
    (hr : Reachable s (s.srcAddr.toNat + s.scratch.pos) 8) :
    sigStep s = sigCheck s.scratch.pos (s.engineBytes (s.srcAddr.toNat + s.scratch.pos) 8)
      (s.withPos (s.scratch.pos + 8)) :=
  readSrc_of_reachable h8 hr _

theorem sigCheck_of_signature (start : Nat) {bs : List Byte} (h : bs = sigBytes) (s : State) :
    sigCheck start bs s = .ok s.withCursor := by
  rw [sigCheck, (firstDiff_eq_none (by rw [h])).mpr h]

theorem sigCheck_of_diff (start : Nat) {bs : List Byte} {i : Nat} (hl : bs.length = sigBytes.length)
    (hi : i < bs.length) (hd : bs.getD i 0#8 ≠ sigBytes.getD i 0#8)
    (hj : ∀ j, j < i → bs.getD j 0#8 = sigBytes.getD j 0#8) (s : State) :
    sigCheck start bs s = .raised ⟨.invalidFormat, word 1, word i, word start⟩ s := by
  rw [sigCheck, firstDiff_at bs sigBytes 0 i hl hi hd hj, Nat.zero_add]

/-- Settles O30: the range check, the length, then the comparison with its first differing byte. -/
theorem sigOutcome : Obligations.SigOutcome := by
  refine ⟨rfl, fun s => ⟨exec_of_srcRange_wraps (by simp), fun h hshort => ?_, fun h h8 hr => ?_⟩⟩
  · rw [exec_of_srcRange (by simp) h, validatorBody, sigStep, readSrc_of_short hshort]
    simp [word]
  · have hbody : exec .sig s = (sigCheck s.cursor.toNat (s.engineBytes (s.srcAddr.toNat + s.cursor.toNat) 8)
        (s.withPos (s.cursor.toNat + 8))).finish := by
      rw [exec_of_srcRange (by simp) h]
      exact congrArg Run.finish (sigStep_of_reachable (s := s.fromCursor) h8 hr)
    rw [hbody]
    refine ⟨fun hs => ?_, fun i hi hd hj => ?_⟩
    · have hcur : word (s.cursor.toNat + 8) = s.cursor + 8#32 := word_add s.cursor 8
      rw [sigCheck_of_signature _ hs, ← hcur]
      rfl
    · rw [sigCheck_of_diff s.cursor.toNat (i := i) (by simp [sigBytes]) (by simpa using hi)
        (by rw [engineBytes_getD _ _ hi]; exact hd)
        (fun j hji => by rw [engineBytes_getD _ _ (by omega)]; exact hj j hji)]
      simp [word]

/-! ### CRC -/

/-- The body of CRC where no byte of the SRC range is blocked. -/
theorem execCrc_of_reachable {s : State} (h : s.srcAddr.toNat + s.srcLen.toNat ≤ 0x100000000)
    (hr : Reachable s s.srcAddr.toNat s.srcLen.toNat) :
    exec .crc s = .next (endsOk { s with chkCrcCalc := crc32 (s.engineBytes s.srcAddr.toNat s.srcLen.toNat) }) := by
  rw [exec_of_srcRange (by simp) h, validatorBody, memRead_of_reachable hr]
  rfl

/-- CRC refuses as its first blocked byte does. -/
theorem execCrc_of_blocked {s : State} {i : Nat} {r : Refusal} (h : s.srcAddr.toNat + s.srcLen.toNat ≤ 0x100000000)
    (hi : i < s.srcLen.toNat) (hr : Reachable s s.srcAddr.toNat i)
    (hb : blocked s.params s.memErrors (s.srcAddr.toNat + i) = some r) : exec .crc s = .refused r := by
  rw [exec_of_srcRange (by simp) h, validatorBody, memRead,
    firstBlocked_at hi (fun j hj => reachable_iff.mp (hr j hj)) hb]
  rfl

theorem blocked_of_memErrors {s : State} {a : Nat} (hp : s.present a = true) (he : inRegions s.memErrors a = true) :
    blocked s.params s.memErrors a = some (.accessError a) := by
  have ha : absent s.params a = none := Option.isNone_iff_eq_none.mp hp
  simp [blocked, ha, he]

theorem blocked_of_unbacked {p : Params} {a : Nat} (errors : List Region) (hb : memBacked p a = false)
    (hw : inRegWindow p a = false) : blocked p errors a = some (.unbackedAddress a) := by
  simp [blocked, absent, hb, hw]

/-- Settles O39: the range check, then one read of the SRC range whose first blocked byte decides a refusal. -/
theorem crcOutcome : Obligations.CrcOutcome := by
  refine ⟨rfl, fun s => ⟨exec_of_srcRange_wraps (by simp), execCrc_of_reachable, fun h h0 => ?_, fun i h hi hr =>
    ⟨fun hp he => execCrc_of_blocked h hi hr (blocked_of_memErrors hp he),
      fun hb hw => execCrc_of_blocked h hi hr (blocked_of_unbacked _ hb hw)⟩⟩⟩
  have hempty : crc32 (s.engineBytes s.srcAddr.toNat s.srcLen.toNat) = 0#32 := by rw [h0]; exact crcCheckValues.1
  have hr : Reachable s s.srcAddr.toNat s.srcLen.toNat := fun i hi => absurd hi (by simp [h0])
  rw [execCrc_of_reachable h hr, hempty]

end Sys2Proof.Machine
end

/-! ## CHUNK (spec/40_chunk_crc.md R102, R106, R107, R108, R111, R112) -/

section

namespace Sys2Proof.Machine

open Sys2Proof

theorem execChunk_of_srcRange {s : State} (h : s.srcAddr.toNat + s.srcLen.toNat ≤ 0x100000000) :
    exec .chunk s = (chunkStep s.fromCursor).finish :=
  exec_of_srcRange (by simp) h

/-! ### A whole chunk -/

theorem compareCrc_of_agree (start : Nat) {s : State} (h : s.crcCheckEn = false ∨ s.chkCrcRx = s.chkCrcCalc) :
    compareCrc start s = .ok s := by
  rcases compareCrc_cases start s with ⟨-, hc⟩ | ⟨hen, hne, -⟩
  · exact hc
  · rcases h with h | h
    · exact absurd hen (by simp [h])
    · exact absurd h hne

theorem compareCrc_of_differ (start : Nat) {s : State} (hen : s.crcCheckEn = true) (hne : s.chkCrcRx ≠ s.chkCrcCalc) :
    compareCrc start s = .raised ⟨.crcMismatch, s.chkCrcRx, s.chkCrcCalc, word start⟩ s := by
  rcases compareCrc_cases start s with ⟨h | h, -⟩ | ⟨-, -, hc⟩
  · exact absurd hen (by simp [h])
  · exact absurd h hne
  · exact hc

/-- An offset further on that fits a register, as CURSOR plus the distance. -/
theorem toNat_add_word {w : Word} {n : Nat} (h : w.toNat + n < 0x100000000) : (w + word n).toNat = w.toNat + n := by
  rw [← word_add, word, BitVec.toNat_ofNat, Nat.mod_eq_of_lt h]

/-- What a chunk step records from CURSOR on is what R106 says, with the local cursor past the chunk. -/
theorem chunkRecorded_fromCursor {s : State} {lenField tag data crcField : List Byte}
    (hn : beNat lenField = data.length) (hfit : s.cursor.toNat + (12 + data.length) < 0x100000000) :
    chunkRecorded s.fromCursor lenField tag data crcField =
      (recorded s tag data (be32 crcField)).fromCursor.withCrcAcc (crcBytes crcOnes (tag ++ data)) := by
  have hpos : (recorded s tag data (be32 crcField)).cursor.toNat = s.cursor.toNat + (12 + data.length) :=
    toNat_add_word hfit
  have hcur : word (s.cursor.toNat + (12 + data.length)) = s.cursor + word (12 + data.length) := word_add _ _
  have hoff : word (s.cursor.toNat + 8) = s.cursor + 8#32 := word_add s.cursor 8
  rw [State.fromCursor, State.fromCursor, hpos, chunkRecorded, hn, State.withPos_scratch, Nat.add_assoc,
    State.recordChunk, recorded, hoff]
  simp only [State.withCrcAcc, State.withPos, hcur]
  rfl

/-- Settles O31: the chunk is recorded, and the comparison of its two CRCs decides how the command ends. -/
theorem chunkRecordsAndCompares : Obligations.ChunkRecordsAndCompares := by
  intro s lenField tag data crcField hl ht hc hn ha hrange hfit hr hb
  have hstep : chunkStep s.fromCursor = compareCrc s.cursor.toNat
      ((recorded s tag data (be32 crcField)).fromCursor.withCrcAcc (crcBytes crcOnes (tag ++ data))) := by
    rw [← chunkRecorded_fromCursor hn (by omega)]
    exact chunkStep_of_whole (s := s.fromCursor) hl ht hc hn ha (by rw [fromCursor_remaining]; omega) hr hb
  rw [execChunk_of_srcRange hrange, hstep]
  refine ⟨fun hagree => ?_, fun hen hne => ?_⟩
  · rw [compareCrc_of_agree (s := (recorded s tag data (be32 crcField)).fromCursor.withCrcAcc _) _ hagree]
    rfl
  · rw [compareCrc_of_differ (s := (recorded s tag data (be32 crcField)).fromCursor.withCrcAcc _) _ hen hne, word_toNat]
    rfl

/-! ### Errors in the header (R102, R107) -/

/-- A chunk step from CURSOR with 8 bytes to read, up to its tag. -/
theorem chunkStep_fromCursor {s : State} (h8 : s.cursor.toNat + 8 ≤ s.srcLen.toNat)
    (hr : Reachable s (s.srcAddr.toNat + s.cursor.toNat) 8) :
    chunkStep s.fromCursor = chunkTag s.cursor.toNat (s.engineBytes (s.srcAddr.toNat + s.cursor.toNat) 4)
      (s.engineBytes (s.srcAddr.toNat + s.cursor.toNat + 4) 4) (s.withPos (s.cursor.toNat + 8)) :=
  chunkStep_of_tag (s := s.fromCursor) (by rw [fromCursor_remaining]; omega) hr

theorem chunkTag_of_nonAscii {start i : Nat} {lenField t : List Byte} {s : State} (h : firstNonAscii 0 t = some i) :
    chunkTag start lenField t s = .raised ⟨.invalidFormat, word 2, word i, word start⟩ s := by
  rw [chunkTag, h]

theorem chunkTag_of_fits {start : Nat} {lenField t : List Byte} {s : State} (ha : t.all ascii = true)
    (h : beNat lenField < s.remaining) : chunkTag start lenField t s = chunkBody start (beNat lenField) t s := by
  rw [chunkTag, firstNonAscii_eq_none.mpr ha]
  exact if_pos h

theorem chunkTag_of_overflow {start : Nat} {lenField t : List Byte} {s : State} (ha : t.all ascii = true)
    (h : s.remaining ≤ beNat lenField) :
    chunkTag start lenField t s = .raised ⟨.bufferOverflow, be32 lenField, word s.remaining, word start⟩ s := by
  rw [chunkTag, firstNonAscii_eq_none.mpr ha]
  exact if_neg (Nat.not_lt.mpr h)

/-- Settles O32: the tag is ASCII and the length bound fails, the bytes left being those after length and type. -/
theorem chunkLengthBound : Obligations.ChunkLengthBound := by
  intro s hrange h8 hr ha hlen
  rw [Nat.sub_sub] at hlen
  rw [execChunk_of_srcRange hrange, chunkStep_fromCursor h8 hr,
    chunkTag_of_overflow (s := s.withPos (s.cursor.toNat + 8)) ha hlen]
  simp [be32_word, Nat.sub_sub]

/-- Settles O34: the tag check comes before the length bound and reports the first byte that fails it. -/
theorem chunkTagMustBeAscii : Obligations.ChunkTagMustBeAscii := by
  intro s i hrange h8 hr hi hbad hgood
  have hfirst : firstNonAscii 0 (s.engineBytes (s.srcAddr.toNat + s.cursor.toNat + 4) 4) = some (0 + i) := by
    refine firstNA_at _ 0 i (by simpa using hi) ?_ fun j hj => ?_
    · rw [engineBytes_getD _ _ hi, ascii, decide_eq_false (Nat.not_lt.mpr hbad)]
    · rw [engineBytes_getD _ _ (by omega), ascii, decide_eq_true (hgood j hj)]
  rw [Nat.zero_add] at hfirst
  rw [execChunk_of_srcRange hrange, chunkStep_fromCursor h8 hr, chunkTag_of_nonAscii hfirst]
  simp [word]

/-! ### Shortfalls (R108) -/

theorem chunkStep_of_empty {s : State} (h : s.remaining = 0) :
    chunkStep s = .raised ⟨.truncatedStream, 0#32, 0#32, word s.scratch.pos⟩ s := by
  rw [chunkStep, if_pos h]

/-- The length field is cut short. -/
theorem chunkStep_of_short_length {s : State} (h0 : s.remaining ≠ 0) (h4 : s.remaining < 4) :
    chunkStep s = .raised ⟨.outOfBounds, 4#32, word s.remaining, word s.scratch.pos⟩ s := by
  rw [chunkStep, if_neg h0, readSrc_of_short h4]
  rfl

/-- The type is cut short. -/
theorem chunkStep_of_short_tag {s : State} (h4 : 4 ≤ s.remaining) (h8 : s.remaining < 8)
    (hr : Reachable s (s.srcAddr.toNat + s.scratch.pos) 4) :
    chunkStep s = .raised ⟨.outOfBounds, 4#32, word (s.remaining - 4), word (s.scratch.pos + 4)⟩
      (s.withPos (s.scratch.pos + 4)) := by
  have hrest : (s.withPos (s.scratch.pos + 4)).remaining = s.remaining - 4 := (Nat.sub_sub ..).symm
  rw [chunkStep, if_neg (by omega), readSrc_of_reachable h4 hr, readSrc_of_short (by omega), hrest]
  rfl

/-- The CRC field is cut short. -/
theorem chunkBody_of_short_crc {start len : Nat} {t : List Byte} {s : State} (hl : len ≤ s.remaining)
    (hs : s.remaining < len + 4) (hr : Reachable s (s.srcAddr.toNat + s.scratch.pos) len) :
    chunkBody start len t s = .raised ⟨.outOfBounds, 4#32, word (s.remaining - len), word (s.scratch.pos + len)⟩
      (s.withPos (s.scratch.pos + len)) := by
  have hrest : (s.withPos (s.scratch.pos + len)).remaining = s.remaining - len := (Nat.sub_sub ..).symm
  rw [chunkBody, readSrc_of_reachable hl hr, readSrc_of_short (by omega), hrest]
  rfl

/-- Settles O33: the four places where a chunk can be cut short. -/
theorem chunkShortfalls : Obligations.ChunkShortfalls := by
  intro s hrange
  have hrem := fromCursor_remaining s
  rw [execChunk_of_srcRange hrange]
  refine ⟨fun h => ?_, fun h0 h4 => ?_, fun h4 h8 hr => ?_, fun len hlen hfit hshort hr ha => ?_⟩
  · rw [chunkStep_of_empty (by omega)]
    simp
  · rw [chunkStep_of_short_length (by omega) (by omega)]
    simp
  · have hcur : word (s.cursor.toNat + 4) = s.cursor + 4#32 := word_add s.cursor 4
    rw [chunkStep_of_short_tag (by omega) (by omega) hr, fromCursor_pos, hcur]
    simp
  · have hrest : (s.withPos (s.cursor.toNat + 8)).remaining = s.srcLen.toNat - (s.cursor.toNat + 8) := rfl
    have hdata : Reachable s (s.srcAddr.toNat + (s.cursor.toNat + 8)) len := Reachable.sub hr (by omega) (by omega)
    rw [chunkStep_fromCursor (by omega) (Reachable.sub hr le_rfl (by omega)), chunkTag_of_fits ha (by omega), ← hlen,
      chunkBody_of_short_crc (by omega) (by omega) hdata]
    simp [Nat.sub_sub]

end Sys2Proof.Machine
end

/-! ## WALK (spec/40_chunk_crc.md R105, R106, R112, R120, R121; spec/60_exceptions.md R206) -/

section

namespace Sys2Proof.Machine

open Sys2Proof

/-! ### A text in the SRC range -/

/-- The bytes from CURSOR on are `bs`, inside the SRC range and reachable. -/
structure TextAt (s : State) (bs : List Byte) : Prop where
  fits : s.cursor.toNat + bs.length ≤ s.srcLen.toNat
  reachable : Reachable s (s.srcAddr.toNat + s.cursor.toNat) bs.length
  bytes : s.engineBytes (s.srcAddr.toNat + s.cursor.toNat) bs.length = bs

/-- The text begins with its first part. -/
theorem TextAt.left {s : State} {xs ys : List Byte} (h : TextAt s (xs ++ ys)) : TextAt s xs where
  fits := by
    have hfits := h.fits
    rw [List.length_append] at hfits
    omega
  reachable := Reachable.sub h.reachable le_rfl (by simp)
  bytes := by
    rw [engineBytes_take (n := (xs ++ ys).length) (by simp), h.bytes, List.take_left]

/-- Once CURSOR has passed the first part, the rest of the text is ahead. -/
theorem TextAt.right {s t : State} {xs ys : List Byte} (h : TextAt s (xs ++ ys)) (ht : WritesChunkRegs s t)
    (hc : t.cursor = s.cursor + word xs.length) : TextAt t ys := by
  have hfits := h.fits
  rw [List.length_append] at hfits
  have hpos : t.cursor.toNat = s.cursor.toNat + xs.length := by
    have hlt := s.srcLen.isLt
    rw [hc, toNat_add_word (by omega)]
  have hlen : t.srcLen = s.srcLen := by rw [ht]
  have hreach (a n : Nat) : Reachable t a n ↔ Reachable s a n := by rw [ht]; rfl
  have hbytes (a n : Nat) : t.engineBytes a n = s.engineBytes a n := by rw [ht]; rfl
  have haddr : t.srcAddr = s.srcAddr := by rw [ht]
  refine ⟨by rw [hpos, hlen]; omega, ?_, ?_⟩
  · rw [hreach, haddr, hpos]
    exact Reachable.sub h.reachable (by omega) (by rw [List.length_append]; omega)
  · rw [hbytes, haddr, hpos, ← Nat.add_assoc,
      engineBytes_drop_take (n := (xs ++ ys).length) (by rw [List.length_append]), h.bytes, List.drop_left,
      List.take_length]

/-! ### Chunks recorded one after another -/

theorem word_add_word (m n : Nat) : word m + word n = word (m + n) := (BitVec.ofNat_add m n).symm

/-- The state in which the chunks are recorded in turn (R106). -/
def recordedAll (s : State) (chunks : List ChunkText) : State :=
  chunks.foldl (fun u c => recorded u c.tag c.data c.crc) s

theorem recordedAll_cons (s : State) (c : ChunkText) (rest : List ChunkText) :
    recordedAll s (c :: rest) = recordedAll (recorded s c.tag c.data c.crc) rest := rfl

theorem recorded_writes (s : State) (tag data : List Byte) (rx : Word) : WritesChunkRegs s (recorded s tag data rx) :=
  rfl

theorem recordedAll_writes (s : State) (chunks : List ChunkText) : WritesChunkRegs s (recordedAll s chunks) := by
  induction chunks generalizing s with
  | nil => exact rfl
  | cons c rest ih => exact (recorded_writes s c.tag c.data c.crc).trans (ih _)

theorem recordedAll_chkCount (s : State) (chunks : List ChunkText) :
    (recordedAll s chunks).chkCount = s.chkCount + word chunks.length := by
  induction chunks generalizing s with
  | nil => simp [recordedAll, word]
  | cons c rest ih =>
    have hone : (recorded s c.tag c.data c.crc).chkCount = s.chkCount + word 1 := rfl
    rw [recordedAll_cons, ih, hone, BitVec.add_assoc, word_add_word, List.length_cons, Nat.add_comm]

theorem recordedAll_cursor (s : State) {chunks : List ChunkText} (hok : ∀ c ∈ chunks, c.ok = true) :
    (recordedAll s chunks).cursor = s.cursor + word (chunks.flatMap ChunkText.bytes).length := by
  induction chunks generalizing s with
  | nil => simp [recordedAll, word]
  | cons c rest ih =>
    have hone : (recorded s c.tag c.data c.crc).cursor = s.cursor + word c.bytes.length := by
      rw [ChunkText.bytes_length (hok c List.mem_cons_self)]
      rfl
    rw [recordedAll_cons, ih _ fun d hd => hok d (List.mem_cons_of_mem _ hd), hone, BitVec.add_assoc, word_add_word,
      List.flatMap_cons, List.length_append]

/-- The state a chunk step leaves that has read and recorded the chunk at CURSOR. -/
def afterChunk (s : State) (c : ChunkText) : State :=
  (recorded s c.tag c.data c.crc).fromCursor.withCrcAcc (crcBytes crcOnes (c.tag ++ c.data))

/-- A chunk step over an encoded chunk at CURSOR, whatever CRC accumulator an earlier chunk left. -/
theorem chunkStep_of_textAt {s : State} {c : ChunkText} (hok : c.ok = true) (hp : c.passesCrc s.ctrl)
    (h : TextAt s c.bytes) (acc : Word) :
    chunkStep (s.fromCursor.withCrcAcc acc) = .ok (afterChunk s c) := by
  obtain ⟨hfits, hr, hb⟩ := h
  rw [ChunkText.bytes_length hok] at hfits hr hb
  have hstep := chunkStep_of_text (s := s.fromCursor.withCrcAcc acc) hok
    (show 12 + c.data.length ≤ s.srcLen.toNat - s.cursor.toNat by omega) hr hb hp
  have hrec := chunkRecorded_fromCursor (s := s) (tag := c.tag) (data := c.data) (crcField := beBytes c.crc.toNat)
    (beNat_beBytes (ChunkText.ok_facts hok).2.2) (hfits.trans_lt s.srcLen.isLt)
  rw [be32_beBytes] at hrec
  rw [hstep, afterChunk, ← hrec]
  rfl

/-- One round of WALK's loop over an encoded chunk at CURSOR (R120). -/
theorem walkLoop_of_textAt {s : State} {c : ChunkText} (hok : c.ok = true) (hp : c.passesCrc s.ctrl)
    (h : TextAt s c.bytes) (k : Nat) (first : Bool) (acc : Word) :
    walkLoop (k + 1) first (s.fromCursor.withCrcAcc acc) =
      if first ∧ s.ihdrFirstEn ∧ be32 c.tag ≠ tagIHDR then
        .raised ⟨.ihdrNotFirst, be32 c.tag, 0#32, s.cursor⟩ (afterChunk s c)
      else if be32 c.tag = tagIEND then .ok (afterChunk s c) else walkLoop k false (afterChunk s c) := by
  have hstart : (afterChunk s c).chkDataOff - 8#32 = s.cursor := BitVec.add_sub_cancel _ _
  rw [walkLoop_succ, chunkStep_of_textAt hok hp h acc, Run.andThen_ok, hstart]
  rfl

/-- WALK's loop gets past chunks that are not IEND, the first being IHDR where that is asked for. -/
theorem walkLoop_of_chunks {chunks : List ChunkText} : ∀ {s : State} {first : Bool} (k : Nat) (acc : Word),
    (∀ c ∈ chunks, c.ok = true ∧ c.passesCrc s.ctrl ∧ be32 c.tag ≠ tagIEND) →
    (first = true → s.ihdrFirstEn = true → ∀ c, chunks.head? = some c → be32 c.tag = tagIHDR) →
    TextAt s (chunks.flatMap ChunkText.bytes) →
    ∃ acc', walkLoop (chunks.length + k) first (s.fromCursor.withCrcAcc acc) =
      walkLoop k (first && chunks.isEmpty) ((recordedAll s chunks).fromCursor.withCrcAcc acc') := by
  induction chunks with
  | nil =>
    intro s first k acc _ _ _
    exact ⟨acc, by simp [recordedAll]⟩
  | cons c rest ih =>
    intro s first k acc hgood hfirst htext
    obtain ⟨hok, hp, hend⟩ := hgood c List.mem_cons_self
    rw [List.flatMap_cons] at htext
    have hahead : TextAt (recorded s c.tag c.data c.crc) (rest.flatMap ChunkText.bytes) :=
      htext.right (recorded_writes ..) (by rw [ChunkText.bytes_length hok]; rfl)
    obtain ⟨acc', hrest⟩ := ih (s := recorded s c.tag c.data c.crc) (first := false) k
      (crcBytes crcOnes (c.tag ++ c.data)) (fun d hd => hgood d (List.mem_cons_of_mem _ hd)) (fun h => absurd h (by simp)) hahead
    refine ⟨acc', ?_⟩
    rw [List.length_cons, Nat.add_right_comm, walkLoop_of_textAt hok hp htext.left,
      if_neg fun ⟨h1, h2, h3⟩ => h3 (hfirst h1 h2 c rfl), if_neg hend, afterChunk, hrest]
    simp [recordedAll_cons]

/-! ### The start of a walk -/

/-- The state a walk's loop starts from, the signature accepted (R105, R120). -/
def walkStart (s : State) : State := { s with chkCount := 0#32, cursor := s.cursor + 8#32 }

theorem walkStart_writes (s : State) : WritesChunkRegs s (walkStart s) := rfl

theorem walkStart_textAt {s : State} {bs : List Byte} (h : TextAt s (sigBytes ++ bs)) : TextAt (walkStart s) bs :=
  h.right (walkStart_writes s) rfl

/-- A walk over a text that begins with the signature is its loop over the rest. -/
theorem execWalk_of_textAt {s : State} {bs : List Byte} (hrange : s.srcAddr.toNat + s.srcLen.toNat ≤ 0x100000000)
    (h : TextAt s (sigBytes ++ bs)) :
    exec .walk s = (walkLoop (walkStart s).fromCursor.walkFuel true (walkStart s).fromCursor).finish := by
  obtain ⟨hfits, hr, hb⟩ := h.left
  have hpos : (walkStart s).cursor.toNat = s.cursor.toNat + 8 := toNat_add_word (hfits.trans_lt s.srcLen.isLt)
  have hstart : (({ s with chkCount := 0#32 } : State).withPos (s.cursor.toNat + 8)).withCursor =
      (walkStart s).fromCursor := by
    have hcur : word (s.cursor.toNat + 8) = s.cursor + 8#32 := word_add s.cursor 8
    rw [State.fromCursor, hpos, State.withCursor, State.withPos_scratch, hcur]
    rfl
  rw [execWalk_of_signature hrange hfits hr hb, hstart]

/-- The bound of R121 allows for every chunk of a text and one round more. -/
theorem exists_walkFuel_eq {s : State} {chunks : List ChunkText} (hok : ∀ c ∈ chunks, c.ok = true)
    (h : TextAt s (chunks.flatMap ChunkText.bytes)) :
    ∃ k, s.fromCursor.walkFuel = chunks.length + (k + 1) := by
  have hlen := length_flatMap_bytes hok
  have hfits := h.fits
  rw [State.walkFuel, fromCursor_remaining]
  exact ⟨(s.srcLen.toNat - s.cursor.toNat) / 12 - chunks.length, by omega⟩

/-- A walk over a signature and chunks that are not IEND gets to the round after them. -/
theorem execWalk_of_chunks {s : State} {chunks : List ChunkText} {bs : List Byte}
    (hrange : s.srcAddr.toNat + s.srcLen.toNat ≤ 0x100000000)
    (hgood : ∀ c ∈ chunks, c.ok = true ∧ c.passesCrc s.ctrl ∧ be32 c.tag ≠ tagIEND)
    (hfirst : s.ihdrFirstEn = true → ∀ c, chunks.head? = some c → be32 c.tag = tagIHDR)
    (h : TextAt s (sigBytes ++ (chunks.flatMap ChunkText.bytes ++ bs))) :
    ∃ k acc, exec .walk s = (walkLoop (k + 1) chunks.isEmpty
      ((recordedAll (walkStart s) chunks).fromCursor.withCrcAcc acc)).finish := by
  have hchunks := (walkStart_textAt h).left
  obtain ⟨k, hk⟩ := exists_walkFuel_eq (fun c hc => (hgood c hc).1) hchunks
  obtain ⟨acc, hloop⟩ := walkLoop_of_chunks (s := walkStart s) (first := true) (k + 1) (walkStart s).scratch.crcAcc
    hgood (fun _ => hfirst) hchunks
  refine ⟨k, acc, ?_⟩
  rw [execWalk_of_textAt hrange h, hk, ← Bool.true_and chunks.isEmpty, ← hloop]
  rfl

/-! ### The statements -/

/-- What a walk has recorded over `chunks` and one chunk more, `n` bytes in all with the signature, whatever the chunk
registers held before. -/
theorem endsOk_recorded_walked (s : State) {chunks : List ChunkText} (hok : ∀ c ∈ chunks, c.ok = true)
    (tag data : List Byte) (rx : Word) {n : Nat}
    (hn : n = 8 + (chunks.flatMap ChunkText.bytes).length + (12 + data.length)) :
    endsOk (recorded (recordedAll (walkStart s) chunks) tag data rx) = endsOk { s with
      chkLen := word data.length, chkType := be32 tag, chkFlags := tagFlags tag
      chkDataOff := word (s.cursor.toNat + n - 4 - data.length), chkCrcRx := rx, chkCrcCalc := crc32 (tag ++ data)
      chkCount := word (chunks.length + 1), cursor := word (s.cursor.toNat + n) } := by
  have hwrites := (walkStart_writes s).trans (recordedAll_writes (walkStart s) chunks)
  have hstart : (recordedAll (walkStart s) chunks).cursor =
      word (s.cursor.toNat + (8 + (chunks.flatMap ChunkText.bytes).length)) := by
    rw [recordedAll_cursor _ hok, word_add, ← word_add_word, ← BitVec.add_assoc]
    rfl
  have hoff : word (s.cursor.toNat + n - 4 - data.length) = (recordedAll (walkStart s) chunks).cursor + word 8 := by
    rw [hstart, word_add_word]
    exact congrArg word (by omega)
  have hcursor : word (s.cursor.toNat + n) = (recordedAll (walkStart s) chunks).cursor + word (12 + data.length) := by
    rw [hstart, word_add_word, hn, Nat.add_assoc s.cursor.toNat]
  have hcount : word (chunks.length + 1) = (recordedAll (walkStart s) chunks).chkCount + word 1 := by
    rw [recordedAll_chkCount, ← word_add_word]
    exact congrArg (· + word 1) (BitVec.zero_add _).symm
  rw [hoff, hcursor, hcount]
  unfold recorded
  rw [hwrites]
  rfl

/-- Settles O36: the loop gets past every chunk but the last, and IEND ends it. -/
theorem walkAcceptsEncodedStream : Obligations.WalkAcceptsEncodedStream := by
  intro s chunks last stream hgood hok hp hend hihdr hstream hrange hfits hr hb
  have heq : stream = sigBytes ++ (chunks.flatMap ChunkText.bytes ++ last.bytes) := by
    simpa [sigBytes] using hstream
  have hlength : stream.length = 8 + (chunks.flatMap ChunkText.bytes).length + (12 + last.data.length) := by
    rw [heq, List.length_append, List.length_append, ChunkText.bytes_length hok, ← Nat.add_assoc]
    rfl
  have htext : TextAt s (sigBytes ++ (chunks.flatMap ChunkText.bytes ++ last.bytes)) := heq ▸ ⟨hfits, hr, hb⟩
  have hchunks : ∀ c ∈ chunks, c.ok = true := fun c hc => (hgood c hc).1
  have hfirst : s.ihdrFirstEn = true → ∀ c, (chunks ++ [last]).head? = some c → be32 c.tag = tagIHDR := by
    intro h c hc
    obtain ⟨d, hd, htag⟩ := hihdr h
    obtain rfl : c = d := by simpa [hc] using hd
    exact htag
  obtain ⟨k, acc, hwalk⟩ := execWalk_of_chunks hrange hgood
    (fun h c hc => hfirst h c (by rw [List.head?_append, hc]; rfl)) htext
  have hwrites := (walkStart_writes s).trans (recordedAll_writes (walkStart s) chunks)
  have hctrl : (recordedAll (walkStart s) chunks).ctrl = s.ctrl := by rw [hwrites]
  have hahead : TextAt (recordedAll (walkStart s) chunks) last.bytes :=
    (walkStart_textAt htext).right (recordedAll_writes ..) (recordedAll_cursor _ hchunks)
  have hihdrLast : ¬ (chunks.isEmpty = true ∧ (recordedAll (walkStart s) chunks).ihdrFirstEn = true ∧
      be32 last.tag ≠ tagIHDR) := by
    rw [State.ihdrFirstEn, hctrl]
    rintro ⟨hnil, h, hne⟩
    exact hne (hfirst h last (by rw [List.isEmpty_iff.mp hnil]; rfl))
  rw [hwalk, walkLoop_of_textAt hok (by rwa [hctrl]) hahead, if_neg hihdrLast, if_pos (show _ = tagIEND from hend)]
  have hrecorded := endsOk_recorded_walked s hchunks last.tag last.data last.crc hlength
  rw [hend] at hrecorded
  exact congrArg Host.Outcome.next hrecorded

/-- `s` with CHK_COUNT cleared, as a walk starts (R120). -/
def State.zeroCount (s : State) : State := { s with chkCount := 0#32 }

theorem readsAlike_zeroCount : ReadsAlike State.zeroCount := by
  constructor <;> intros <;> rfl

/-- A signature that ends SIG with an error ends a walk with it. -/
theorem execWalk_of_sig_error {s t : State} (hrange : s.srcAddr.toNat + s.srcLen.toNat ≤ 0x100000000)
    (h : exec .sig s = .next t) (hcode : t.code ≠ .ok) : exec .walk s = .next t.zeroCount := by
  rw [exec_of_srcRange (by simp) hrange] at h ⊢
  rcases Run.finish_eq_next h with ⟨u, -, rfl⟩ | ⟨e, u, hsig, rfl⟩
  · exact absurd rfl hcode
  · have hsig0 : sigStep s.zeroCount.fromCursor = .raised e u.zeroCount :=
      (readsAlike_zeroCount.sigStep s.fromCursor).trans (congrArg (Run.mapState State.zeroCount) hsig)
    exact congrArg (fun r => Run.finish (r.andThen fun v => walkLoop v.walkFuel true v)) hsig0

/-- An error of the next chunk step ends the walk. -/
theorem finish_walkLoop_of_chunk_error {s t : State} (hrange : s.srcAddr.toNat + s.srcLen.toNat ≤ 0x100000000)
    (h : exec .chunk s = .next t) (hcode : t.code ≠ .ok) (k : Nat) (first : Bool) (acc : Word) :
    (walkLoop (k + 1) first (s.fromCursor.withCrcAcc acc)).finish = .next t := by
  rw [execChunk_of_srcRange hrange, ← chunkStep_crcAcc _ acc] at h
  rcases Run.finish_eq_next h with ⟨u, -, rfl⟩ | ⟨e, u, hstep, rfl⟩
  · exact absurd rfl hcode
  · rw [walkLoop_succ, hstep]
    rfl

/-- Settles O37: the signature's error, the next chunk's error after any good chunks, and a first chunk that is not
IHDR. -/
theorem walkEndsAtTheFirstError : Obligations.WalkEndsAtTheFirstError := by
  refine ⟨fun s t => execWalk_of_sig_error, ?_, ?_⟩
  · intro s t chunks stream hgood hfirst hstream hrange hfits hr hb hchunk hcode
    have heq : stream = sigBytes ++ (chunks.flatMap ChunkText.bytes ++ []) := by rw [hstream, List.append_nil]; rfl
    have htext : TextAt s (sigBytes ++ (chunks.flatMap ChunkText.bytes ++ [])) := heq ▸ ⟨hfits, hr, hb⟩
    obtain ⟨k, acc, hwalk⟩ := execWalk_of_chunks hrange hgood hfirst htext
    have hwrites := (walkStart_writes s).trans (recordedAll_writes (walkStart s) chunks)
    have hrange' : (recordedAll (walkStart s) chunks).srcAddr.toNat +
        (recordedAll (walkStart s) chunks).srcLen.toNat ≤ 0x100000000 := by
      rw [hwrites]
      exact hrange
    rw [hwalk]
    exact finish_walkLoop_of_chunk_error hrange' hchunk hcode k _ acc
  · intro s c hok hp htag hen hrange hfits hr hb
    have hlength : (sigBytes ++ c.bytes).length = 20 + c.data.length := by
      rw [List.length_append, ChunkText.bytes_length hok, ← Nat.add_assoc]
      rfl
    have htext : TextAt s (sigBytes ++ c.bytes) := by
      refine ⟨?_, ?_, ?_⟩ <;> rw [hlength]
      · omega
      · exact hr
      · exact hb
    obtain ⟨k, acc, hwalk⟩ := execWalk_of_chunks (chunks := []) hrange (by simp) (by simp) htext
    have hround := walkLoop_of_textAt (s := walkStart s) hok hp (walkStart_textAt htext) k true acc
    rw [if_pos ⟨rfl, hen, htag⟩] at hround
    exact hwalk.trans (congrArg Run.finish hround)

/-- Settles O38: every chunk step that returns uses at least 12 bytes, so both bounds are large enough. -/
theorem walkNeverRunsOut : Obligations.WalkNeverRunsOut := fun s first k =>
  walkLoop_fuel _ _ s first (Nat.lt_add_right k (Nat.lt_succ_self _)) (Nat.lt_succ_self _)

end Sys2Proof.Machine
end

/-! ## The bytes of a reconstructed scanline (spec/41_scanline_filter.md R142, R143, R150 to R152;
spec/95_test_vectors.md S-6) -/

section

namespace Sys2Proof.Machine

open Sys2Proof

/-! ### The predictor sum and the neighbours -/

@[simp] theorem addPred_toNat (raw : Byte) (p : Nat) : (addPred raw p).toNat = (raw.toNat + p) % 256 :=
  BitVec.toNat_ofNat _ _

/-- The decoder's sum undoes the encoder's difference, both mod 256. -/
theorem addPred_sub_ofNat (b : Byte) (p : Nat) : addPred (b - BitVec.ofNat 8 p) p = b := by
  refine BitVec.eq_of_toNat_eq ?_
  have hb := b.isLt
  simp only [addPred_toNat, BitVec.toNat_sub, BitVec.toNat_ofNat]
  omega

theorem back_of_lt {bpp x : Nat} (h : x < bpp) (bs : List Byte) : back bs bpp x = 0#8 := if_neg (by omega)

/-- A neighbour to the left is among the bytes before `x`. -/
theorem back_take {bpp : Nat} (h : 0 < bpp) (bs : List Byte) (x : Nat) : back (bs.take x) bpp x = back bs bpp x := by
  unfold back
  split
  · rw [List.getD_eq_getElem?_getD, List.getD_eq_getElem?_getD, List.getElem?_take_of_lt (by omega)]
  · rfl

@[simp] theorem zeroRow_getD (n x : Nat) : (zeroRow n).getD x 0#8 = 0#8 := by
  rw [zeroRow, List.getD_eq_getElem?_getD, List.getElem?_replicate]
  split <;> rfl

@[simp] theorem back_zeroRow (n bpp x : Nat) : back (zeroRow n) bpp x = 0#8 := by
  unfold back
  split
  · exact zeroRow_getD n _
  · rfl

/-! ### The bytes of a row -/

section

variable {pred : Predictor} {bpp : Nat} {prior : List Byte}

/-- A byte that is reconstructed comes from the bytes reconstructed before it. -/
theorem reconRow_getD_of_cur {raw : List Byte} : ∀ {cur : List Byte} {x : Nat}, x < raw.length →
    (reconRow pred bpp prior cur raw).getD (cur.length + x) 0#8 =
      reconByte pred bpp prior ((reconRow pred bpp prior cur raw).take (cur.length + x)) (raw.getD x 0#8) := by
  induction raw with
  | nil => intro cur x hx; exact absurd hx (Nat.not_lt_zero x)
  | cons r rest ih =>
    intro cur x hx
    cases x with
    | zero =>
      have hcur : (reconRow pred bpp prior cur (r :: rest)).take cur.length = cur := reconRow_take ..
      have hnext := reconRow_take pred bpp prior (cur ++ [reconByte pred bpp prior cur r]) rest
      rw [Nat.add_zero, hcur, List.getD_cons_zero, reconRow_cons, List.getD_eq_getElem?_getD,
        ← List.getElem?_take_of_lt (j := (cur ++ [reconByte pred bpp prior cur r]).length) (by simp), hnext]
      simp
    | succ x =>
      have h := ih (cur := cur ++ [reconByte pred bpp prior cur r]) (x := x) (by simpa using hx)
      rwa [List.length_append, List.length_singleton, Nat.add_assoc, Nat.add_comm 1 x, ← reconRow_cons] at h

/-- Byte `x` of a reconstructed row, from the bytes before it (R152). -/
theorem reconRow_getD {raw : List Byte} {x : Nat} (hx : x < raw.length) :
    (reconRow pred bpp prior [] raw).getD x 0#8 =
      reconByte pred bpp prior ((reconRow pred bpp prior [] raw).take x) (raw.getD x 0#8) := by
  simpa using reconRow_getD_of_cur (cur := []) hx

/-- `reconByte` on the first `x` bytes of a row. -/
theorem reconByte_take (hb : 0 < bpp) {row : List Byte} {x : Nat} (hx : x ≤ row.length) (raw : Byte) :
    reconByte pred bpp prior (row.take x) raw =
      addPred raw (pred (back row bpp x).toNat (prior.getD x 0#8).toNat (back prior bpp x).toNat) := by
  simp only [reconByte, List.length_take_of_le hx, back_take hb]

/-- The first `bpp` bytes have no left neighbours. -/
theorem reconByte_of_length_lt {cur : List Byte} (h : cur.length < bpp) (raw : Byte) :
    reconByte pred bpp prior cur raw = addPred raw (pred 0 (prior.getD cur.length 0#8).toNat 0) := by
  simp only [reconByte, back_of_lt h, BitVec.toNat_ofNat, Nat.zero_mod]

theorem reconRow_congr {pred' : Predictor}
    (h : ∀ cur r, reconByte pred bpp prior cur r = reconByte pred' bpp prior cur r) :
    ∀ cur raw, reconRow pred bpp prior cur raw = reconRow pred' bpp prior cur raw := by
  intro cur raw
  induction raw generalizing cur with
  | nil => rfl
  | cons r rest ih => rw [reconRow_cons, reconRow_cons, h, ih]

end

/-- Settles O44: byte `x` is `reconByte` of the bytes before it, whose neighbours are the whole row's. -/
theorem reconstructedByteRule : Obligations.ReconstructedByteRule := by
  intro i pred bpp prior raw _ hb
  have hlength : (reconRow pred bpp prior [] raw).length = raw.length := by simp [reconRow_length]
  refine ⟨hlength, fun x hx => ?_⟩
  rw [reconRow_getD hx, reconByte_take hb (by omega), addPred_toNat]

/-! ### The Paeth predictor -/

/-- Settles O45: the definition's three branches, and the distances compared in each. -/
theorem paethTieOrder : Obligations.PaethTieOrder := by
  intro a b c p pa pb pc
  have hdef : paeth a b c = if pa ≤ pb ∧ pa ≤ pc then a else if pb ≤ pc then b else c := rfl
  by_cases ha : pa ≤ pb ∧ pa ≤ pc
  · rw [if_pos ha] at hdef
    exact ⟨fun _ => hdef, fun hn => absurd ha hn, fun hn => absurd ha hn, .inl hdef, by rw [hdef]; exact ⟨le_rfl, ha⟩⟩
  · rw [if_neg ha] at hdef
    by_cases hb : pb ≤ pc
    · rw [if_pos hb] at hdef
      exact ⟨fun h => absurd h ha, fun _ _ => hdef, fun _ hn => absurd hb hn, .inr (.inl hdef),
        by rw [hdef]; exact ⟨show pb ≤ pa by omega, le_rfl, hb⟩⟩
    · rw [if_neg hb] at hdef
      exact ⟨fun h => absurd h ha, fun _ h => absurd h hb, fun _ _ => hdef, .inr (.inr hdef),
        by rw [hdef]; exact ⟨show pc ≤ pa by omega, show pc ≤ pb by omega, le_rfl⟩⟩

theorem paeth_left (a : Nat) : paeth a 0 0 = a := by
  simp [paeth]

theorem paeth_up (b : Nat) : paeth 0 b 0 = b := by
  simp only [paeth]
  split_ifs <;> omega

/-- Settles O46: under a zero row only the left neighbour is left, and in the first `bpp` bytes only the upper one. -/
theorem paethAtTheEdges : Obligations.PaethAtTheEdges := by
  refine ⟨fun bpp n raw => reconRow_congr (fun cur r => ?_) [] raw, fun bpp x prior raw hx hr => ?_⟩
  · simp only [reconByte, zeroRow_getD, back_zeroRow, BitVec.toNat_ofNat, Nat.zero_mod, paeth_left]
  · have hshort : ∀ row : List Byte, (row.take x).length < bpp := fun row => by rw [List.length_take]; omega
    have hlength : ∀ pred, (reconRow pred bpp prior [] raw).length = raw.length := fun pred => by simp [reconRow_length]
    rw [reconRow_getD hr, reconRow_getD hr, reconByte_of_length_lt (hshort _), reconByte_of_length_lt (hshort _),
      List.length_take_of_le (by rw [hlength]; omega), List.length_take_of_le (by rw [hlength]; omega), paeth_up]

/-! ### Encoding and reconstructing -/

theorem filterEncode_length (pred : Predictor) (bpp : Nat) (prior row : List Byte) :
    (filterEncode pred bpp prior row).length = row.length := by
  simp [filterEncode]

theorem filterEncode_getD (pred : Predictor) (bpp : Nat) (prior : List Byte) {row : List Byte} {x : Nat}
    (hx : x < row.length) :
    (filterEncode pred bpp prior row).getD x 0#8 = row.getD x 0#8 -
      BitVec.ofNat 8 (pred (back row bpp x).toNat (prior.getD x 0#8).toNat (back prior bpp x).toNat) := by
  simp [filterEncode, hx]

/-- The rows agree in their first `k` bytes, byte after byte. -/
theorem reconRow_filterEncode_take {pred : Predictor} {bpp : Nat} (hb : 0 < bpp) (prior row : List Byte) {k : Nat}
    (hk : k ≤ row.length) :
    (reconRow pred bpp prior [] (filterEncode pred bpp prior row)).take k = row.take k := by
  induction k with
  | zero => rfl
  | succ k ih =>
    have hrow : k < row.length := hk
    have hraw : k < (filterEncode pred bpp prior row).length := by rwa [filterEncode_length]
    have hrec : k < (reconRow pred bpp prior [] (filterEncode pred bpp prior row)).length := by
      simpa [reconRow_length] using hraw
    have hbyte := reconRow_getD (pred := pred) (bpp := bpp) (prior := prior) hraw
    rw [ih (by omega), filterEncode_getD _ _ _ hrow, reconByte_take hb (by omega), addPred_sub_ofNat,
      List.getD_eq_getElem _ _ hrec, List.getD_eq_getElem _ _ hrow] at hbyte
    rw [← List.take_append_getElem hrec, ← List.take_append_getElem hrow, ih (by omega), hbyte]

/-- Settles O47, by induction on how many bytes agree. -/
theorem filterRoundTrip : Obligations.FilterRoundTrip := by
  intro i pred bpp prior row _ hb
  have hlength : (reconRow pred bpp prior [] (filterEncode pred bpp prior row)).length = row.length := by
    simp [reconRow_length, filterEncode_length]
  have h := reconRow_filterEncode_take (pred := pred) hb prior row le_rfl
  rwa [List.take_length, ← hlength, List.take_length] at h

end Sys2Proof.Machine
end

/-! ## One scanline of a row loop (spec/41_scanline_filter.md R144, R146 to R149, R151, R153, R160;
spec/60_exceptions.md R202, R203, R207) -/

section

namespace Sys2Proof.Machine

open Sys2Proof

/-! ### The filter-type byte -/

section

variable {s : State} {sc : Scan} {g : Image} {more : List Image}

theorem rowHead_of_instr {i : Instr} (hs : s.scratch.scan = some sc) (hi : sc.images = g :: more)
    (hr : s.reachable (s.srcAddr.toNat + sc.inOff) = true)
    (hd : decodeFilter (s.engineByte (s.srcAddr.toNat + sc.inOff)) = .instr i) : rowHead s = .filter i := by
  simp only [rowHead, hs, hi, firstBlocked, reachable_iff.mp hr, hd]

theorem rowHead_of_illegal {ft : Byte} (hs : s.scratch.scan = some sc) (hi : sc.images = g :: more)
    (hr : Reachable s (s.srcAddr.toNat + sc.inOff) (1 + rowBytes s.imgFmt g.width))
    (hd : decodeFilter (s.engineByte (s.srcAddr.toNat + sc.inOff)) = .illegalFilter ft) :
    rowHead s = .stop (unsupportedFilter s sc g ft) := by
  have hhead : s.reachable (s.srcAddr.toNat + sc.inOff) = true := hr 0 (by omega)
  have hraw : Reachable s (s.srcAddr.toNat + sc.inOff + 1) (rowBytes s.imgFmt g.width) := fun i hlt => by
    rw [Nat.add_assoc]
    exact hr (1 + i) (by omega)
  simp only [rowHead, hs, hi, firstBlocked, reachable_iff.mp hhead, hd, memRead_of_reachable hraw]

/-- The engine's turn in a row loop fetches the next scanline's filter type (R144). -/
theorem engineTurn_of_filter {w : Word} {i : Instr} (he : s.engine = .busy w) (hs : s.scratch.scan = some sc)
    (hh : rowHead s = .filter i) (grain : Grain) : engineTurn grain s = exec i s := by
  simp only [engineTurn, fetch, he, hs, fetchFilter, hh]

theorem engineTurn_of_stop {w : Word} {r : Run} (he : s.engine = .busy w) (hs : s.scratch.scan = some sc)
    (hh : rowHead s = .stop r) (grain : Grain) : engineTurn grain s = r.close := by
  simp only [engineTurn, fetch, he, hs, fetchFilter, hh]

end

theorem step_of_no_input {s : State} (h : s.inputs = []) : step s = engineTurn .command s := by
  rw [step, h]

theorem step_of_engine_input {s : State} {grain : Grain} {rest : List Event} (h : s.inputs = .engine grain :: rest) :
    step s = engineTurn grain { s with inputs := rest } := by
  rw [step, h]

/-- Settles O5: the turn fetches the filter type, whether it comes by default or is listed. -/
theorem engineTurnRunsFilterByte : Obligations.EngineTurnRunsFilterByte := by
  intro s w sc g more i rest he hs hi hr hd
  refine ⟨fun hin => ?_, fun hin => ?_⟩
  · rw [step_of_no_input hin]
    exact engineTurn_of_filter he hs (rowHead_of_instr hs hi hr hd) _
  · rw [step_of_engine_input hin]
    exact engineTurn_of_filter (s := { s with inputs := rest }) he hs (rowHead_of_instr hs hi hr hd) _

/-! ### An illegal filter type -/

theorem drawDst_read_inside {s : State} (hw : Memory.wf s.mem = true) {a : Nat} (ha : ¬ OutsideDst s a)
    (hp : s.present a = true) : Memory.read s.drawDst.mem a = Config.freeByte (s.draws + 1) a := by
  refine read_writeAll_of hw (fun c hc => ?_) ⟨(a, _), List.mem_map.mpr ⟨a, ?_, rfl⟩, rfl⟩ fun c hc hca => ?_
  · obtain ⟨x, hx, rfl⟩ := List.mem_map.mp hc
    exact present_lt (mem_dstAddrs.mp hx).2
  · exact mem_dstAddrs.mpr ⟨not_not.mp ha, hp⟩
  · obtain ⟨x, -, rfl⟩ := List.mem_map.mp hc
    exact congrArg _ hca

/-- Settles O50: the error's state is the drawn one, and a drawn byte has no posted write left. -/
theorem unsupportedFilterByte : Obligations.UnsupportedFilterByte := by
  intro s w sc g more ft he hin hs hi hw hr hft hbad
  have hhead : rowHead s = .stop (unsupportedFilter s sc g ft) :=
    rowHead_of_illegal hs hi hr (hft ▸ decodeFilter_of_ge (hft ▸ hbad))
  have hstep : step s = (unsupportedFilter s sc g ft).close := by
    rw [step_of_no_input hin, engineTurn_of_stop he hs hhead]
  refine ⟨s.drawDst.raise ⟨.unsupportedFilter, ft.setWidth 32, word sc.row, g.passId⟩, hstep, rfl, rfl, rfl, ?_,
    rfl, ?_, rfl, by constructor <;> rfl, by constructor <;> rfl, fun a ha => drawDst_read_outside ha, fun a ha hp => ?_, rfl⟩
  · exact BitVec.eq_of_toNat_eq (by simp [word])
  · cases hp : g.pass <;> simp [Image.passId, hp]
  · have hread := drawDst_read_inside hw ha hp
    obtain ⟨hlo, hhi⟩ := not_not.mp ha
    exact ⟨hread, (hostByte_of_not_posted (not_posted_inside (buf := s.hostBuf) rfl hlo hhi)).trans hread⟩

/-! ### A legal filter type -/

/-- A filter type as an instruction is its row and what follows a row (log 20). -/
theorem exec_of_filterTable {i : Instr} {pred : Predictor} (h : (i, pred) ∈ filterTable) (s : State) :
    exec i s = (filterRow pred s).close := by
  have hrow : exec i s = (rowOf i s).close := by
    simp only [filterTable, List.mem_cons, Prod.mk.injEq, List.not_mem_nil, or_false] at h
    rcases h with ⟨rfl, -⟩ | ⟨rfl, -⟩ | ⟨rfl, -⟩ | ⟨rfl, -⟩ | ⟨rfl, -⟩ <;> rfl
  rw [hrow, rowOf_eq_filterRow h]

/-- The state after a row whose cells are stored, before the command is closed. -/
def State.rowStored (s : State) (sc : Scan) (g : Image) (row : List Byte) : State :=
  ({ s with mem := Memory.writeAll s.mem (rowCells s sc g row) } : State).endRow sc (1 + rowBytes s.imgFmt g.width) row

@[simp] theorem State.rowStored_scan (s : State) (sc : Scan) (g : Image) (row : List Byte) :
    (s.rowStored sc g row).scratch.scan = some (sc.next (1 + rowBytes s.imgFmt g.width) row.length) := rfl

section

variable {s : State} {i : Instr} {pred : Predictor} {sc : Scan} {g : Image} {more : List Image} {row : List Byte}

/-- A filter type whose row can be read and stored. -/
theorem exec_filter_of_reachable (hp : (i, pred) ∈ filterTable) (hs : s.scratch.scan = some sc)
    (hi : sc.images = g :: more) (hr : Reachable s (s.srcAddr.toNat + sc.inOff + 1) (rowBytes s.imgFmt g.width))
    (hrow : row = reconRow pred (bppOf s.imgFmt) s.scratch.prior []
      (s.engineBytes (s.srcAddr.toNat + sc.inOff + 1) (rowBytes s.imgFmt g.width)))
    (hc : ∀ c ∈ rowCells s sc g row, s.reachable c.1 = true) :
    exec i s = .next (closeRows (s.rowStored sc g row)) := by
  subst hrow
  rw [exec_of_filterTable hp, filterRow_of_reachable hs hi hr hc]
  rfl

/-- A row that is not the last of its image. -/
theorem rowStored_of_lt (hi : sc.images = g :: more) (hlt : sc.row + 1 < g.height) :
    s.rowStored sc g row = { s with
      mem := Memory.writeAll s.mem (rowCells s sc g row)
      scratch := { s.scratch with
        cur := row
        prior := row
        scan := some { sc with
          row := sc.row + 1
          inOff := sc.inOff + (1 + rowBytes s.imgFmt g.width), outOff := sc.outOff + row.length } } } := by
  simp [State.rowStored, State.endRow, Scan.next_of_lt hi hlt]

/-- The last row of an image or pass: PRIOR is fresh for the next (R153). -/
theorem rowStored_of_ge (hi : sc.images = g :: more) (hge : g.height ≤ sc.row + 1) :
    s.rowStored sc g row = { s with
      mem := Memory.writeAll s.mem (rowCells s sc g row)
      scratch := { s.scratch with
        cur := row
        prior := freshPrior s.imgFmt more
        scan := some { sc with
          images := more, row := 0
          inOff := sc.inOff + (1 + rowBytes s.imgFmt g.width), outOff := sc.outOff + row.length } } } := by
  simp [State.rowStored, State.endRow, Scan.next_of_ge hi hge]

end

/-- Settles O48: with an image left the command goes on; the counters' two cases are the two of the statement. -/
theorem filterRunsOneRow : Obligations.FilterRunsOneRow := by
  intro s i pred sc g more row hp hs hi hmore hr hrow hc
  have himages : (sc.next (1 + rowBytes s.imgFmt g.width) row.length).images ≠ [] := by
    by_cases hlt : sc.row + 1 < g.height
    · simp [Scan.next_of_lt hi hlt, hi]
    · simpa [Scan.next_of_ge hi (by omega)] using hmore.resolve_left hlt
  refine ⟨s.rowStored sc g row, ?_, ?_, fun a ha => Memory.read_writeAll_of_not_mem ha⟩
  · rw [exec_filter_of_reachable hp hs hi hr hrow hc, closeRows_of_images (State.rowStored_scan ..) himages]
  · by_cases hlt : sc.row + 1 < g.height
    · simp only [rowStored_of_lt hi hlt, if_pos hlt, hi]
    · simp only [rowStored_of_ge hi (Nat.not_lt.mp hlt), if_neg hlt]

/-- A byte string stored at addresses that can be reached ends within the address space. -/
theorem cellsAt_end_le {s : State} {a : Nat} {bs : List Byte} (h : ∀ c ∈ cellsAt a bs, s.reachable c.1 = true)
    (hbs : 0 < bs.length) : a + bs.length ≤ 0x100000000 := by
  have hlast := reachable_lt (h _ (mem_cellsAt_iff.mpr ⟨bs.length - 1, by omega, rfl⟩))
  simp only at hlast
  omega

/-- Settles O49: with no image left the command is closed; an unscattered row is one byte string in memory. -/
theorem filterEndsTheCommand : Obligations.FilterEndsTheCommand := by
  intro s i pred sc g row hp hs hi hge hr hrow hc
  have hclose : closeRows (s.rowStored sc g row) = (s.rowStored sc g row).completeOutput sc.needOut := by
    rw [closeRows_of_done (State.rowStored_scan ..) (by rw [Scan.next_of_ge hi hge]), Scan.next_needOut]
  refine ⟨(s.rowStored sc g row).completeOutput sc.needOut, ?_, rfl, fun a ha => Memory.read_writeAll_of_not_mem ha,
    fun hw hscatter x hx => ?_⟩
  · rw [exec_filter_of_reachable hp hs hi hr hrow hc, hclose]
  · have hcells : rowCells s sc g row = cellsAt (s.dstAddr.toNat + sc.outOff) row := by rw [rowCells, hscatter]
    have hread : Memory.read (Memory.writeAll s.mem (rowCells s sc g row)) (s.dstAddr.toNat + sc.outOff + x) =
        row.getD x 0#8 := by
      rw [hcells] at hc ⊢
      exact read_cellsAt hw (cellsAt_end_le hc (by omega)) hx
    refine ⟨hread, fun hout => (hostByte_of_not_posted ?_).trans hread⟩
    exact not_posted_inside (buf := s.hostBuf) (base := s.dstAddr.toNat) (n := sc.needOut) rfl (by omega) (by omega)

end Sys2Proof.Machine
end

/-! ## The checks of the reconstruction commands (spec/41_scanline_filter.md R145, R154, R155;
spec/42_adam7_layout.md R181, R185) -/

section

namespace Sys2Proof.Machine

open Sys2Proof

/-! ### The ten configuration checks, each read alone -/

section

variable (s : State) (i : Instr)

theorem configFails_colorType : configFails s i 1 = true ↔ (!colorTypeLegal (colorType s.imgFmt)) = true := by
  simp [configFails, colorTypeLegal, and_assoc]

theorem configFails_bitDepth : configFails s i 2 = true ↔ (!bitDepthLegal (bitDepth s.imgFmt)) = true := by
  simp [configFails, bitDepthLegal, and_assoc]

/-- The colour types of more than one channel (R140). -/
theorem one_lt_channels (ct : Nat) : [2, 4, 6].contains ct = decide (1 < channels ct) := by
  unfold channels
  split <;> simp_all

theorem configFails_packedDepth :
    configFails s i 3 = true ↔ bitDepth s.imgFmt < 8 ∧ 1 < channels (colorType s.imgFmt) := by
  rw [configFails, one_lt_channels, Bool.and_eq_true, decide_eq_true_eq, decide_eq_true_eq]

theorem configFails_interlace : configFails s i 4 = true ↔ interlace s.imgFmt ≠ 0 ∧ interlace s.imgFmt ≠ 1 := by
  simp [configFails]

theorem configFails_dimensions : configFails s i 5 = true ↔ s.imgWidth = 0#32 ∨ s.imgHeight = 0#32 := by
  simp [configFails, ← BitVec.toNat_inj]

theorem configFails_rowLength : configFails s i 6 = true ↔
    (i = .unfilter ∨ i = .reconstruct) ∧ s.params.maxRowBytes < rowBytes s.imgFmt s.imgWidth.toNat := by
  simp [configFails]

theorem configFails_pixelDepth : configFails s i 7 = true ↔
    (i = .deinterlace ∨ (i = .reconstruct ∧ interlace s.imgFmt = 1)) ∧ bitDepth s.imgFmt < 8 := by
  simp [configFails]

theorem configFails_notInterlaced : configFails s i 8 = true ↔ i = .deinterlace ∧ interlace s.imgFmt ≠ 1 := by
  simp [configFails]

theorem configFails_ranges : configFails s i 9 = true ↔ (!s.srcRangeOk || !s.dstRangeOk) = true := by
  simp [configFails, State.srcRangeOk, State.dstRangeOk]

theorem configFails_overlap : configFails s i 10 = true ↔ s.rangesOverlap = true := Iff.rfl

theorem find?_cons_eq_ite {α : Type} (p : α → Bool) (a : α) (l : List α) :
    (a :: l).find? p = if p a = true then some a else l.find? p := by
  rw [List.find?_cons]
  cases p a <;> rfl

/-- `config_check` reports the first check that fails; there is no check 0. -/
theorem configCheck_eq_find : s.configCheck i = (List.range 11).find? (configFails s i) := by
  have hno : configFails s i 0 = false := rfl
  rw [show List.range 11 = [0, 1, 2, 3, 4, 5, 6, 7, 8, 9, 10] from rfl]
  simp only [find?_cons_eq_ite, List.find?_nil, hno, Bool.false_eq_true, if_false, configFails_colorType,
    configFails_bitDepth, configFails_packedDepth, configFails_interlace, configFails_dimensions, configFails_rowLength,
    configFails_pixelDepth, configFails_notInterlaced, configFails_ranges, configFails_overlap]
  rfl

end

section

variable {s : State} {i : Instr}

theorem configCheck_eq_some {n : Nat} (hn : n ≤ 10) (hf : configFails s i n = true)
    (hb : ∀ m, m < n → configFails s i m = false) : s.configCheck i = some n := by
  rw [configCheck_eq_find, List.find?_range_eq_some]
  exact ⟨hf, List.mem_range.mpr (by omega), fun m hm => by rw [hb m hm]; rfl⟩

theorem configCheck_eq_none (h : ∀ n, n < 11 → configFails s i n = false) : s.configCheck i = none := by
  rw [configCheck_eq_find, List.find?_range_eq_none]
  exact fun n hn => by rw [h n hn]; rfl

/-- A reconstruction command whose checks fail raises their error and does nothing else. -/
theorem exec_of_checkReconstruction_eq_some {e : Error} (hi : i ∈ [Instr.unfilter, .deinterlace, .reconstruct])
    (h : s.checkReconstruction i = some e) : exec i s = .next (s.raise e) := by
  simp only [List.mem_cons, List.not_mem_nil, or_false] at hi
  rcases hi with rfl | rfl | rfl
  · simp [exec, execUnfilter, startUnfilter, startRows, h]
  · simp [exec, execDeinterlace, startDeinterlace, h]
  · simp [exec, execReconstruct, startReconstruct, startRows, h]

theorem checkReconstruction_eq_none (h : ChecksPass s i) : s.checkReconstruction i = none := by
  obtain ⟨hconfig, hsrc, hout⟩ := h
  rw [State.checkReconstruction, configCheck_eq_none hconfig]
  simp [Nat.not_lt.mpr hsrc, Nat.not_lt.mpr hout]

end

/-- Settles O51: `config_check` reports check `n`, and the command raises it. -/
theorem configChecksInOrder : Obligations.ConfigChecksInOrder := by
  intro s i n hi _ hn hf hb
  refine exec_of_checkReconstruction_eq_some (e := configError n) hi ?_
  rw [State.checkReconstruction, configCheck_eq_some hn hf hb]

/-! ### Lengths -/

theorem images_baseline {s : State} (h : interlace s.imgFmt = 0) :
    s.images = [⟨none, s.imgWidth.toNat, s.imgHeight.toNat⟩] := by
  rw [State.images, imagesOf, if_pos h]

/-- A sum over the images is one over all passes, in which an empty pass counts 0 (R154). -/
theorem sum_images_interlaced {s : State} (h : interlace s.imgFmt = 1) (f : Nat → Nat → Nat) :
    (s.images.map fun g => f g.width g.height).sum = ([0, 1, 2, 3, 4, 5, 6].map fun p =>
      if passWidth s.imgWidth.toNat p = 0 ∨ passHeight s.imgHeight.toNat p = 0 then 0
      else f (passWidth s.imgWidth.toNat p) (passHeight s.imgHeight.toNat p)).sum := by
  have hfilter : s.images = (passes s.imgWidth.toNat s.imgHeight.toNat).filter
      fun g => decide ¬(g.width = 0 ∨ g.height = 0) := by
    rw [images_interlaced h]
    exact List.filter_congr fun g _ => by simp [Nat.pos_iff_ne_zero]
  have hsum := List.sum_map_ite (fun g : Image => g.width = 0 ∨ g.height = 0) (fun _ => 0)
    (fun g => f g.width g.height) (passes s.imgWidth.toNat s.imgHeight.toNat)
  rw [List.map_const', List.sum_replicate, smul_zero, zero_add, ← hfilter] at hsum
  rw [← hsum, passes, List.map_map]
  rfl

/-- Settles O52: both layouts' sums, and with the configuration in order the two length errors. -/
theorem lengthChecks : Obligations.LengthChecks := by
  refine ⟨fun s h => ?_, fun s h => ?_, fun s => ?_, fun s i hi hpass => ⟨fun hshort => ?_, fun hsrc hshort => ?_⟩⟩
  · simp [State.needIn, State.needUnf, State.needOut, images_baseline h, h]
  · refine ⟨sum_images_interlaced h fun w v => v * (1 + rowBytes s.imgFmt w),
      sum_images_interlaced h fun w v => v * rowBytes s.imgFmt w, ?_, by simp [State.needOut, State.gridBytes, h]⟩
    rw [images_interlaced h]
    exact List.filter_congr fun g _ => by simp only [Nat.pos_iff_ne_zero]
  · simp [State.needSrc, State.needOut, State.gridBytes]
  · refine exec_of_checkReconstruction_eq_some (e := ⟨.inputShort, sat32 (s.needSrc i), s.srcLen, 0#32⟩) hi ?_
    simp [State.checkReconstruction, configCheck_eq_none hpass, hshort]
  · refine exec_of_checkReconstruction_eq_some (e := ⟨.outputShort, sat32 (s.needOut i), s.dstLen, 0#32⟩) hi ?_
    simp [State.checkReconstruction, configCheck_eq_none hpass, Nat.not_lt.mpr hsrc, hshort]

end Sys2Proof.Machine
end

/-! ## UNFILTER (spec/41_scanline_filter.md R153, R154, R160; spec/20_memory.md R68, R72;
spec/70_reset_and_hazards.md R243) -/

section

namespace Sys2Proof.Machine

open Sys2Proof

/-- Where no posted write is left in the output, host and engine read what memory holds there (R72). -/
theorem output_visible {s t : State} {n : Nat} (h : PostedOutsideOutput s n t) {k : Nat} (hk : k < n) :
    t.hostByte (s.dstAddr.toNat + k) = Memory.read t.mem (s.dstAddr.toNat + k) ∧
      t.engineByte (s.dstAddr.toNat + k) = Memory.read t.mem (s.dstAddr.toNat + k) := by
  have hnp : t.posted (s.dstAddr.toNat + k) = false :=
    not_posted_inside (base := s.dstAddr.toNat) (n := n) h (by omega) (by omega)
  exact ⟨hostByte_of_not_posted hnp, engineByte_of_not_posted hnp⟩

/-- UNFILTER whose checks pass, whose bytes can be reached and whose filter types are legal stores its rows and
completes. -/
theorem execUnfilter_of_reachable {s : State} (hc : s.checkReconstruction .unfilter = none)
    (hr : ReachesAll s .unfilter) (hf : FiltersLegal s) :
    ∃ u : State, exec .unfilter s = .next (u.completeOutput s.needUnf) ∧
      u = { s with
        scratch := u.scratch
        mem := Memory.writeAll s.mem
          ((filterEntries s .unfilter false).flatMap fun e => rowCells s e.1 e.2.1 e.2.2) } := by
  obtain ⟨_, u, hexec, rfl, hu⟩ := ranRows_of_reachable (.inl ⟨rfl, rfl⟩) hc hr.1 hr.2 hf
  exact ⟨u, hexec, hu⟩

/-- Settles O53: the rows stored are the reference reading of the stream, one after another from DST on. -/
theorem unfilterWritesRows : Obligations.UnfilterWritesRows := by
  intro s hw hpass hr hf
  have hc := checkReconstruction_eq_none hpass
  obtain ⟨u, hexec, hu⟩ := execUnfilter_of_reachable hc hr hf
  obtain ⟨hops, hregs, herr, hok, hposted, hmem⟩ := complete_keeps (n := s.needUnf) hu
  obtain ⟨hrows, hframe⟩ := unscattered_reads (i := .unfilter) rfl hc hw
  rw [← hmem] at hrows hframe
  refine ⟨_, hexec, hok, rfl, fun h0 => ⟨images_baseline h0, ?_⟩, hrows, hframe, fun k hk => output_visible hposted hk,
    hposted, hops, hregs, herr⟩
  rw [State.completeOutput_outLen, (lengthChecks.1 s h0).2.1]

end Sys2Proof.Machine
end

/-! ## NOP (spec/42_adam7_layout.md R190) -/

section

namespace Sys2Proof.Machine

open Sys2Proof

/-- STATUS after a command that has ended OK, no write having been refused (R26). -/
theorem statusWord_endsOk {s : State} (h : s.rejected = false) : (endsOk s).statusWord = 0x00000002#32 := by
  have hrej : (endsOk s).rejected = false := h
  refine BitVec.eq_of_toNat_eq ?_
  rw [statusWord_toNat, isError_eq, hrej]
  simp [endsOk, State.isBusy, ResultCode.byte, bit]

/-- Settles O28: NOP is `complete()` alone. -/
theorem nopCompletes : Obligations.NopCompletes :=
  ⟨by decide, fun s => ⟨rfl, Bool.and_true _, statusWord_endsOk⟩⟩

end Sys2Proof.Machine
end

/-! ## The Adam7 geometry (spec/42_adam7_layout.md R170, R171, R174, R175) -/

section

namespace Sys2Proof.Machine

open Sys2Proof

/-! ### Counting the points of a pass -/

theorem passCount_zero (s d : Nat) : passCount 0 s d = 0 := if_pos (Nat.zero_le s)

theorem passCount_of_lt {n s d : Nat} (hs : s < d) : passCount n s d = (n + (d - 1 - s)) / d := by
  unfold passCount ceilDiv
  split
  · exact (Nat.div_eq_of_lt (by omega)).symm
  · congr 1
    omega

/-- One more column or row is one more point where it is congruent to the start. -/
theorem passCount_succ {s d : Nat} (hs : s < d) (n : Nat) :
    passCount (n + 1) s d = passCount n s d + if n % d = s then 1 else 0 := by
  have hd : 0 < d := by omega
  by_cases hn : n % d = s
  · obtain ⟨q, rfl⟩ : ∃ q, n = s + q * d := ⟨n / d, by rw [← hn, Nat.mul_comm, Nat.mod_add_div]⟩
    have hcount : passCount (s + q * d) s d = q := eq_of_forall_lt_iff fun i => by
      rw [lt_passCount hd, Nat.add_lt_add_iff_left, Nat.mul_lt_mul_right hd]
    rw [if_pos hn, hcount]
    refine eq_of_forall_lt_iff fun i => ?_
    rw [lt_passCount hd, Nat.lt_succ_iff, Nat.lt_succ_iff, Nat.add_le_add_iff_left, Nat.mul_le_mul_right_iff hd]
  · rw [if_neg hn, Nat.add_zero]
    refine eq_of_forall_lt_iff fun i => ?_
    have hne : s + i * d ≠ n := by
      rintro rfl
      exact hn (by rw [Nat.add_mul_mod_self_right, Nat.mod_eq_of_lt hs])
    have hlt := lt_passCount (n := n) (s := s) (i := i) hd
    rw [lt_passCount hd]
    omega

/-- The closed form of R171 counts the `x` below `n` with `x mod d = s`. -/
theorem passCount_eq_length_filter {s d : Nat} (hs : s < d) (n : Nat) :
    passCount n s d = ((List.range n).filter fun x => x % d == s).length := by
  induction n with
  | zero => exact passCount_zero s d
  | succ n ih =>
    rw [passCount_succ hs, ih, List.range_succ, List.filter_append, List.length_append, List.filter_cons]
    by_cases hn : n % d = s <;> simp [hn]

theorem passStart_lt_passStep (p : Nat) :
    (passRow p).startX < (passRow p).stepX ∧ (passRow p).startY < (passRow p).stepY := by
  unfold passRow
  split <;> decide

/-- Settles O59: every start is below its step, so the closed form counts. -/
theorem passDimensionsCountThePoints : Obligations.PassDimensionsCountThePoints :=
  ⟨rfl, fun p _ w h => ⟨passCount_eq_length_filter (passStart_lt_passStep p).1 w,
    passCount_eq_length_filter (passStart_lt_passStep p).2 h⟩⟩

/-! ### The passes cover the grid -/

/-- Every grid position is the place of a pixel of a pass. -/
theorem exists_pass_of_lt {w h x y : Nat} (hx : x < w) (hy : y < h) :
    ∃ p j i, p < 7 ∧ j < passHeight h p ∧ i < passWidth w p ∧
      x = (passRow p).startX + i * (passRow p).stepX ∧ y = (passRow p).startY + j * (passRow p).stepY := by
  have hlt : y * w + x < w * h * 1 := by
    have hrow : (y + 1) * w ≤ h * w := Nat.mul_le_mul_right w hy
    rw [Nat.add_mul, Nat.mul_comm h w] at hrow
    omega
  obtain ⟨p, j, i, k, hp, hj, hi, hk, hplace⟩ := grid_cover Nat.one_pos hlt
  obtain rfl : k = 0 := by omega
  rw [gridOffset, Nat.mul_one, Nat.add_zero, Nat.add_assoc] at hplace
  obtain ⟨hrow, hcol⟩ := mul_add_inj hx (lt_passWidth.mp hi) hplace
  exact ⟨p, j, i, hp, hj, hi, hcol, hrow⟩

/-- One level of Adam7: of a grid, its odd rows and the odd columns of its even rows leave a grid of half the size. -/
theorem mul_eq_halves (a b : Nat) :
    a * b = (a + 1) / 2 * ((b + 1) / 2) + a / 2 * ((b + 1) / 2) + a * (b / 2) := by
  have ha : (a + 1) / 2 + a / 2 = a := by omega
  have hb : (b + 1) / 2 + b / 2 = b := by omega
  rw [← Nat.add_mul, ha, ← Nat.mul_add, hb]

/-- The passes' pixels are the grid's, by three levels of halving, each of which takes two passes (R175). -/
theorem sum_pass_pixels (w h : Nat) : ((List.range 7).map fun p => passWidth w p * passHeight h p).sum = w * h := by
  have h4 : ∀ n, ((n + 1) / 2 + 1) / 2 = (n + 3) / 4 := by omega
  have h8 : ∀ n, ((n + 3) / 4 + 1) / 2 = (n + 7) / 8 := by omega
  rw [mul_eq_halves w h, mul_eq_halves ((w + 1) / 2) ((h + 1) / 2), h4, h4,
    mul_eq_halves ((w + 3) / 4) ((h + 3) / 4), h8, h8]
  simp [List.range_succ, passWidth, passHeight, passRow, passCount_of_lt, Nat.div_div_eq_div_mul, Nat.add_assoc]

/-- Settles O60: covered, at one place only, and counted. -/
theorem passesPartitionTheGrid : Obligations.PassesPartitionTheGrid := by
  refine ⟨rfl, fun w h x y hx hy => ?_, sum_pass_pixels⟩
  obtain ⟨p, j, i, hp, hj, hi, hcol, hrow⟩ := exists_pass_of_lt hx hy
  refine ⟨p, j, i, ⟨hp, hj, hi, hcol, hrow⟩, fun p' j' i' hp' _ _ hcol' hrow' => ?_⟩
  obtain ⟨hpass, hi, hj⟩ := pass_unique hp' hp (hcol'.symm.trans hcol) (hrow'.symm.trans hrow)
  exact ⟨hpass, hj, hi⟩

end Sys2Proof.Machine
end

/-! ## DEINTERLACE and RECONSTRUCT (spec/42_adam7_layout.md R174, R181, R185; spec/20_memory.md R68, R72;
spec/70_reset_and_hazards.md R243) -/

section

namespace Sys2Proof.Machine

open Sys2Proof

/-! ### The two interlace methods -/

theorem needOut_reconstruct_baseline {s : State} (h : interlace s.imgFmt = 0) :
    s.needOut .reconstruct = s.needUnf := by
  simp [State.needOut, h]

theorem needOut_reconstruct_interlaced {s : State} (h : interlace s.imgFmt = 1) :
    s.needOut .reconstruct = s.gridBytes := by
  simp [State.needOut, h]

/-- The one check of R145 that tells RECONSTRUCT from UNFILTER, the seventh, is for interlaced images. -/
theorem configFails_baseline {s : State} (h : interlace s.imgFmt = 0) (n : Nat) :
    configFails s .reconstruct n = configFails s .unfilter n := by
  unfold configFails
  split <;> simp [h]

theorem checkReconstruction_baseline {s : State} (h : interlace s.imgFmt = 0) :
    s.checkReconstruction .reconstruct = s.checkReconstruction .unfilter := by
  have hconfig : s.configCheck .reconstruct = s.configCheck .unfilter := by
    rw [configCheck_eq_find, configCheck_eq_find, funext (configFails_baseline h)]
  have hsrc : s.needSrc .reconstruct = s.needSrc .unfilter := rfl
  have hout : s.needOut .reconstruct = s.needOut .unfilter := needOut_reconstruct_baseline h
  rw [State.checkReconstruction, State.checkReconstruction, hconfig, hsrc, hout]

/-- Settles O56: the two commands make the same checks and enter the same row loop. -/
theorem baselineReconstructIsUnfilter : Obligations.BaselineReconstructIsUnfilter := by
  intro s h
  have hscatter : decide (interlace s.imgFmt ≠ 0) = false := by simp [h]
  have hout : s.needOut .reconstruct = s.needOut .unfilter := needOut_reconstruct_baseline h
  have hstart : startReconstruct s = startUnfilter s := by
    rw [startReconstruct, startUnfilter, startRows, startRows, hscatter, checkReconstruction_baseline h, hout]
  rw [exec, exec, execReconstruct, execUnfilter, hstart]

/-! ### The grid -/

theorem CheckFacts.output_fits {s : State} {i : Instr} (h : CheckFacts s i) :
    s.dstAddr.toNat + s.needOut i ≤ 0x100000000 :=
  (Nat.add_le_add_left h.needOut _).trans h.dst

/-- `t` holds the pass images `pix` scattered over the grid and has changed no byte outside it (R68, R174). -/
structure GridWritten (s t : State) (pix : List Byte) : Prop where
  scattered : ScatteredFrom s t pix
  frame : ∀ a, OutsideOutput s s.gridBytes a → Memory.read t.mem a = Memory.read s.mem a

theorem gridWritten_deinterlace {s t : State} (hc : s.checkReconstruction .deinterlace = none)
    (hw : Memory.wf s.mem = true)
    (ht : t.mem = Memory.writeAll s.mem ((copyEntries s).flatMap fun e => rowCells s e.1 e.2.1 e.2.2)) :
    GridWritten s t (s.engineBytes s.srcAddr.toNat s.needUnf) := by
  obtain ⟨hgrid, hframe⟩ := (scattered_copyEntries hc).reads hw (check_facts hc).output_fits
  rw [copyEntries_bytes hc, ← ht] at hgrid
  exact ⟨hgrid, ht ▸ hframe⟩

theorem gridWritten_reconstruct {s t : State} (hc : s.checkReconstruction .reconstruct = none)
    (hw : Memory.wf s.mem = true) (h1 : interlace s.imgFmt = 1)
    (ht : t.mem = Memory.writeAll s.mem
      ((filterEntries s .reconstruct true).flatMap fun e => rowCells s e.1 e.2.1 e.2.2)) :
    GridWritten s t (streamRows s.imgFmt s.images (s.engineBytes s.srcAddr.toNat s.needIn)) := by
  obtain ⟨hgrid, hframe⟩ := (scattered_filterEntries hc h1).reads hw
    (needOut_reconstruct_interlaced h1 ▸ (check_facts hc).output_fits)
  rw [(filterEntries_bytes hc).1, ← ht] at hgrid
  exact ⟨hgrid, ht ▸ hframe⟩

/-- Settles O54: DEINTERLACE copies its input in order, and scattered rows are read back at their places. -/
theorem deinterlacePlacesPixels : Obligations.DeinterlacePlacesPixels := by
  intro s hw hpass hr
  have hc := checkReconstruction_eq_none hpass
  obtain ⟨u, hexec, hu⟩ := execDeinterlace_of_reachable hc hr.1 hr.2
  obtain ⟨hops, hregs, herr, hok, hposted, hmem⟩ := complete_keeps (n := s.gridBytes) hu
  obtain ⟨hgrid, hframe⟩ := gridWritten_deinterlace hc hw hmem
  exact ⟨_, hexec, hok, rfl, hgrid, hframe, fun k hk => output_visible hposted hk, hposted, hops, hregs, herr⟩

/-- Settles O55: the rows are stored one after another or scattered, as the interlace method says. -/
theorem reconstructWritesGrid : Obligations.ReconstructWritesGrid := by
  intro s hw hpass hr hf
  have hc := checkReconstruction_eq_none hpass
  obtain ⟨_, u, hexec, rfl, hu⟩ := ranRows_of_reachable (.inr ⟨rfl, rfl⟩) hc hr.1 hr.2 hf
  obtain ⟨hops, hregs, herr, hok, hposted, hmem⟩ := complete_keeps (n := s.needOut .reconstruct) hu
  refine ⟨_, hexec, hok, rfl, ?_⟩
  rcases (check_facts hc).il with h0 | h1
  · have hscatter : decide (interlace s.imgFmt ≠ 0) = false := by simp [h0]
    have hn := needOut_reconstruct_baseline h0
    obtain ⟨hrows, hframe⟩ := unscattered_reads hn hc hw
    rw [hscatter] at hmem
    rw [← hmem] at hrows hframe
    exact ⟨fun _ => hrows, fun h1 => absurd (h0.symm.trans h1) (by decide), hn ▸ hframe,
      fun k hk => output_visible hposted hk, hposted, hops, hregs, herr⟩
  · have hscatter : decide (interlace s.imgFmt ≠ 0) = true := by simp [h1]
    rw [hscatter] at hmem
    obtain ⟨hgrid, hframe⟩ := gridWritten_reconstruct hc hw h1 hmem
    exact ⟨fun h0 => absurd (h0.symm.trans h1) (by decide), fun _ => hgrid,
      (needOut_reconstruct_interlaced h1).symm ▸ hframe,
      fun k hk => output_visible hposted hk, hposted, hops, hregs, herr⟩

/-! ### UNFILTER into a scratch range and DEINTERLACE from it -/

/-- A grid is determined by the pass images scattered into it (R175). -/
theorem ScatteredFrom.read_eq {s t v : State} {pix : List Byte} (ht : ScatteredFrom s t pix)
    (hv : ScatteredFrom s v pix) {k : Nat} (hk : k < s.gridBytes) :
    Memory.read v.mem (s.dstAddr.toNat + k) = Memory.read t.mem (s.dstAddr.toNat + k) := by
  have hbpp : 0 < bppOf s.imgFmt := Nat.pos_of_ne_zero fun h0 => by simp [State.gridBytes, h0] at hk
  obtain ⟨p, j, i, b, hp, hj, hi, hb, rfl⟩ := grid_cover hbpp hk
  rw [← Nat.add_assoc, ht p j i b hp hj hi hb, hv p j i b hp hj hi hb]

/-- What the engine reads where memory holds a byte string and no host write is posted. -/
theorem engineBytes_eq_of_read {s : State} {a : Nat} {bs : List Byte} (hbuf : s.hostBuf = [])
    (h : ∀ k, k < bs.length → Memory.read s.mem (a + k) = bs.getD k 0#8) : s.engineBytes a bs.length = bs := by
  refine List.ext_getElem (engineBytes_length ..) fun k _ hk => ?_
  rw [engineBytes_getElem, engineByte_of_not_posted (by simp [State.posted, hbuf]), h k hk, List.getD_eq_getElem _ _ hk]

/-- The same operands place the same pixels. -/
theorem ScatteredFrom.congr {s r v : State} {pix : List Byte} (h : ScatteredFrom r v pix)
    (hwidth : r.imgWidth = s.imgWidth) (hheight : r.imgHeight = s.imgHeight) (hfmt : r.imgFmt = s.imgFmt)
    (hdst : r.dstAddr = s.dstAddr) : ScatteredFrom s v pix := by
  simpa only [ScatteredFrom, hwidth, hheight, hfmt, hdst] using h

/-- Every instruction keeps memory in its canonical form. -/
theorem exec_wf {i : Instr} {s t : State} (h : exec i s = .next t) (hw : Memory.wf s.mem = true) :
    Memory.wf t.mem = true := by
  obtain ⟨u, hmid, ⟨_, -, rfl⟩ | rfl | rfl | ⟨_, -, rfl⟩⟩ := exec_post h <;> exact hmid.wf hw

theorem reconstruct_next_ok {s t : State} (hw : Memory.wf s.mem = true) (h1 : interlace s.imgFmt = 1)
    (h : exec .reconstruct s = .next t) (hok : t.code = .ok) :
    GridWritten s t (streamRows s.imgFmt s.images (s.engineBytes s.srcAddr.toNat s.needIn)) := by
  have hscatter : decide (interlace s.imgFmt ≠ 0) = true := by simp [h1]
  obtain ⟨hc, u, -, rfl, hu⟩ := rows_next_ok (.inr ⟨rfl, rfl⟩) h hok
  obtain ⟨-, -, -, -, -, hmem⟩ := complete_keeps (n := s.needOut .reconstruct) hu
  exact gridWritten_reconstruct hc hw h1 (hscatter ▸ hmem)

theorem deinterlace_next_ok {s t : State} (hw : Memory.wf s.mem = true) (h : exec .deinterlace s = .next t)
    (hok : t.code = .ok) : GridWritten s t (s.engineBytes s.srcAddr.toNat s.needUnf) := by
  obtain ⟨hc, u, rfl, hu⟩ := copy_next_ok h hok
  obtain ⟨-, -, -, -, -, hmem⟩ := complete_keeps (n := s.needOut .deinterlace) hu
  exact gridWritten_deinterlace hc hw hmem

/-- UNFILTER with no host write posted, once it has ended OK: its output is the reference reading of the stream, to the
engine too. -/
theorem unfilter_next_ok {s t : State} (hw : Memory.wf s.mem = true) (hbuf : s.hostBuf = [])
    (h : exec .unfilter s = .next t) (hok : t.code = .ok) :
    KeepsOperands s t ∧ t.engineBytes s.dstAddr.toNat s.needUnf =
      streamRows s.imgFmt s.images (s.engineBytes s.srcAddr.toNat s.needIn) := by
  obtain ⟨hc, u, -, rfl, hu⟩ := rows_next_ok (i := .unfilter) (b := false) (.inl ⟨rfl, rfl⟩) h hok
  obtain ⟨hops, -, -, -, hposted, hmem⟩ := complete_keeps (n := s.needUnf) hu
  obtain ⟨hrows, -⟩ := unscattered_reads (i := .unfilter) rfl hc hw
  have hlen := filterEntries_length (b := false) hc
  rw [(filterEntries_bytes hc).1] at hlen
  have hnone : (u.completeOutput s.needUnf).hostBuf = [] := by rw [hposted, hbuf]; rfl
  have hread := engineBytes_eq_of_read hnone fun k hk => hmem ▸ hrows k (hlen ▸ hk)
  exact ⟨hops, hlen ▸ hread⟩

/-- The host has set the SRC and DST ranges between two commands. -/
def State.withRanges (s : State) (srcAddr srcLen dstAddr dstLen : Word) : State :=
  { s with srcAddr := srcAddr, srcLen := srcLen, dstAddr := dstAddr, dstLen := dstLen }

/-- Settles O57: DEINTERLACE scatters what UNFILTER left, which is what RECONSTRUCT scatters. -/
theorem reconstructIsUnfilterThenDeinterlace : Obligations.ReconstructIsUnfilterThenDeinterlace := by
  intro s t u v scratchAddr scratchLen hw hbuf h1 hrec htok hunf huok hdei hvok k hk
  have ht := (reconstruct_next_ok hw h1 hrec htok).scattered
  obtain ⟨hops, hpix⟩ := unfilter_next_ok (s := s.withRanges s.srcAddr s.srcLen scratchAddr scratchLen)
    hw hbuf hunf huok
  have huw : Memory.wf u.mem = true := exec_wf hunf hw
  set r := u.withRanges scratchAddr scratchLen s.dstAddr s.dstLen with hr
  have hv : ScatteredFrom r v (r.engineBytes scratchAddr.toNat r.needUnf) :=
    (deinterlace_next_ok (s := r) huw hdei hvok).scattered
  have hneed : r.needUnf = s.needUnf := by
    simp only [State.needUnf, State.images, hr, State.withRanges, hops.imgFmt, hops.imgWidth, hops.imgHeight]
  have hread : r.engineBytes scratchAddr.toNat s.needUnf =
      streamRows s.imgFmt s.images (s.engineBytes s.srcAddr.toNat s.needIn) := hpix
  rw [hneed, hread] at hv
  exact ht.read_eq (hv.congr hops.imgWidth hops.imgHeight hops.imgFmt rfl) hk

end Sys2Proof.Machine
end

/-! ## The command life cycle: acceptance, execution and the interrupt (spec/60_exceptions.md R200 to R203, R210;
spec/10_state.md R46) -/

section

namespace Sys2Proof.Machine

open Sys2Proof

/-! ### The interrupt level (R210) -/

theorem irq_of_done {t : State} (h : t.done = true) : t.irq = t.ctrl.getLsbD 1 := by
  rw [State.irq, h, Bool.and_true, State.irqEn]

theorem irq_of_not_done {t : State} (h : t.done = false) : t.irq = false := by
  rw [State.irq, h, Bool.and_false]

/-- CTRL stores IRQ_EN, bit 1, as written (R24). -/
theorem irqEn_and_ctrlMask (v : Word) : (v &&& ctrlMask).getLsbD 1 = v.getLsbD 1 := by
  rw [BitVec.getLsbD_and, show ctrlMask.getLsbD 1 = true by decide, Bool.and_true]

/-! ### Acceptance (R200) -/

/-- Settles O13: the write to CMD is `State.accept` between commands, and one of the writes R46 refuses while BUSY = 1. -/
theorem commandWriteAccepts : Obligations.CommandWriteAccepts := by
  intro s w rest hr hi
  refine ⟨fun he => ?_, fun hb => busyWritesAreRefused s 0x08#7 w rest hr hb (by simp) hi⟩
  exact ⟨_, step_idleWrite (r := .cmd) hr he rfl hi, irq_of_not_done rfl, rfl⟩

/-! ### Execution of the accepted word (R201) -/

section

variable {s : State} {w : Word}

/-- A turn at command grain runs the whole command. -/
theorem engineTurn_of_command {i : Instr} (he : s.engine = .busy w) (hs : s.scratch.scan = none)
    (hd : decodeCommand w = .instr i) : engineTurn .command s = exec i s := by
  simp [engineTurn, fetch, he, hs, fetchCommand, hd, entersRows]

theorem engineTurn_of_illegal (he : s.engine = .busy w) (hs : s.scratch.scan = none)
    (hd : decodeCommand w = .illegalCommand w) (grain : Grain) :
    engineTurn grain s = .next (endsWith s .illegalCommand w 0#32 0#32) := by
  simp only [engineTurn, fetch, he, hs, fetchCommand, hd]
  rfl

end

/-- Settles O4: the turn decodes the accepted word, whether it comes by default or is listed. -/
theorem engineTurnRunsAcceptedWord : Obligations.EngineTurnRunsAcceptedWord := by
  intro s w rest he hs
  refine ⟨fun hin i hd => ?_, fun hin hd => ?_, fun hin i hd => ?_, fun hin hd => ?_⟩
  · rw [step_of_no_input hin]
    exact engineTurn_of_command he hs hd
  · rw [step_of_no_input hin]
    exact engineTurn_of_illegal he hs hd _
  · rw [step_of_engine_input hin]
    exact engineTurn_of_command (s := { s with inputs := rest }) he hs hd
  · rw [step_of_engine_input hin]
    exact engineTurn_of_illegal (s := { s with inputs := rest }) he hs hd _

/-! ### Completion and the interrupt (R202, R203, R210) -/

/-- Every command, whatever its result, ends with DONE = 1 and the engine IDLE, CTRL as it was. -/
theorem exec_command_ends {i : Instr} {s t : State}
    (hi : i ∈ [Instr.nop, .sig, .chunk, .walk, .crc] ++ [Instr.unfilter, .deinterlace, .reconstruct])
    (h : exec i s = .next t) : t.ctrl = s.ctrl ∧ t.done = true ∧ t.engine = .idle := by
  rcases List.mem_append.mp hi with hi | hi
  · obtain ⟨hops, -, -, -, -, hidle, hdone, -⟩ := validatorFrame s t i hi h
    exact ⟨hops.ctrl, hdone, hidle⟩
  · obtain ⟨hops, -, hidle, hdone, -⟩ := reconstructionFrame s t i hi h
    exact ⟨hops.ctrl, hdone, hidle⟩

/-- Settles O23: completion sets DONE and leaves IRQ_EN, acknowledgement and acceptance clear DONE, and a write to CTRL
sets IRQ_EN alone. -/
theorem interruptFollowsCompletion : Obligations.InterruptFollowsCompletion := by
  refine ⟨fun s => rfl, fun s t i hi h => ?_, fun s v rest hr hv hi => ?_,
    fun s v rest hr he => ⟨fun hi => ?_, fun hi => ?_⟩⟩
  · obtain ⟨hctrl, hdone, hidle⟩ := exec_command_ends hi h
    exact ⟨hctrl ▸ irq_of_done hdone, hidle⟩
  · exact ⟨_, statusWriteClearsOnlyItsBits s v rest hr hi, irq_of_not_done (if_pos hv)⟩
  · exact ⟨_, step_idleWrite (r := .ctrl) hr he rfl hi, congrArg (· && s.done) (irqEn_and_ctrlMask v)⟩
  · obtain ⟨t, hstep, hirq, -⟩ := (commandWriteAccepts s v rest hr hi).1 he
    exact ⟨t, hstep, hirq⟩

end Sys2Proof.Machine
end

/-! ## Every command completes (spec/70_reset_and_hazards.md R246; spec/60_exceptions.md R201) -/

section

namespace Sys2Proof.Machine

open Sys2Proof

/-! ### Pieces of pseudocode that do not refuse -/

/-- The piece hands a state on or raises an error. -/
def Run.Answers (r : Run) : Prop :=
  match r with
  | .ok _ | .raised _ _ => True
  | .refused _ => False

theorem Run.Answers.andThen {r : Run} {k : State → Run} (h : r.Answers) (hk : ∀ u, r = .ok u → (k u).Answers) :
    (r.andThen k).Answers := by
  cases r with
  | ok u => exact hk u rfl
  | raised e u => trivial
  | refused f => exact h

theorem Run.answers_of_ne_refused {r : Run} (h : ∀ f, r ≠ .refused f) : r.Answers := by
  cases r with
  | ok u => trivial
  | raised e u => trivial
  | refused f => exact h f rfl

theorem Run.Answers.finish {r : Run} (h : r.Answers) : ∃ t, r.finish = .next t := by
  cases r with
  | ok u => exact ⟨_, rfl⟩
  | raised e u => exact ⟨_, rfl⟩
  | refused f => exact h.elim

theorem Run.Answers.close {r : Run} (h : r.Answers) : ∃ t, r.close = .next t := by
  cases r with
  | ok u => exact ⟨_, rfl⟩
  | raised e u => exact ⟨_, rfl⟩
  | refused f => exact h.elim

/-! ### The chunk validator -/

/-- Every byte of the SRC range can be reached. -/
abbrev SrcReachable (s : State) : Prop := Reachable s s.srcAddr.toNat s.srcLen.toNat

/-- A piece that hands a state on leaves the SRC range as it was, so the next piece can read it too. -/
theorem SrcReachable.of_runMidway {s t : State} {r : Run} (h : SrcReachable s) (m : RunMidway s r) (hr : r = .ok t) :
    SrcReachable t := by
  have hkeep : KeepsOperands s t := by
    rw [hr] at m
    exact m.ops
  intro i hi
  rw [hkeep.srcLen] at hi
  rw [hkeep.srcAddr, reachable_congr hkeep]
  exact h i hi

/-- `Read(n)` reads within the SRC range or raises OUT_OF_BOUNDS (R10). -/
theorem SrcReachable.readSrc_answers {s : State} (h : SrcReachable s) {n : Nat} {k : List Byte → State → Run}
    (hk : ∀ bs m, (k bs (s.withPos m)).Answers) : (readSrc n s k).Answers := by
  by_cases hn : n ≤ s.remaining
  · have hr : Reachable s (s.srcAddr.toNat + s.scratch.pos) n := fun i hi => by
      rw [remaining_eq] at hn
      rw [Nat.add_assoc]
      exact h _ (by omega)
    rw [readSrc_of_reachable hn hr]
    exact hk _ _
  · rw [readSrc_of_short (Nat.lt_of_not_le hn)]
    trivial

theorem sigCheck_answers (start : Nat) (bs : List Byte) (s : State) : (sigCheck start bs s).Answers := by
  unfold sigCheck
  split <;> trivial

theorem compareCrc_answers (start : Nat) (s : State) : (compareCrc start s).Answers := by
  unfold compareCrc
  split <;> trivial

theorem SrcReachable.sigStep_answers {s : State} (h : SrcReachable s) : (sigStep s).Answers :=
  h.readSrc_answers fun bs _ => sigCheck_answers _ bs _

theorem SrcReachable.chunkTag_answers {s : State} (h : SrcReachable s) (start : Nat) (lenField t : List Byte) :
    (chunkTag start lenField t s).Answers := by
  unfold chunkTag
  split
  · trivial
  · split
    · exact h.readSrc_answers fun _ m => SrcReachable.readSrc_answers (s := s.withPos m) h fun _ _ =>
        compareCrc_answers _ _
    · trivial

theorem SrcReachable.chunkStep_answers {s : State} (h : SrcReachable s) : (chunkStep s).Answers := by
  unfold chunkStep
  split
  · trivial
  · exact h.readSrc_answers fun _ m => SrcReachable.readSrc_answers (s := s.withPos m) h fun _ m' =>
      SrcReachable.chunkTag_answers (s := (s.withPos m).withPos m') h _ _ _

theorem SrcReachable.walkLoop_answers {s : State} (h : SrcReachable s) (fuel : Nat) (first : Bool) :
    (walkLoop fuel first s).Answers := by
  induction fuel generalizing first s with
  | zero => trivial
  | succ k ih =>
    rw [walkLoop_succ]
    refine h.chunkStep_answers.andThen fun u hu => ?_
    split
    · trivial
    · split
      · trivial
      · exact ih (h.of_runMidway (mid_chunkStep s) hu) false

theorem SrcReachable.validatorBody_answers {s : State} (h : SrcReachable s) (i : Instr) :
    (validatorBody i s).Answers := by
  cases i with
  | sig => exact SrcReachable.sigStep_answers (s := s.fromCursor) h
  | chunk => exact SrcReachable.chunkStep_answers (s := s.fromCursor) h
  | walk =>
    have hstart : SrcReachable s.zeroCount.fromCursor := h
    exact hstart.sigStep_answers.andThen fun u hu =>
      (hstart.of_runMidway (mid_sigStep _) hu).walkLoop_answers _ _
  | crc =>
    rw [validatorBody, memRead_of_reachable h]
    trivial
  | _ => trivial

/-! ### The commands -/

/-- Every address of the space can be reached. -/
def AllReachable (s : State) : Prop := ∀ a, a < 0x100000000 → s.reachable a = true

theorem AllReachable.range {s : State} (h : AllReachable s) {a n : Nat} (hle : a + n ≤ 0x100000000) :
    Reachable s a n := fun i hi => h (a + i) (by omega)

theorem AllReachable.exec_validator {s : State} (h : AllReachable s) {i : Instr}
    (hi : i ∈ [Instr.sig, .chunk, .walk, .crc]) : ∃ t, exec i s = .next t := by
  by_cases hrange : s.srcAddr.toNat + s.srcLen.toNat ≤ 0x100000000
  · rw [exec_of_srcRange hi hrange]
    exact (SrcReachable.validatorBody_answers (h.range hrange) i).finish
  · exact ⟨_, exec_of_srcRange_wraps hi (Nat.lt_of_not_le hrange)⟩

/-- What the checks let through, the command can read and store. -/
theorem AllReachable.reachesAll {s : State} (h : AllReachable s) {i : Instr} (hc : CheckFacts s i) : ReachesAll s i :=
  ⟨h.range ((Nat.add_le_add_left hc.needSrc _).trans hc.src), h.range hc.output_fits⟩

/-- UNFILTER and RECONSTRUCT past their checks run their row loop to its end or to UNSUPPORTED_FILTER. -/
theorem RowCommand.exec_of_reachesAll {s : State} {i : Instr} {b : Bool} (hb : RowCommand s i b)
    (hc : s.checkReconstruction i = none) (hr : ReachesAll s i) : ∃ t, exec i s = .next t := by
  have hsrc : s.needSrc i = s.needIn := by rcases hb with ⟨rfl, -⟩ | ⟨rfl, -⟩ <;> rfl
  have l := loop_start hb hc
  have hloop := runRows_noRefuse _ _ _ _ _ _ l le_rfl (hsrc ▸ hr.1) hr.2
  rw [← rowsLeft_of_scan l.scan] at hloop
  rcases startRows_cases i b s with ⟨e, he, -⟩ | ⟨-, hstart⟩
  · exact absurd (hc.symm.trans he) (by simp)
  rw [hb.exec_eq, hstart, Run.andThen_ok]
  exact (Run.answers_of_ne_refused hloop).close

theorem AllReachable.exec_reconstruction {s : State} (h : AllReachable s) {i : Instr}
    (hi : i ∈ [Instr.unfilter, .deinterlace, .reconstruct]) : ∃ t, exec i s = .next t := by
  cases hc : s.checkReconstruction i with
  | some e => exact ⟨_, exec_of_checkReconstruction_eq_some hi hc⟩
  | none =>
    have hr := h.reachesAll (check_facts hc)
    simp only [List.mem_cons, List.not_mem_nil, or_false] at hi
    rcases hi with rfl | rfl | rfl
    · exact RowCommand.exec_of_reachesAll (.inl ⟨rfl, rfl⟩) hc hr
    · obtain ⟨u, hexec, -⟩ := execDeinterlace_of_reachable hc hr.1 hr.2
      exact ⟨_, hexec⟩
    · exact RowCommand.exec_of_reachesAll (.inr ⟨rfl, rfl⟩) hc hr

/-- Only the commands have a CMD32 code (R81). -/
theorem command_of_encode {i : Instr} {w : Word} (h : encode i = .cmd32 w) :
    i ∈ [Instr.nop, .sig, .chunk, .walk, .crc] ++ [Instr.unfilter, .deinterlace, .reconstruct] := by
  cases i with
  | filterNone | filterSub | filterUp | filterAverage | filterPaeth => cases h
  | _ => decide

theorem AllReachable.exec_command {s : State} (h : AllReachable s) {i : Instr}
    (hi : i ∈ [Instr.nop, .sig, .chunk, .walk, .crc] ++ [Instr.unfilter, .deinterlace, .reconstruct]) :
    ∃ t, exec i s = .next t := by
  rcases List.mem_append.mp hi with hi | hi
  · rcases List.mem_cons.mp hi with rfl | hi
    · exact ⟨_, rfl⟩
    · exact h.exec_validator hi
  · exact h.exec_reconstruction hi

/-- Settles O7: no command refuses where every address can be reached, and one that does not refuse ends IDLE and DONE;
so does an illegal word. -/
theorem everyCommandCompletes : Obligations.EveryCommandCompletes := by
  intro s w he hscratch hin hall
  have hscan : s.scratch.scan = none := by rw [hscratch]; rfl
  rw [step_of_no_input hin]
  by_cases hl : (Code.cmd32 w).Legal
  · obtain ⟨i, hcode⟩ := exists_encode_of_legal hl
    have hd : decodeCommand w = .instr i := decode_eq_instr_iff.mpr hcode.symm
    have hi := command_of_encode hcode
    obtain ⟨t, ht⟩ := AllReachable.exec_command hall hi
    obtain ⟨-, hdone, hidle⟩ := exec_command_ends hi ht
    exact ⟨t, (engineTurn_of_command he hscan hd).trans ht, hidle, hdone⟩
  · exact ⟨_, engineTurn_of_illegal he hscan (decode_of_not_legal hl) .command, rfl, rfl⟩

end Sys2Proof.Machine
end

/-! ## The hazards of host accesses while a command runs (spec/70_reset_and_hazards.md R240) -/

section

namespace Sys2Proof.Machine

open Sys2Proof

section

variable {s : State} {a : Nat}

/-- A host access in a hazard, to a byte that can be reached. -/
theorem hostAccess_of_hazard {writes : Bool} (hr : s.reachable a = true) (hm : s.hostMayNot writes a = true)
    (k : State) : hostAccess s writes a k = .refused (.hostHazard a) := by
  unfold hostAccess
  rw [reachable_iff.mp hr]
  exact if_pos hm

/-- While a command runs the host may not write the SRC range. -/
theorem hostMayNot_write_src (hb : s.engine ≠ .idle) (hsrc : inRange s.srcAddr s.srcLen a = true) :
    s.hostMayNot true a = true := by
  simp [State.hostMayNot, isBusy_eq_true.mpr hb, hsrc]

/-- While a command runs the host may not touch the DST range. -/
theorem hostMayNot_dst (hb : s.engine ≠ .idle) (hdst : inRange s.dstAddr s.dstLen a = true) (writes : Bool) :
    s.hostMayNot writes a = true := by
  simp [State.hostMayNot, isBusy_eq_true.mpr hb, hdst]

/-- A host read is no hazard outside the DST range. -/
theorem hostMayNot_read (hdst : inRange s.dstAddr s.dstLen a = false) : s.hostMayNot false a = false := by
  simp [State.hostMayNot, hdst]

end

/-- Settles O24: each access asks `hostMayNot` before anything of it takes effect. -/
theorem hostHazardsAreRefused : Obligations.HostHazardsAreRefused := by
  intro s a b rest hb hr
  refine ⟨fun hrange hi => ?_, fun hdst hi => ?_, fun hdst hi => ?_⟩
  · have hm : s.hostMayNot true a.toNat = true :=
      hrange.elim (hostMayNot_write_src hb) fun hdst => hostMayNot_dst hb hdst true
    rcases hi with hi | hi <;> simp only [step, hi, deliver]
    · exact hostAccess_of_hazard (s := { s with inputs := rest }) hr hm _
    · exact hostAccess_of_hazard (s := { s with inputs := rest }) hr hm _
  · simp only [step, hi, deliver]
    exact hostAccess_of_hazard (s := { s with inputs := rest }) hr (hostMayNot_dst hb hdst false) _
  · simp only [step, hi, deliver]
    exact hostAccess_of_reachable (s := { s with inputs := rest }) hr (hostMayNot_read hdst) _

end Sys2Proof.Machine
end

/-! ## Reset (spec/70_reset_and_hazards.md R230 to R232) -/

section

namespace Sys2Proof.Machine

open Sys2Proof

/-- Settles O9: the state after reset is the one that asserting and releasing `rst` leaves. -/
theorem invariantAtReset : Obligations.InvariantAtReset :=
  (blockInv_resetRegisters (s := State.reset) rfl fun _ hc => absurd hc List.not_mem_nil).releaseReset

theorem step_assertReset {s : State} {rest : List Event} (hi : s.inputs = .assertReset :: rest) :
    step s = .next ({ s with inputs := rest } : State).assertReset := by
  simp only [step, hi, deliver]

/-! ### The values of the registers (R230) -/

/-- The value of each register after reset. -/
theorem readReg_reset (r : Reg) : State.reset.readReg r =
    if r.offset = 0x00 then 0x504E4701#32 else if r.offset = 0x04 then 0x00000005#32 else 0#32 := by
  cases r <;> decide

/-- No register remembers what it held before. -/
theorem readReg_resetRegisters (s : State) (rst : Bool) (r : Reg) :
    ({ s.resetRegisters with rst := rst } : State).readReg r = State.reset.readReg r := by
  cases r <;> rfl

/-- Whether or not a command is abandoned, every register takes its reset value and the engine is IDLE. -/
theorem assertReset_registers (s : State) :
    s.assertReset.rst = true ∧ s.assertReset.engine = .idle ∧ s.assertReset.irq = false ∧
      ∀ r, s.assertReset.readReg r = State.reset.readReg r := by
  rcases assertReset_cases s with ⟨-, h⟩ | ⟨-, h⟩ <;> rw [h]
  · exact ⟨rfl, rfl, irq_of_not_done rfl, readReg_resetRegisters s true⟩
  · exact ⟨rfl, rfl, irq_of_not_done rfl, readReg_resetRegisters s.drawDst true⟩

/-- Between commands a reset touches neither memory nor posted writes (R232). -/
theorem assertReset_memory {s : State} (h : s.engine = .idle) :
    s.assertReset.mem = s.mem ∧ s.assertReset.hostBuf = s.hostBuf := by
  rcases assertReset_cases s with ⟨-, hs⟩ | ⟨hb, -⟩
  · rw [hs]
    exact ⟨rfl, rfl⟩
  · exact absurd h (isBusy_eq_true.mp hb)

/-- A command in progress is abandoned with its DST range drawn (R231). -/
theorem assertReset_of_busy {s : State} (h : s.engine ≠ .idle) :
    s.assertReset = { s.drawDst.resetRegisters with rst := true } := by
  rcases assertReset_cases s with ⟨he, -⟩ | ⟨-, hs⟩
  · exact absurd he h
  · exact hs

/-! ### Register accesses while `rst` is asserted (R230) -/

section

variable {s : State} {off : BitVec 7}

theorem regWrite_of_rst (hr : s.rst = true) (ho : off.toNat % 4 = 0) (v : Word) :
    s.regWrite off 32 v = s.respond .done := by
  simp [State.regWrite, accessAdmitted_of_aligned ho, hr]

theorem regRead_of_rst (hr : s.rst = true) (ho : off.toNat % 4 = 0) : s.regRead off 32 = s.respondFree := by
  simp [State.regRead, accessAdmitted_of_aligned ho, hr]

end

/-- Settles O26: the registers are read off `State.reset`, and under `rst` no access gets as far as the register map. -/
theorem resetGivesResetValues : Obligations.ResetGivesResetValues := by
  refine ⟨fun s rest hi => ?_, fun s off v rest hr ho => ⟨fun hi => ?_, fun hi => ?_, fun hi => ?_⟩⟩
  · obtain ⟨hrst, hidle, hirq, hreg⟩ := assertReset_registers { s with inputs := rest }
    refine ⟨_, step_assertReset hi, hrst, hidle, hirq, assertReset_memory (s := { s with inputs := rest }),
      fun off v hv => ?_⟩
    obtain ⟨r, rfl, rfl⟩ := mem_regValues hv
    rw [hreg, readReg_reset]
  · exact step_regWrite hi (regWrite_of_rst (s := { s with inputs := rest }) hr ho v)
  · exact step_regRead hi (regRead_of_rst (s := { s with inputs := rest }) hr ho)
  · simp only [step, hi, deliver, State.releaseReset]

/-! ### An abandoned command (R231) -/

/-- Settles O27: the abandoned command's state is the drawn one with its registers reset, and a drawn byte has no posted
write left. -/
theorem resetAbandonsTheCommand : Obligations.ResetAbandonsTheCommand := by
  intro s rest hb hw hi
  have hstep := step_assertReset hi
  rw [assertReset_of_busy (s := { s with inputs := rest }) hb] at hstep
  refine ⟨_, hstep, rfl, rfl, rfl, rfl, fun a ha => drawDst_read_outside (s := s) ha, fun a ha hp => ?_, rfl⟩
  have hread := drawDst_read_inside hw ha hp
  obtain ⟨hlo, hhi⟩ := not_not.mp ha
  exact ⟨hread, (hostByte_of_not_posted (not_posted_inside (buf := s.hostBuf) rfl hlo hhi)).trans hread⟩

end Sys2Proof.Machine
end
